-- ==== Sys2Proof/Word.lean ====
section
/-! DEFINITION. The word types of the unit: every register and buffer word has 64 bits (R6), the command word 32 (R8),
and the window's byte lanes 8 (R73). -/

namespace Sys2Proof

/-- A 64-bit unsigned word (R6, R9): what every register and buffer word holds. -/
abbrev Word := BitVec 64

/-- One byte lane of a word (R73). -/
abbrev Byte := BitVec 8

/-- The 32-bit command word, `CMD[31:0]` (R101). -/
abbrev CommandWord := BitVec 32

/-- A natural number as a stored word; every value stored this way is below 2^64 by the rule that computes it. -/
abbrev Word.ofNat (n : Nat) : Word := BitVec.ofNat 64 n

/-- A one-bit value as a word: 1 or 0. -/
def Word.ofBool (b : Bool) : Word := if b then 1 else 0

end Sys2Proof
end

