-- ==== Sys2Proof/Machine/Arith.lean ====
section
/-! DEFINITION. The shared arithmetic functions of R13, the binary exponentiation of R134, the Euclid loop of R136, the
validator of R192, and the size test of R191, R194 and R199. All of them are exact arithmetic over the natural numbers
and the integers (R10); a result is narrowed to 64 bits where it is stored. -/

namespace Sys2Proof.Machine

/-- `addmod(a, b, m) = (a + b) mod m` (R13). -/
def addmod (a b m : Nat) : Nat := (a + b) % m

/-- `submod(a, b, m) = (a - b) mod m` over the integers (R10, R13). -/
def submod (a b m : Nat) : Nat := (((a : Int) - (b : Int)) % (m : Int)).toNat

/-- `mulmod(a, b, m) = (a * b) mod m`, the product exact (R13). -/
def mulmod (a b m : Nat) : Nat := (a * b) % m

/-- The square-and-multiply loop of R134, least significant bit of the exponent first, for at most `steps` bits; it
stops once no set bit of the exponent is left, as R134 allows. -/
def powLoop : (steps b e r m : Nat) → Nat
  | 0, _, _, r, _ => r
  | k + 1, b, e, r, m =>
    if e = 0 then r
    else powLoop k (mulmod b b m) (e / 2) (if e % 2 = 1 then mulmod r b m else r) m

/-- `powmod(x, e, m) = (x ^ e) mod m` for a 64-bit exponent (R13), computed as R134 says. -/
def powmod (x e m : Nat) : Nat := powLoop 64 x e (1 % m) m

/-- `bitrev_b(i)`: the sum over t in [0, b) of bit t of i moved to bit b - 1 - t (R13). -/
def bitrev (b i : Nat) : Nat := ((List.range b).map fun t => ((i >>> t) % 2) <<< (b - 1 - t)).sum

/-- The loop of R136 on `(r0, r1)` and `(t0, t1)`, for at most the given number of steps. -/
def euclidLoop : (steps r0 r1 : Nat) → (t0 t1 : Int) → Nat × Int
  | 0, r0, _, t0, _ => (r0, t0)
  | k + 1, r0, r1, t0, t1 =>
    if r1 = 0 then (r0, t0)
    else
      let q := r0 / r1
      euclidLoop k r1 (r0 - q * r1) t1 (t0 - (q : Int) * t1)

/-- A number of loop steps that is enough for every 64-bit `a`: the remainder at least halves in any two steps.
DEDUCED (A17). -/
def euclidSteps : Nat := 160

/-- `(gcd(a, m), t)` where `a * t` is congruent to that gcd modulo `m` (R136). -/
def euclid (a m : Nat) : Nat × Int := euclidLoop euclidSteps m a 0 1

/-- `invmod(a, m)`, for gcd(a, m) = 1 (R13), by the Euclid loop as R136 computes it. -/
def invmod (a m : Nat) : Nat := ((euclid a m).2 % (m : Int)).toNat

/-- The predicate of the root_of_unity_validator, its three checks as R192 states them. -/
def validRoot (m n root : Nat) : Bool :=
  powmod root n m == m - 1 && powmod root (2 * n) m == 1 % m &&
    (List.range (2 * n)).all fun k => k == 0 || powmod root k m != 1 % m

/-- The size is not a power of two in 1 ≤ n ≤ NMAX: `n = 0 or n > NMAX or (n & (n - 1)) != 0` (R191, R194, R199). -/
def badSize (nMax n : Nat) : Bool := n == 0 || decide (nMax < n) || (n &&& (n - 1)) != 0

end Sys2Proof.Machine
end

