-- ==== Sys2Proof/Config.lean ====
section
/-! DEFINITION. What an implementation fixes (the parameters of R7 and R70) and the free values: what the spec leaves
open with "any value, under no law" (R47, R351, R362). -/

namespace Sys2Proof

/-- The parameters of a unit (R7, R70). They are held in `State`, because CAPS shows two of them to the host (R29). -/
structure Params where
  /-- LOGN_MAX: log2 of the largest transform size and of each buffer's depth (R7). -/
  logNMax : Nat
  /-- KMAX: the number of RNS slots (R7). -/
  kMax : Nat
  /-- UNIT_BASE: the address of the register window (R70). -/
  unitBase : Nat
  deriving DecidableEq, Repr

/-- NMAX = 2^LOGN_MAX (R7). -/
def Params.nMax (p : Params) : Nat := 2 ^ p.logNMax

/-- The parameters that `State.reset` takes: LOGN_MAX = 4 and KMAX = 4, those of the spec's own test vectors
(95_test_vectors.md), and UNIT_BASE = 0. DESIGN CHOICE (A3), unsafe: the source sets none of these values (R7), so
statements are made over every state, hence over all parameters, and none rests on these three numbers. -/
def Config.params : Params := { logNMax := 4, kMax := 4, unitBase := 0 }

/-- Free value: the byte that lane `a` of the buffers (a window offset) holds after the `k`-th power-on, until it is
written (R47, R350). Nothing constrains it (A4). -/
opaque Config.powerOnByte : Nat → Nat → Byte

/-- Free value: the `k`-th free 64-bit draw. It serves a host read while BUSY (R362) and each buffer word that an
abandoned command may have written (R351). Nothing constrains it (A5, A6). -/
opaque Config.freeWord : Nat → Word

end Sys2Proof
end

