-- ==== Sys2Proof/Syntax.lean ====
section
/-! DEFINITION. The commands (one constructor of `Instr` for each row of spec/opcode_table.json) and what the outside
world can do to the unit: host accesses and the turns of a run. -/

namespace Sys2Proof

/-- The buffer that a field D or S of a buffer command selects (R101, R108). -/
inductive Buf where
  | b0 | b1
  deriving DecidableEq, Repr

/-- The residue vector that a field D or S of a residue-vector command selects (R101, R108). -/
inductive Vec where
  | v0 | v1
  deriving DecidableEq, Repr

/-- The 30 commands of the opcode map (R105), with the fields that each one uses (R102). -/
inductive Instr where
  | nop
  | madd | msub | mmul | mpow | minvf | minve
  | montInit | montMul | montTo | montFrom | ctAdd | ctSub
  | ctxBuild | rootCheck
  | bitrev (d : Buf)
  | bfly2 | bfly4
  | nttFwd2 (d : Buf) | nttInv2 (d : Buf) | nttFwd4 (d : Buf) | nttInv4 (d : Buf)
  | rnsInit
  | toRns (d : Vec) | fromRns (d : Vec)
  | radd (d src : Vec) | rmul (d src : Vec)
  | padd (d src : Buf) | psub (d src : Buf) | pmul (d src : Buf)
  deriving DecidableEq, Repr

/-- A host access, `MemRead(addr, width)` or `MemWrite(addr, width, v)` with the width in bytes (R11, R70). -/
inductive Access where
  | read (addr width : Nat)
  | write (addr width : Nat) (v : Word)
  deriving DecidableEq, Repr

/-- The address of an access. -/
def Access.addr : Access → Nat
  | .read a _ => a
  | .write a _ _ => a

/-- The width of an access, in bytes. -/
def Access.width : Access → Nat
  | .read _ w => w
  | .write _ w _ => w

/-- One turn of a run: the host makes an access, the unit gets the chance of its complete step (R360), or the power
comes on (R350). -/
inductive Turn where
  | host (a : Access)
  | unit
  | powerOn
  deriving DecidableEq, Repr

end Sys2Proof
end

