-- ==== Sys2Proof/Machine/State.lean ====
section
/-! DEFINITION. The state of the unit as plain data: every piece of state that R20 lists, the reasons a step can stop,
and the state after power-on (R350). -/

namespace Sys2Proof.Machine

/-- The status codes of STATUS.CODE (R320); codes 10 to 15 are never written and are left out (93 U14). -/
inductive Code where
  | ok | invalidSize | invalidModulus | invalidRoot | notInvertible | sizeMismatch | operandRange | noContext
  | illegalCommand | domainMismatch
  deriving DecidableEq, Repr

/-- A buffer's domain tag, bit 0 of BUF_DOM (R41). -/
inductive Domain where
  | coefficient | evaluation
  deriving DecidableEq, Repr

/-- The twiddle table (R35). Entry `s` of a stage list stands at index `s - 1`; the radix-4 lists are empty where
log2 n is odd, and JF and JI are there only when n ≥ 4 (R196). -/
structure TwiddleTable where
  twf2 : List Word
  twi2 : List Word
  twf4 : List (Word × Word × Word)
  twi4 : List (Word × Word × Word)
  jf : Option Word
  ji : Option Word
  ninv : Word
  deriving DecidableEq, Repr

/-- The transform context (R31) with the twiddle table it owns. Held when TCV = 1. -/
structure TransformContext where
  tcM : Word
  tcN : Word
  tcRoot : Word
  twiddles : TwiddleTable
  deriving DecidableEq, Repr

/-- The Montgomery context (R33). Held when MCV = 1. -/
structure MontgomeryContext where
  montM : Word
  montR2 : Word
  montMP : Word
  montRInv : Word
  deriving DecidableEq, Repr

/-- The RNS base (R34). Held when RBV = 1. The arrays have the map's 16 slots (R72); slots at i ≥ RNS_K hold 0. -/
structure RnsBase where
  rnsK : Word
  rnsMod : Vector Word 16
  rnsMProd : Word
  rnsMi : Vector Word 16
  rnsMiInv : Vector Word 16
  deriving DecidableEq, Repr

/-- The buffers' bytes, by window offset: the bytes that have been written, in rising order of offset. A byte that is
not listed has not been written since power-on (R47). -/
abbrev Memory := List Host.Cell

/-- The state of the unit (R20) and of its port to the outside. -/
structure State where
  /-- LOGN_MAX and KMAX, which CAPS shows (R29), and UNIT_BASE (R70). No step changes them. -/
  params : Params
  /-- The command latch (R44): the value written to CMD while a command is in progress, `none` when it is empty.
  STATUS.BUSY is 1 exactly while it holds a value (R26, R360). -/
  latch : Option Word
  /-- STATUS.CODE (R27). -/
  code : Code
  /-- STATUS.OVR (R26). -/
  ovr : Bool
  /-- KMOD (R24). -/
  kmod : Word
  /-- OP0 to OP7 (R22). -/
  op : Vector Word 8
  /-- RS0 to RS3 (R23). -/
  rs : Vector Word 4
  /-- The transform context; `none` is TCV = 0 (R31). -/
  tc : Option TransformContext
  /-- The Montgomery context; `none` is MCV = 0 (R33). -/
  mont : Option MontgomeryContext
  /-- The RNS base; `none` is RBV = 0 (R34). -/
  rns : Option RnsBase
  /-- BUF_LEN0 (R41). -/
  bufLen0 : Word
  /-- BUF_LEN1 (R41). -/
  bufLen1 : Word
  /-- BUF_DOM0 (R41). -/
  bufDom0 : Domain
  /-- BUF_DOM1 (R41). -/
  bufDom1 : Domain
  /-- BASE_IN (R37): the map's 16 slots (R72), of which those at i < KMAX exist. -/
  baseIn : Vector Word 16
  /-- BASE_K_IN (R37). -/
  baseKIn : Word
  /-- RV0 (R42): the map's 16 slots, of which those at i < KMAX exist. -/
  rv0 : Vector Word 16
  /-- RV1 (R42). -/
  rv1 : Vector Word 16
  /-- The bytes of BUF0 and BUF1 that have been written (R40, R47). -/
  mem : Memory
  /-- MODEL's own: which power-on the unwritten bytes' values come from (`Config.powerOnByte`, A4). -/
  ramDraw : Nat
  /-- MODEL's own: how many free words have been drawn (`Config.freeWord`, A5). -/
  draws : Nat
  /-- MODEL's own: the value that the last host read returned (A7). -/
  readData : Word
  /-- MODEL's own: the turns still to come (A1). -/
  agenda : List Turn
  deriving DecidableEq, Repr

/-- Why the model stops with a fault. The unit itself has no fault of any kind (R321, R324). -/
inductive Fault where
  /-- Raised by a host access whose address is outside the window: it is not in the unit's address space (R70). Safe:
  the unit has no part in such an access (A14). -/
  | outsideWindow
  deriving DecidableEq, Repr

/-- Why the model gives a step no meaning. -/
inductive Refusal where
  /-- Raised by `exec` for an instruction that has no meaning yet. Safe. -/
  | notModelled (mnemonic : String)
  /-- Raised by a host access in the window that is not 64 bits wide or not at a multiple of 8: R71 says that a model
  refuses it. Safe (A13). -/
  | unadmittedAccess
  deriving DecidableEq, Repr

/-- The state right after power-on of a unit with parameters `p` (R46, R350): every register 0, no context, no command
in progress, every buffer word unspecified (none listed). `ramDraw`, `draws`, `readData` and `agenda` are the model's
own: DESIGN CHOICE (A7). -/
def State.powerOn (p : Params) : State where
  params := p
  latch := none
  code := .ok
  ovr := false
  kmod := 0
  op := Vector.replicate 8 0
  rs := Vector.replicate 4 0
  tc := none
  mont := none
  rns := none
  bufLen0 := 0
  bufLen1 := 0
  bufDom0 := .coefficient
  bufDom1 := .coefficient
  baseIn := Vector.replicate 16 0
  baseKIn := 0
  rv0 := Vector.replicate 16 0
  rv1 := Vector.replicate 16 0
  mem := []
  ramDraw := 0
  draws := 0
  readData := 0
  agenda := []

/-- The state after reset: power-on (R350) of a unit with the parameters of `Config.params` (A3). -/
def State.reset : State := State.powerOn Config.params

end Sys2Proof.Machine
end

