-- ==== Sys2Proof/WellFormed.lean ====
section
/-! DEFINITION. What is well formed: parameters (R7), host accesses (R70, R71), and command values as they are written
to CMD (R101, R104, R107). An `Instr` is well formed by its type: its only operands are the one-bit selectors D and S
(R103: there are no immediates), and each constructor has exactly the fields its row uses. -/

namespace Sys2Proof

/-- The legal ranges of the parameters (R7). -/
def Params.wellFormed (p : Params) : Bool :=
  decide (2 ≤ p.logNMax) && decide (p.logNMax ≤ 13) && decide (3 ≤ p.kMax) && decide (p.kMax ≤ 16)

/-- The window's length in bytes (R70). -/
def windowBytes : Nat := 0x30000

/-- The access lies in the unit's window (R70). -/
def Access.inWindow (p : Params) (a : Access) : Bool :=
  decide (p.unitBase ≤ a.addr) && decide (a.addr < p.unitBase + windowBytes)

/-- The access is one that the interface defines: 64 bits wide, with an offset that is a multiple of 8 (R71). -/
def Access.aligned64 (p : Params) (a : Access) : Bool :=
  decide (a.width = 8) && decide ((a.addr - p.unitBase) % 8 = 0)

/-- The access is admitted (R70, R71). -/
def Access.wellFormed (p : Params) (a : Access) : Bool := a.inWindow p && a.aligned64 p

/-- Which of the fields D and S a command uses (R102). -/
inductive Fields where
  | none | d | ds
  deriving DecidableEq, Repr

/-- The fields column of the opcode map (R105). -/
def Instr.fields : Instr → Fields
  | .nop | .madd | .msub | .mmul | .mpow | .minvf | .minve => .none
  | .montInit | .montMul | .montTo | .montFrom | .ctAdd | .ctSub => .none
  | .ctxBuild | .rootCheck | .bfly2 | .bfly4 | .rnsInit => .none
  | .bitrev _ | .nttFwd2 _ | .nttInv2 _ | .nttFwd4 _ | .nttInv4 _ => .d
  | .toRns _ | .fromRns _ => .d
  | .radd _ _ | .rmul _ _ | .padd _ _ | .psub _ _ | .pmul _ _ => .ds

/-- The opcodes that name a command that uses no field, D, or D and S (R105). -/
def opcodesOf : Fields → List Nat
  | .none => [0x00, 0x10, 0x11, 0x12, 0x13, 0x14, 0x15, 0x20, 0x21, 0x22, 0x23, 0x24, 0x25, 0x30, 0x31, 0x33, 0x34, 0x40]
  | .d => [0x32, 0x38, 0x39, 0x3A, 0x3B, 0x41, 0x42]
  | .ds => [0x43, 0x44, 0x50, 0x51, 0x52]

/-- The value written to CMD is a legal command (R104, R107): a zero upper half, zero reserved bits, an opcode of the
map, and zero in each field that the opcode's command does not use. -/
def legalCommand (v : Word) : Bool :=
  let opc := (v.extractLsb' 0 8).toNat
  v.extractLsb' 32 32 == 0 && v.extractLsb' 10 22 == 0 &&
    ((opcodesOf .ds).contains opc ||
     ((opcodesOf .d).contains opc && !v.getLsbD 9) ||
     ((opcodesOf .none).contains opc && !v.getLsbD 8 && !v.getLsbD 9))

end Sys2Proof
end

