-- ==== Sys2Proof/Machine/Flags.lean ====
section
/-! DEFINITION. STATUS and CAPS as the host reads them (R26, R29), the status code numbers (R320), and which code a
command with several failing checks reports (R322). -/

namespace Sys2Proof.Machine

/-- The number of a status code (R320). -/
def Code.number : Code → Nat
  | .ok => 0
  | .invalidSize => 1
  | .invalidModulus => 2
  | .invalidRoot => 3
  | .notInvertible => 4
  | .sizeMismatch => 5
  | .operandRange => 6
  | .noContext => 7
  | .illegalCommand => 8
  | .domainMismatch => 9

/-- STATUS.BUSY: 1 from a command's issue to its completion (R26, R360). -/
def State.busy (s : State) : Bool := s.latch.isSome

/-- STATUS as it reads (R26): CODE in bits 3:0, BUSY 8, OVR 9, TCV 10, MCV 11, RBV 12, the rest 0. -/
def State.statusWord (s : State) : Word :=
  BitVec.ofNat 64 s.code.number ||| (Word.ofBool s.busy <<< 8) ||| (Word.ofBool s.ovr <<< 9) |||
    (Word.ofBool s.tc.isSome <<< 10) ||| (Word.ofBool s.mont.isSome <<< 11) ||| (Word.ofBool s.rns.isSome <<< 12)

/-- CAPS as it reads (R29): LOGN_MAX in bits 7:0 and KMAX in bits 15:8. -/
def capsWord (p : Params) : Word :=
  (BitVec.ofNat 8 p.logNMax).setWidth 64 ||| ((BitVec.ofNat 8 p.kMax).setWidth 64 <<< 8)

/-- One check of a command's pseudocode: whether it fails, and the code it then raises. -/
structure Check where
  failed : Bool
  code : Code
  deriving DecidableEq, Repr

/-- The code of the first check that fails, in the order of the pseudocode (R322). -/
def firstFailure : List Check → Option Code
  | [] => none
  | c :: cs => if c.failed then some c.code else firstFailure cs

/-- `if x >= m: raise OperandRange` (R130 and the rules that check a residue). -/
def notResidue (m x : Word) : Check := ⟨decide (m.toNat ≤ x.toNat), .operandRange⟩

/-- `if m < 2: raise InvalidModulus` (R130). -/
def degenerateModulus (m : Word) : Check := ⟨decide (m.toNat < 2), .invalidModulus⟩

end Sys2Proof.Machine
end

