-- ==== Sys2Proof/Machine/Ops.lean ====
section
/-! DEFINITION. The named operations over the buffers' memory, the completion of a command and the raising of an error
(R12, R321, R360). Raising an error is all that this unit has for taking an exception: it has no trap (R324) and no
return from one (R325). -/

namespace Sys2Proof.Machine

/-! ### Bytes and words of the buffers -/

/-- The written byte at a window offset, if there is one. -/
def Memory.lookup : Memory → Nat → Option Byte
  | [], _ => none
  | c :: m, a => if c.1 = a then some c.2 else Memory.lookup m a

/-- Stores one byte, keeping the offsets strictly rising. -/
def Memory.insert : Memory → Nat → Byte → Memory
  | [], a, b => [(a, b)]
  | c :: m, a, b =>
    if a < c.1 then (a, b) :: c :: m
    else if c.1 = a then (a, b) :: m
    else c :: Memory.insert m a b

/-- The canonical form: offsets strictly rising. What an unlisted offset reads as is "not written" (`none`), which no
entry can be, so equal contents are equal lists (A4). -/
abbrev Memory.wf (m : Memory) : Prop := m.Pairwise fun x y => x.1 < y.1

/-- Byte lane `k` of a word: bits `8k+7 : 8k` (R73). -/
def lane (v : Word) (k : Nat) : Byte := v.extractLsb' (8 * k) 8

/-- The eight byte lanes of a word, lane 0 first (R73). -/
def lanes (v : Word) : List Byte := (List.range 8).map (lane v)

/-- The number whose byte lanes are the list, lane 0 first (R73). -/
def ofLanes : List Byte → Nat
  | [] => 0
  | b :: bs => b.toNat + 256 * ofLanes bs

/-- Stores bytes at rising offsets from `a`. -/
def Memory.writeBytes : Memory → Nat → List Byte → Memory
  | m, _, [] => m
  | m, a, b :: bs => Memory.writeBytes (m.insert a b) (a + 1) bs

/-- Stores a 64-bit word at offset `a`, all its bits at once (R74). -/
def Memory.writeWord (m : Memory) (a : Nat) (v : Word) : Memory := m.writeBytes a (lanes v)

/-- Stores words at offsets `a`, `a + 8`, … -/
def Memory.writeWords : Memory → Nat → List Word → Memory
  | m, _, [] => m
  | m, a, v :: vs => Memory.writeWords (m.writeWord a v) (a + 8) vs

/-- The byte at a window offset of a buffer: the byte written there, else the free value that the RAM has held since
power-on (R47). -/
def State.byteAt (s : State) (a : Nat) : Byte := (s.mem.lookup a).getD (Config.powerOnByte s.ramDraw a)

/-- The 64-bit word at offset `a` (R73). -/
def State.wordAt (s : State) (a : Nat) : Word :=
  Word.ofNat (ofLanes ((List.range 8).map fun k => s.byteAt (a + k)))

/-! ### The end of a command -/

/-- What a step of the unit answers. -/
abbrev Result := Host.Outcome State Fault Refusal

/-- `complete`: CODE ← OK and BUSY ← 0 (R12, R360). -/
def State.complete (s : State) : Result := .next { s with code := .ok, latch := none }

/-- `raise e`: CODE ← e and BUSY ← 0, no other effect (R12, R321, R360). -/
def State.raise (s : State) (e : Code) : Result := .next { s with code := e, latch := none }

/-- The end of a command's rule: with every check passed, complete in `done`; else raise the first failing check's code
in `failed`, which is the state at issue except for a context build that clears its context (R12, R322). -/
def conclude (checks : List Check) (done failed : State) : Result :=
  match firstFailure checks with
  | none => done.complete
  | some e => failed.raise e

end Sys2Proof.Machine
end

