-- ==== Sys2Proof/Machine/Operands.lean ====
section
/-! DEFINITION. The operands of commands (R103): scalar registers, the buffer or residue vector that D or S selects,
and the registers that commands write. -/

namespace Sys2Proof.Machine

/-- Slot `i` of an array of registers; 0 where there is none (R72). -/
def slot {n : Nat} (v : Vector Word n) (i : Nat) : Word := v[i]?.getD 0

/-- RS0 ← v (R23). -/
def State.setRs0 (s : State) (v : Word) : State := { s with rs := s.rs.set 0 v }

/-- (RS0, RS1) ← (v0, v1) (R23, R231). -/
def State.setRs01 (s : State) (v0 v1 : Word) : State := { s with rs := (s.rs.set 0 v0).set 1 v1 }

/-- (RS0, …, RS3) ← (v0, …, v3) (R23, R236). -/
def State.setRsAll (s : State) (v0 v1 v2 v3 : Word) : State := { s with rs := #v[v0, v1, v2, v3] }

/-- BUF_LEN[D] (R41). -/
def State.bufLen (s : State) : Buf → Word
  | .b0 => s.bufLen0
  | .b1 => s.bufLen1

/-- BUF_DOM[D] (R41). -/
def State.bufDom (s : State) : Buf → Domain
  | .b0 => s.bufDom0
  | .b1 => s.bufDom1

/-- BUF_DOM[D] ← t (R41). -/
def State.setBufDom (s : State) (d : Buf) (t : Domain) : State :=
  match d with
  | .b0 => { s with bufDom0 := t }
  | .b1 => { s with bufDom1 := t }

/-- The window offset of a buffer's word 0 (R72). -/
def bufBase : Buf → Nat
  | .b0 => 0x10000
  | .b1 => 0x20000

/-- BUF[d][i] (R40). -/
def State.bufWord (s : State) (d : Buf) (i : Nat) : Word := s.wordAt (bufBase d + 8 * i)

/-- BUF[d][0 .. len-1] (R40). -/
def State.bufWords (s : State) (d : Buf) (len : Nat) : List Word := (List.range len).map (s.bufWord d)

/-- BUF[d][0 .. ] ← ws, in place from word 0 (R40). -/
def State.writeBuf (s : State) (d : Buf) (ws : List Word) : State :=
  { s with mem := s.mem.writeWords (bufBase d) ws }

/-- RV[d] (R42). -/
def State.rv (s : State) : Vec → Vector Word 16
  | .v0 => s.rv0
  | .v1 => s.rv1

/-- RV[d] ← v (R42). -/
def State.setRv (s : State) (d : Vec) (v : Vector Word 16) : State :=
  match d with
  | .v0 => { s with rv0 := v }
  | .v1 => { s with rv1 := v }

/-- An array with slot i set to `f i` for i < k, and every slot at i ≥ k as in `old` (R42). -/
def fillSlots (k : Nat) (f : Nat → Word) (old : Vector Word 16) : Vector Word 16 :=
  Vector.ofFn fun i => if i.val < k then f i.val else old[i]

end Sys2Proof.Machine
end

