-- ==== Sys2Proof/Machine/Kernel.lean ====
section
/-! DEFINITION. The modular arithmetic kernel: MADD, MSUB, MMUL, MPOW, MINVF, MINVE (R130 to R136). The modulus is KMOD,
the operands are OP0 and OP1, the result goes to RS0. -/

namespace Sys2Proof.Machine

/-- The common checks (R130): the modulus, then each residue operand in turn. -/
def State.residueChecks (s : State) (xs : List Word) : List Check :=
  degenerateModulus s.kmod :: xs.map (notResidue s.kmod)

/-- A kernel command: the common checks on the residue operands `xs`, then its own, then RS0 ← the result. -/
def State.kernelCommand (s : State) (xs : List Word) (own : List Check) (result : Nat) : Result :=
  conclude (s.residueChecks xs ++ own) (s.setRs0 (Word.ofNat result)) s

/-- The sum of R131: `s <- a + b; (s >= m) ? s - m : s`. -/
def maddValue (a b m : Nat) : Nat := if m ≤ a + b then a + b - m else a + b

/-- The difference of R132: `(a >= b) ? a - b : a - b + m`, computed without wrap. -/
def msubValue (a b m : Nat) : Nat := if b ≤ a then a - b else a + m - b

/-- MADD (R131). -/
def execMadd (s : State) : Result :=
  s.kernelCommand [s.op[0], s.op[1]] [] (maddValue s.op[0].toNat s.op[1].toNat s.kmod.toNat)

/-- MSUB (R132). -/
def execMsub (s : State) : Result :=
  s.kernelCommand [s.op[0], s.op[1]] [] (msubValue s.op[0].toNat s.op[1].toNat s.kmod.toNat)

/-- MMUL (R133): the 128-bit product reduced. -/
def execMmul (s : State) : Result :=
  s.kernelCommand [s.op[0], s.op[1]] [] (mulmod s.op[0].toNat s.op[1].toNat s.kmod.toNat)

/-- MPOW (R134): base OP0 is a residue, exponent OP1 is any 64-bit value. -/
def execMpow (s : State) : Result :=
  s.kernelCommand [s.op[0]] [] (powmod s.op[0].toNat s.op[1].toNat s.kmod.toNat)

/-- MINVF (R135): the Fermat policy; the modulus is not tested for primality. -/
def execMinvf (s : State) : Result :=
  s.kernelCommand [s.op[0]] [⟨decide (s.op[0].toNat = 0), .notInvertible⟩]
    (powmod s.op[0].toNat (s.kmod.toNat - 2) s.kmod.toNat)

/-- MINVE (R136): the extended Euclidean policy. -/
def execMinve (s : State) : Result :=
  s.kernelCommand [s.op[0]] [⟨decide ((euclid s.op[0].toNat s.kmod.toNat).1 ≠ 1), .notInvertible⟩]
    (invmod s.op[0].toNat s.kmod.toNat)

end Sys2Proof.Machine
end

