-- ==== Sys2Proof/Machine/Transform.lean ====
section
/-! DEFINITION. The root_of_unity_validator, the twiddle_rom and the bit_reversal_network: CTX_BUILD, ROOT_CHECK and
BITREV (R190 to R199). -/

namespace Sys2Proof.Machine

/-- The root the transform uses, `omega = root^2 mod m` (R195). -/
def omegaOf (m root : Nat) : Nat := mulmod root root m

/-- `omega_inv`, the square of `root_inv = root^(2n-1) mod m` (R195). -/
def omegaInvOf (m n root : Nat) : Nat := mulmod (powmod root (2 * n - 1) m) (powmod root (2 * n - 1) m) m

/-- The radix-2 stage scalars `w^(n / 2^s) mod m` for s = 1 … log2 n (R196). -/
def stageScalars (m n w : Nat) : List Word :=
  (List.range (Nat.log2 n)).map fun s => Word.ofNat (powmod w (n / 2 ^ (s + 1)) m)

/-- The radix-4 stage triples (W, W^2, W^3) with W = `w^(n / 4^t) mod m` for t = 1 … log4 n, where log2 n is even;
none where it is odd (R196). -/
def stageTriples (m n w : Nat) : List (Word × Word × Word) :=
  if Nat.log2 n % 2 = 0 then
    (List.range (Nat.log2 n / 2)).map fun t =>
      let x := powmod w (n / 4 ^ (t + 1)) m
      (Word.ofNat x, Word.ofNat (mulmod x x m), Word.ofNat (powmod x 3 m))
  else []

/-- The fourth root `w^(n/4) mod m`, where n ≥ 4 (R196). -/
def fourthRoot (m n w : Nat) : Option Word := if 4 ≤ n then some (Word.ofNat (powmod w (n / 4) m)) else none

/-- The twiddle table of a legal context (R196). -/
def twiddleTable (m n root : Nat) : TwiddleTable where
  twf2 := stageScalars m n (omegaOf m root)
  twi2 := stageScalars m n (omegaInvOf m n root)
  twf4 := stageTriples m n (omegaOf m root)
  twi4 := stageTriples m n (omegaInvOf m n root)
  jf := fourthRoot m n (omegaOf m root)
  ji := fourthRoot m n (omegaInvOf m n root)
  ninv := Word.ofNat (invmod n m)

/-- The transform context that CTX_BUILD holds for (m, n, root) (R191). -/
def transformContext (m n root : Word) : TransformContext where
  tcM := m
  tcN := n
  tcRoot := root
  twiddles := twiddleTable m.toNat n.toNat root.toNat

/-- CTX_BUILD (R191): m = KMOD, root = OP0, n = OP1. The old context is gone, whatever follows. -/
def execCtxBuild (s : State) : Result :=
  let m := s.kmod.toNat
  let root := s.op[0].toNat
  let n := s.op[1].toNat
  conclude
    [degenerateModulus s.kmod, ⟨badSize s.params.nMax n, .invalidSize⟩,
     ⟨decide ((m - 1) % (2 * n) ≠ 0), .invalidModulus⟩, notResidue s.kmod s.op[0],
     ⟨!validRoot m n root, .invalidRoot⟩]
    { s with tc := some (transformContext s.kmod s.op[1] s.op[0]) } { s with tc := none }

/-- ROOT_CHECK (R194): m = KMOD, root = OP0, n = OP1; an invalid root gives RS0 = 0 with status OK. -/
def execRootCheck (s : State) : Result :=
  conclude
    [degenerateModulus s.kmod, ⟨badSize s.params.nMax s.op[1].toNat, .invalidSize⟩, notResidue s.kmod s.op[0]]
    (s.setRs0 (Word.ofBool (validRoot s.kmod.toNat s.op[1].toNat s.op[0].toNat))) s

/-- `swap a[i], a[j]`. -/
def swapAt {α : Type} (a : List α) (i j : Nat) : List α :=
  match a[i]?, a[j]? with
  | some x, some y => (a.set i y).set j x
  | _, _ => a

/-- `brperm_n(a)` for n = 2^b: for i from 0 upward, with r = bitrev_b(i), swap a[i] and a[r] if i < r (R198). -/
def brperm {α : Type} (b : Nat) (a : List α) : List α :=
  (List.range a.length).foldl (fun x i => if i < bitrev b i then swapAt x i (bitrev b i) else x) a

/-- BITREV (R199): permutes the first BUF_LEN[D] words of BUF[D]; it checks no values and leaves BUF_DOM[D]. -/
def execBitrev (d : Buf) (s : State) : Result :=
  let len := (s.bufLen d).toNat
  conclude [⟨badSize s.params.nMax len, .invalidSize⟩]
    (s.writeBuf d (brperm (Nat.log2 len) (s.bufWords d len))) s

end Sys2Proof.Machine
end

