-- ==== Sys2Proof/Machine/Butterfly.lean ====
section
/-! DEFINITION. The butterflies BF2 and BF4, the commands BFLY2 and BFLY4, and the four in-place transforms
(R230 to R238). A transform works on the residues as natural numbers and stores them back as words. -/

namespace Sys2Proof.Machine

/-- The radix-2 butterfly BF2 (R230). -/
def bf2 (u v w m : Nat) : Nat × Nat :=
  let t := mulmod v w m
  (addmod u t m, submod u t m)

/-- BFLY2 (R231): u = OP0, v = OP1, w = OP2, m = KMOD; the results go to RS0 and RS1. -/
def execBfly2 (s : State) : Result :=
  let r := bf2 s.op[0].toNat s.op[1].toNat s.op[2].toNat s.kmod.toNat
  conclude (s.residueChecks [s.op[0], s.op[1], s.op[2]]) (s.setRs01 (Word.ofNat r.1) (Word.ofNat r.2)) s

/-- The radix-4 butterfly BF4 (R235). -/
def bf4 (a0 a1 a2 a3 w1 w2 w3 j m : Nat) : Nat × Nat × Nat × Nat :=
  let x1 := mulmod a1 w2 m
  let x2 := mulmod a2 w1 m
  let x3 := mulmod a3 w3 m
  let s0 := addmod a0 x1 m
  let d0 := submod a0 x1 m
  let s1 := addmod x2 x3 m
  let d1 := mulmod (submod x2 x3 m) j m
  (addmod s0 s1 m, addmod d0 d1 m, submod s0 s1 m, submod d0 d1 m)

/-- BFLY4 (R236): a0 … a3 = OP0 … OP3, w1 = OP4, w2 = OP5, w3 = OP6, J = OP7, m = KMOD. -/
def execBfly4 (s : State) : Result :=
  let r := bf4 s.op[0].toNat s.op[1].toNat s.op[2].toNat s.op[3].toNat s.op[4].toNat s.op[5].toNat s.op[6].toNat
    s.op[7].toNat s.kmod.toNat
  conclude (s.residueChecks s.op.toList)
    (s.setRsAll (Word.ofNat r.1) (Word.ofNat r.2.1) (Word.ofNat r.2.2.1) (Word.ofNat r.2.2.2)) s

/-- The inner loop of a radix-2 block (R233): the pairs (us[j], vs[j]) with the running twiddle `w`, advanced by `wLen`
after each pair (R197). Answers the sums and the differences. -/
def radix2Pairs (m wLen : Nat) : (w : Nat) → List Nat → List Nat → List Nat × List Nat
  | w, u :: us, v :: vs =>
    let r := bf2 u v w m
    let rest := radix2Pairs m wLen (mulmod w wLen m) us vs
    (r.1 :: rest.1, r.2 :: rest.2)
  | _, _, _ => ([], [])

/-- One block of length `2 * h` of a radix-2 stage: a[i+j] pairs with a[i+j+h], and `w` starts at 1 (R197, R233). -/
def radix2Block (m h wLen : Nat) (a : List Nat) : List Nat :=
  let r := radix2Pairs m wLen 1 (a.take h) (a.drop h)
  r.1 ++ r.2

/-- Applies `f` to each of the first `count` blocks of length `len`, in order (R233: "each block of len starting at
i"; the blocks do not touch each other, R77). -/
def mapBlocks (f : List Nat → List Nat) (len : Nat) : (count : Nat) → List Nat → List Nat
  | 0, a => a
  | k + 1, a => f (a.take len) ++ mapBlocks f len k (a.drop len)

/-- Radix-2 stage s + 1: blocks of length 2^(s+1) with the stage scalar `wLen` (R233). -/
def radix2Stage (m wLen s : Nat) (a : List Nat) : List Nat :=
  mapBlocks (radix2Block m (2 ^ s) wLen) (2 ^ (s + 1)) (a.length / 2 ^ (s + 1)) a

/-- The radix-2 network on 2^b residues: the bit reversal, then stages 1 … b with the stage scalars `tw`
(R233, R234). -/
def radix2Network (m b : Nat) (tw : List Word) (a : List Nat) : List Nat :=
  (List.range b).foldl (fun x s => radix2Stage m (tw.getD s 0).toNat s x) (brperm b a)

/-- The inner loop of a radix-4 block (R237): the quadruples (a0[j], a1[j], a2[j], a3[j]) with three running twiddles,
advanced by (W1, W2, W3) after each one (R197). -/
def radix4Quads (m bigW1 bigW2 bigW3 j : Nat) :
    (w1 w2 w3 : Nat) → List Nat → List Nat → List Nat → List Nat → List Nat × List Nat × List Nat × List Nat
  | w1, w2, w3, a0 :: as0, a1 :: as1, a2 :: as2, a3 :: as3 =>
    let r := bf4 a0 a1 a2 a3 w1 w2 w3 j m
    let rest := radix4Quads m bigW1 bigW2 bigW3 j (mulmod w1 bigW1 m) (mulmod w2 bigW2 m) (mulmod w3 bigW3 m)
      as0 as1 as2 as3
    (r.1 :: rest.1, r.2.1 :: rest.2.1, r.2.2.1 :: rest.2.2.1, r.2.2.2 :: rest.2.2.2)
  | _, _, _, _, _, _, _ => ([], [], [], [])

/-- One block of length `4 * q` of a radix-4 stage; the running twiddles start at 1 (R197, R237). -/
def radix4Block (m q j : Nat) (w : Word × Word × Word) (a : List Nat) : List Nat :=
  let r := radix4Quads m w.1.toNat w.2.1.toNat w.2.2.toNat j 1 1 1
    (a.take q) ((a.drop q).take q) ((a.drop (2 * q)).take q) (a.drop (3 * q))
  r.1 ++ r.2.1 ++ r.2.2.1 ++ r.2.2.2

/-- Radix-4 stage t + 1: blocks of length 4^(t+1) with the stage triple `w` (R237). -/
def radix4Stage (m j : Nat) (w : Word × Word × Word) (t : Nat) (a : List Nat) : List Nat :=
  mapBlocks (radix4Block m (4 ^ t) j w) (4 ^ (t + 1)) (a.length / 4 ^ (t + 1)) a

/-- The radix-4 network on 2^b residues, b even: the same base-2 bit reversal, then stages 1 … b/2 (R237, R238). -/
def radix4Network (m b : Nat) (tw : List (Word × Word × Word)) (j : Nat) (a : List Nat) : List Nat :=
  (List.range (b / 2)).foldl (fun x t => radix4Stage m j (tw.getD t (0, 0, 0)) t x) (brperm b a)

/-- The last step of an inverse: every coefficient times n^-1 (R234). -/
def scaleBy (m ninv : Nat) (a : List Nat) : List Nat := a.map fun x => mulmod x ninv m

/-- The fourth root of the table as a number. A network with n ≥ 4 reads it, and there it is present (R196); with n = 1
no stage runs and its value is used nowhere (R237). -/
def rootOrZero (j : Option Word) : Nat := (j.getD 0).toNat

/-- BUF[d][0 .. len-1] as numbers. -/
def State.bufNats (s : State) (d : Buf) (len : Nat) : List Nat := (s.bufWords d len).map BitVec.toNat

/-- The checks of R232 after NoContext, in its order. `radix4` marks a radix-4 command, `from` the tag it needs. -/
def transformChecks (s : State) (c : TransformContext) (d : Buf) (radix4 : Bool) (needs : Domain) : List Check :=
  [⟨radix4 && decide (Nat.log2 c.tcN.toNat % 2 = 1), .invalidSize⟩,
   ⟨decide (s.bufLen d ≠ c.tcN), .invalidSize⟩,
   ⟨decide (s.bufDom d ≠ needs), .domainMismatch⟩,
   ⟨(s.bufNats d c.tcN.toNat).any fun x => decide (c.tcM.toNat ≤ x), .operandRange⟩]

/-- A transform of BUF[D] in place (R232 to R238): the common checks, the network, the words stored back from word 0,
and the tag set. -/
def State.transform (s : State) (d : Buf) (radix4 : Bool) (needs gives : Domain)
    (network : TransformContext → List Nat → List Nat) : Result :=
  match s.tc with
  | none => s.raise .noContext
  | some c =>
    conclude (transformChecks s c d radix4 needs)
      ((s.writeBuf d ((network c (s.bufNats d c.tcN.toNat)).map Word.ofNat)).setBufDom d gives) s

/-- The network of NTT_FWD2 (R233). -/
def forward2 (c : TransformContext) (a : List Nat) : List Nat :=
  radix2Network c.tcM.toNat (Nat.log2 c.tcN.toNat) c.twiddles.twf2 a

/-- The network of NTT_INV2 (R234): inverse twiddles, then the scaling by NINV. -/
def inverse2 (c : TransformContext) (a : List Nat) : List Nat :=
  scaleBy c.tcM.toNat c.twiddles.ninv.toNat
    (radix2Network c.tcM.toNat (Nat.log2 c.tcN.toNat) c.twiddles.twi2 a)

/-- The network of NTT_FWD4 (R237). -/
def forward4 (c : TransformContext) (a : List Nat) : List Nat :=
  radix4Network c.tcM.toNat (Nat.log2 c.tcN.toNat) c.twiddles.twf4 (rootOrZero c.twiddles.jf) a

/-- The network of NTT_INV4 (R238). -/
def inverse4 (c : TransformContext) (a : List Nat) : List Nat :=
  scaleBy c.tcM.toNat c.twiddles.ninv.toNat
    (radix4Network c.tcM.toNat (Nat.log2 c.tcN.toNat) c.twiddles.twi4 (rootOrZero c.twiddles.ji) a)

/-- NTT_FWD2 (R233). -/
def execNttFwd2 (d : Buf) (s : State) : Result := s.transform d false .coefficient .evaluation forward2

/-- NTT_INV2 (R234). -/
def execNttInv2 (d : Buf) (s : State) : Result := s.transform d false .evaluation .coefficient inverse2

/-- NTT_FWD4 (R237). -/
def execNttFwd4 (d : Buf) (s : State) : Result := s.transform d true .coefficient .evaluation forward4

/-- NTT_INV4 (R238). -/
def execNttInv4 (d : Buf) (s : State) : Result := s.transform d true .evaluation .coefficient inverse4

end Sys2Proof.Machine
end

