-- ==== Sys2Proof/Machine/Control.lean ====
section
/-! DEFINITION. The control command (R304). -/

namespace Sys2Proof.Machine

/-- NOP: reads and writes nothing but CODE ← OK at completion (R304). -/
def execNop (s : State) : Result := s.complete

end Sys2Proof.Machine
end

