-- ==== Sys2Proof/Machine/Montgomery.lean ====
section
/-! DEFINITION. The Montgomery multiplier and the branch-free add and sub (R160 to R167). The widths of the
intermediates are those the rules state. -/

namespace Sys2Proof.Machine

/-- The constants of the Montgomery context for an odd modulus m (R160). -/
def montgomeryContext (m : Word) : MontgomeryContext where
  montM := m
  montR2 := Word.ofNat (2 ^ 128 % m.toNat)
  montMP := Word.ofNat ((2 ^ 64 - invmod m.toNat (2 ^ 64)) % 2 ^ 64)
  montRInv := Word.ofNat (invmod (2 ^ 64 % m.toNat) m.toNat)

/-- All ones or all zeros: the select mask of the branch-free steps (R162, R166, R167). -/
def selectMask (b : Bool) : Word := if b then 0xFFFFFFFFFFFFFFFF else 0

/-- The reduction `montmul(a, b)` (R162): a 128-bit product, a 64-bit low-word product, a 129-bit multiply-add, and one
conditional subtraction by mask. -/
def montmul (c : MontgomeryContext) (a b : Word) : Word :=
  let prod : BitVec 128 := a.setWidth 128 * b.setWidth 128
  let q : Word := prod.setWidth 64 * c.montMP
  let u : BitVec 129 := prod.setWidth 129 + q.setWidth 129 * c.montM.setWidth 129
  let t : BitVec 65 := u.extractLsb' 64 65
  let mask := selectMask (decide (c.montM.toNat ≤ t.toNat))
  (t - (c.montM &&& mask).setWidth 65).setWidth 64

/-- The branch-free sum of R166: a 65-bit sum, a 66-bit difference whose sign selects the subtraction. -/
def ctAddValue (a b m : Word) : Word :=
  let sum : BitVec 65 := a.setWidth 65 + b.setWidth 65
  let d : BitVec 66 := sum.setWidth 66 - m.setWidth 66
  let mask := selectMask (!d.msb)
  (sum - (m &&& mask).setWidth 65).setWidth 64

/-- The branch-free difference of R167: a 65-bit difference whose borrow selects the addition. -/
def ctSubValue (a b m : Word) : Word :=
  let d : BitVec 65 := a.setWidth 65 - b.setWidth 65
  let mask := selectMask d.msb
  (d + (m &&& mask).setWidth 65).setWidth 64

/-- A command over the Montgomery context: NoContext if there is none, then the residue operands `xs`, then
RS0 ← the result (R163 to R167). -/
def State.montCommand (s : State) (xs : List Word) (result : MontgomeryContext → Word) : Result :=
  match s.mont with
  | none => s.raise .noContext
  | some c => conclude (xs.map (notResidue c.montM)) (s.setRs0 (result c)) s

/-- MONT_INIT (R161): a degenerate or even modulus clears the context and raises InvalidModulus. -/
def execMontInit (s : State) : Result :=
  conclude [⟨decide (s.kmod.toNat < 2) || !s.kmod.getLsbD 0, .invalidModulus⟩]
    { s with mont := some (montgomeryContext s.kmod) } { s with mont := none }

/-- MONT_MUL (R163). -/
def execMontMul (s : State) : Result :=
  s.montCommand [s.op[0], s.op[1]] fun c => montmul c s.op[0] s.op[1]

/-- MONT_TO (R164): into the Montgomery domain. -/
def execMontTo (s : State) : Result := s.montCommand [s.op[0]] fun c => montmul c s.op[0] c.montR2

/-- MONT_FROM (R165): out of the Montgomery domain. -/
def execMontFrom (s : State) : Result := s.montCommand [s.op[0]] fun c => montmul c s.op[0] 1

/-- CT_ADD (R166). -/
def execCtAdd (s : State) : Result :=
  s.montCommand [s.op[0], s.op[1]] fun c => ctAddValue s.op[0] s.op[1] c.montM

/-- CT_SUB (R167). -/
def execCtSub (s : State) : Result :=
  s.montCommand [s.op[0], s.op[1]] fun c => ctSubValue s.op[0] s.op[1] c.montM

end Sys2Proof.Machine
end

