-- ==== Sys2Proof/Machine/Pointwise.lean ====
section
/-! DEFINITION. The pointwise polynomial commands PADD, PSUB, PMUL (R300 to R303). -/

namespace Sys2Proof.Machine

/-- Some word of BUF[d][0 .. len-1] is not a residue of m (R300). -/
def State.badWords (s : State) (d : Buf) (len : Nat) (m : Nat) : Bool :=
  (s.bufWords d len).any fun x => decide (m ≤ x.toNat)

/-- The common checks, in their order (R300). -/
def State.pointwiseChecks (s : State) (d src : Buf) : List Check :=
  [degenerateModulus s.kmod,
   ⟨decide (s.params.nMax < (s.bufLen d).toNat) || decide (s.params.nMax < (s.bufLen src).toNat), .invalidSize⟩,
   ⟨decide (s.bufLen d ≠ s.bufLen src), .sizeMismatch⟩,
   ⟨decide (s.bufDom d ≠ s.bufDom src), .domainMismatch⟩,
   ⟨s.badWords d (s.bufLen d).toNat s.kmod.toNat || s.badWords src (s.bufLen d).toNat s.kmod.toNat, .operandRange⟩]

/-- A pointwise command: BUF[D][i] ← f(BUF[D][i], BUF[S][i], m) for i < len; the tag is not changed (R300). -/
def State.pointwise (s : State) (f : Nat → Nat → Nat → Nat) (d src : Buf) : Result :=
  conclude (s.pointwiseChecks d src)
    (s.writeBuf d (List.zipWith (fun x y => Word.ofNat (f x.toNat y.toNat s.kmod.toNat))
      (s.bufWords d (s.bufLen d).toNat) (s.bufWords src (s.bufLen d).toNat))) s

/-- PADD (R301). -/
def execPadd (d src : Buf) (s : State) : Result := s.pointwise addmod d src

/-- PSUB (R302). -/
def execPsub (d src : Buf) (s : State) : Result := s.pointwise submod d src

/-- PMUL (R303). -/
def execPmul (d src : Buf) (s : State) : Result := s.pointwise mulmod d src

end Sys2Proof.Machine
end

