-- ==== Sys2Proof/Machine/Rns.lean ====
section
/-! DEFINITION. The RNS / CRT converter: RNS_INIT, TO_RNS, FROM_RNS, RADD, RMUL (R270 to R275). -/

namespace Sys2Proof.Machine

/-- The proposed moduli BASE_IN[0 .. k-1] with k = BASE_K_IN (R271). -/
def State.proposedModuli (s : State) : List Nat := (s.baseIn.toList.map BitVec.toNat).take s.baseKIn.toNat

/-- The product of the moduli, exact (R271). -/
def moduliProduct (ms : List Nat) : Nat := ms.foldl (· * ·) 1

/-- An array with the k numbers of a list in its first slots, and 0 in every other slot (R34). -/
def slotsOf (xs : List Nat) : Vector Word 16 := Vector.ofFn fun i => Word.ofNat (xs.getD i.val 0)

/-- The base that RNS_INIT holds for the moduli ms (R271): M, Mi = M div mi, and the inverse of Mi mod mi. -/
def rnsBase (ms : List Nat) : RnsBase where
  rnsK := Word.ofNat ms.length
  rnsMod := slotsOf ms
  rnsMProd := Word.ofNat (moduliProduct ms)
  rnsMi := slotsOf (ms.map fun m => moduliProduct ms / m)
  rnsMiInv := slotsOf (ms.map fun m => invmod (moduliProduct ms / m % m) m)

/-- RNS_INIT (R271). The old base is gone, whatever follows. -/
def execRnsInit (s : State) : Result :=
  let ms := s.proposedModuli
  let prod := moduliProduct ms
  conclude
    [⟨decide (s.baseKIn.toNat = 0) || decide (s.params.kMax < s.baseKIn.toNat), .invalidSize⟩,
     ⟨ms.any fun m => decide (m < 2), .invalidModulus⟩,
     ⟨decide (2 ^ 64 ≤ prod), .invalidModulus⟩,
     ⟨ms.any fun m => decide (Nat.gcd (prod / m % m) m ≠ 1), .notInvertible⟩]
    { s with rns := some (rnsBase ms) } { s with rns := none }

/-- Slot i of RV[v] is not a residue of its modulus, for some i < k (R273 to R275). -/
def badResidue (r : RnsBase) (v : Vector Word 16) : Bool :=
  (List.range r.rnsK.toNat).any fun i => decide ((slot r.rnsMod i).toNat ≤ (slot v i).toNat)

/-- TO_RNS (R272): RV[D][i] ← OP0 mod mi for i < k. -/
def execToRns (d : Vec) (s : State) : Result :=
  match s.rns with
  | none => s.raise .noContext
  | some r =>
    (s.setRv d (fillSlots r.rnsK.toNat
      (fun i => Word.ofNat (s.op[0].toNat % (slot r.rnsMod i).toNat)) (s.rv d))).complete

/-- One term of FROM_RNS: Mi * y with y = residue * Mi^-1 mod mi (R273). -/
def crtTerm (r : RnsBase) (v : Vector Word 16) (i : Nat) : Nat :=
  (slot r.rnsMi i).toNat * mulmod (slot v i).toNat (slot r.rnsMiInv i).toNat (slot r.rnsMod i).toNat

/-- The 128-bit accumulator of FROM_RNS: the sum of the k terms, below 2^68 (R273). -/
def crtSum (r : RnsBase) (v : Vector Word 16) : Nat :=
  (List.range r.rnsK.toNat).foldl (fun acc i => acc + crtTerm r v i) 0

/-- FROM_RNS (R273): RS0 ← the sum mod M. -/
def execFromRns (d : Vec) (s : State) : Result :=
  match s.rns with
  | none => s.raise .noContext
  | some r =>
    conclude [⟨badResidue r (s.rv d), .operandRange⟩]
      (s.setRs0 (Word.ofNat (crtSum r (s.rv d) % r.rnsMProd.toNat))) s

/-- A slotwise command: all checks before any write, then RV[D][i] ← f of the two slots and mi alone, for i < k
(R274, R275). -/
def State.slotwise (s : State) (f : Nat → Nat → Nat → Nat) (d src : Vec) : Result :=
  match s.rns with
  | none => s.raise .noContext
  | some r =>
    conclude [⟨badResidue r (s.rv d) || badResidue r (s.rv src), .operandRange⟩]
      (s.setRv d (fillSlots r.rnsK.toNat
        (fun i => Word.ofNat (f (slot (s.rv d) i).toNat (slot (s.rv src) i).toNat (slot r.rnsMod i).toNat))
        (s.rv d))) s

/-- RADD (R274). -/
def execRadd (d src : Vec) (s : State) : Result := s.slotwise addmod d src

/-- RMUL (R275). -/
def execRmul (d src : Vec) (s : State) : Result := s.slotwise mulmod d src

end Sys2Proof.Machine
end

