-- ==== Sys2Proof/Machine/Dispatch.lean ====
section
/-! DEFINITION. The complete step of each command (R360): one arm for each row of the opcode map (R105), one direct call
of the command's meaning. -/

namespace Sys2Proof.Machine

def exec (i : Instr) (s : State) : Host.Outcome State Fault Refusal :=
  match i with
  | .nop => Sys2Proof.Machine.execNop s
  | .madd => Sys2Proof.Machine.execMadd s
  | .msub => Sys2Proof.Machine.execMsub s
  | .mmul => Sys2Proof.Machine.execMmul s
  | .mpow => Sys2Proof.Machine.execMpow s
  | .minvf => Sys2Proof.Machine.execMinvf s
  | .minve => Sys2Proof.Machine.execMinve s
  | .montInit => Sys2Proof.Machine.execMontInit s
  | .montMul => Sys2Proof.Machine.execMontMul s
  | .montTo => Sys2Proof.Machine.execMontTo s
  | .montFrom => Sys2Proof.Machine.execMontFrom s
  | .ctAdd => Sys2Proof.Machine.execCtAdd s
  | .ctSub => Sys2Proof.Machine.execCtSub s
  | .ctxBuild => Sys2Proof.Machine.execCtxBuild s
  | .rootCheck => Sys2Proof.Machine.execRootCheck s
  | .bitrev d => Sys2Proof.Machine.execBitrev d s
  | .bfly2 => Sys2Proof.Machine.execBfly2 s
  | .bfly4 => Sys2Proof.Machine.execBfly4 s
  | .nttFwd2 d => Sys2Proof.Machine.execNttFwd2 d s
  | .nttInv2 d => Sys2Proof.Machine.execNttInv2 d s
  | .nttFwd4 d => Sys2Proof.Machine.execNttFwd4 d s
  | .nttInv4 d => Sys2Proof.Machine.execNttInv4 d s
  | .rnsInit => Sys2Proof.Machine.execRnsInit s
  | .toRns d => Sys2Proof.Machine.execToRns d s
  | .fromRns d => Sys2Proof.Machine.execFromRns d s
  | .radd d src => Sys2Proof.Machine.execRadd d src s
  | .rmul d src => Sys2Proof.Machine.execRmul d src s
  | .padd d src => Sys2Proof.Machine.execPadd d src s
  | .psub d src => Sys2Proof.Machine.execPsub d src s
  | .pmul d src => Sys2Proof.Machine.execPmul d src s

end Sys2Proof.Machine
end

