-- ==== Sys2Proof/Decode.lean ====
section
/-! DEFINITION. Decoding a value written to CMD (R104 to R107), total on all 64-bit values and rejecting by name, and
after it the encoder of R106. -/

namespace Sys2Proof

/-- Why a value written to CMD is IllegalCommand (R107). The unit reports one code for all of them. -/
inductive Illegal where
  /-- `CMD[63:32]` is not zero (R104). -/
  | upperHalf
  /-- RSVD, bits 31:10, is not zero (R107). -/
  | reservedBits
  /-- OPC is not in the opcode map (R107). -/
  | opcode
  /-- D = 1 or S = 1 for a command that does not use that field (R106, R107). -/
  | unusedField
  deriving DecidableEq, Repr

/-- The buffer a selector bit names (R102). -/
def Buf.ofBit : Bool → Buf
  | false => .b0
  | true => .b1

/-- The residue vector a selector bit names (R102). -/
def Vec.ofBit : Bool → Vec
  | false => .v0
  | true => .v1

/-- The selector bit of a buffer (R101). -/
def Buf.bit : Buf → Bool
  | .b0 => false
  | .b1 => true

/-- The selector bit of a residue vector (R101). -/
def Vec.bit : Vec → Bool
  | .v0 => false
  | .v1 => true

/-- A command without fields: D and S must be 0 (R106). -/
def plainCommand (i : Instr) (d s : Bool) : Except Illegal Instr :=
  if d || s then .error .unusedField else .ok i

/-- A command with field D alone: S must be 0 (R106). -/
def dCommand (i : Instr) (s : Bool) : Except Illegal Instr :=
  if s then .error .unusedField else .ok i

/-- The opcode map (R105), with the selector bits D and S. -/
def decodeOpcode (opc : Nat) (d s : Bool) : Except Illegal Instr :=
  match opc with
  | 0x00 => plainCommand .nop d s
  | 0x10 => plainCommand .madd d s
  | 0x11 => plainCommand .msub d s
  | 0x12 => plainCommand .mmul d s
  | 0x13 => plainCommand .mpow d s
  | 0x14 => plainCommand .minvf d s
  | 0x15 => plainCommand .minve d s
  | 0x20 => plainCommand .montInit d s
  | 0x21 => plainCommand .montMul d s
  | 0x22 => plainCommand .montTo d s
  | 0x23 => plainCommand .montFrom d s
  | 0x24 => plainCommand .ctAdd d s
  | 0x25 => plainCommand .ctSub d s
  | 0x30 => plainCommand .ctxBuild d s
  | 0x31 => plainCommand .rootCheck d s
  | 0x32 => dCommand (.bitrev (.ofBit d)) s
  | 0x33 => plainCommand .bfly2 d s
  | 0x34 => plainCommand .bfly4 d s
  | 0x38 => dCommand (.nttFwd2 (.ofBit d)) s
  | 0x39 => dCommand (.nttInv2 (.ofBit d)) s
  | 0x3A => dCommand (.nttFwd4 (.ofBit d)) s
  | 0x3B => dCommand (.nttInv4 (.ofBit d)) s
  | 0x40 => plainCommand .rnsInit d s
  | 0x41 => dCommand (.toRns (.ofBit d)) s
  | 0x42 => dCommand (.fromRns (.ofBit d)) s
  | 0x43 => .ok (.radd (.ofBit d) (.ofBit s))
  | 0x44 => .ok (.rmul (.ofBit d) (.ofBit s))
  | 0x50 => .ok (.padd (.ofBit d) (.ofBit s))
  | 0x51 => .ok (.psub (.ofBit d) (.ofBit s))
  | 0x52 => .ok (.pmul (.ofBit d) (.ofBit s))
  | _ => .error .opcode

/-- Decodes the value written to CMD: the upper half first (R104), then RSVD, then OPC and the fields (R105 to R107). -/
def decode (v : Word) : Except Illegal Instr :=
  if v.extractLsb' 32 32 ≠ 0 then .error .upperHalf
  else if v.extractLsb' 10 22 ≠ 0 then .error .reservedBits
  else decodeOpcode (v.extractLsb' 0 8).toNat (v.getLsbD 8) (v.getLsbD 9)

/-- The OPC value of a command (R105). -/
def Instr.opcode : Instr → Nat
  | .nop => 0x00
  | .madd => 0x10
  | .msub => 0x11
  | .mmul => 0x12
  | .mpow => 0x13
  | .minvf => 0x14
  | .minve => 0x15
  | .montInit => 0x20
  | .montMul => 0x21
  | .montTo => 0x22
  | .montFrom => 0x23
  | .ctAdd => 0x24
  | .ctSub => 0x25
  | .ctxBuild => 0x30
  | .rootCheck => 0x31
  | .bitrev _ => 0x32
  | .bfly2 => 0x33
  | .bfly4 => 0x34
  | .nttFwd2 _ => 0x38
  | .nttInv2 _ => 0x39
  | .nttFwd4 _ => 0x3A
  | .nttInv4 _ => 0x3B
  | .rnsInit => 0x40
  | .toRns _ => 0x41
  | .fromRns _ => 0x42
  | .radd _ _ => 0x43
  | .rmul _ _ => 0x44
  | .padd _ _ => 0x50
  | .psub _ _ => 0x51
  | .pmul _ _ => 0x52

/-- The D bit of a command: 0 where it does not use the field (R106). -/
def Instr.dBit : Instr → Bool
  | .bitrev d | .nttFwd2 d | .nttInv2 d | .nttFwd4 d | .nttInv4 d => d.bit
  | .toRns d | .fromRns d => d.bit
  | .radd d _ | .rmul d _ => d.bit
  | .padd d _ | .psub d _ | .pmul d _ => d.bit
  | _ => false

/-- The S bit of a command: 0 where it does not use the field (R106). -/
def Instr.sBit : Instr → Bool
  | .radd _ e | .rmul _ e => e.bit
  | .padd _ e | .psub _ e | .pmul _ e => e.bit
  | _ => false

/-- `encode(OPC, d, s) = OPC | (d << 8) | (s << 9)` (R106). -/
def encode (i : Instr) : CommandWord :=
  BitVec.ofNat 32 i.opcode ||| ((BitVec.ofBool i.dBit).setWidth 32 <<< 8) ||| ((BitVec.ofBool i.sBit).setWidth 32 <<< 9)

/-- The 64-bit value that a host writes to CMD for a command: the word, with a zero upper half (R100, R104). -/
def commandValue (i : Instr) : Word := (encode i).setWidth 64

/-- The mask of a command's row (R106). -/
def Instr.maskWord (i : Instr) : CommandWord :=
  match i.fields with
  | .none => 0xFFFFFFFF
  | .d => 0xFFFFFEFF
  | .ds => 0xFFFFFCFF

/-- The match value of a command's row (R106). -/
def Instr.matchWord (i : Instr) : CommandWord := BitVec.ofNat 32 i.opcode

/-- The value on the bus when `nbits` bits `w` of a table row are written to CMD: the 64-bit word with byte lane `k`
carrying bits `8k+7 : 8k` (R73), every bit above `nbits` zero. -/
def tableWordValue (nbits w : Nat) : Word := BitVec.ofNat 64 (w % 2 ^ nbits)

/-- The instruction the decoder reads from a table row's bits. -/
def decodeTableWord (nbits w : Nat) : Option Instr :=
  match decode (tableWordValue nbits w) with
  | .ok i => some i
  | .error _ => none

end Sys2Proof
end

