-- ==== Sys2Proof/Machine/HostPort.lean ====
section
/-! DEFINITION. The register window as the host sees it: the address map (R46, R72), reads and writes (R70 to R75), the
BUSY lockout (R362), and the soft reset (R351). -/

namespace Sys2Proof.Machine

/-- What stands at an 8-byte slot of the window (R46, R72). -/
inductive Slot where
  | caps | ctrl | cmd | status | kmod
  | op (i : Nat) | rs (i : Nat)
  | tcM | tcN | tcRoot
  | montM | montR2 | montMP | montRInv
  | rnsK | rnsMProd
  | bufLen (d : Buf) | bufDom (d : Buf)
  | baseIn (i : Nat) | baseKIn
  | rv (d : Vec) (i : Nat)
  | rnsMod (i : Nat) | rnsMi (i : Nat) | rnsMiInv (i : Nat)
  | bufWord (d : Buf) (i : Nat)
  | unmapped
  deriving DecidableEq, Repr

/-- The offset lies among `count` words from `base`. -/
def inArray (base count off : Nat) : Bool := decide (base ≤ off) && decide (off < base + 8 * count)

/-- The slots that belong to an array of words: the register arrays and the buffers (R46, R72). -/
def arraySlot (p : Params) (off : Nat) : Slot :=
  if inArray 0x040 8 off then .op ((off - 0x040) / 8)
  else if inArray 0x080 4 off then .rs ((off - 0x080) / 8)
  else if inArray 0x200 p.kMax off then .baseIn ((off - 0x200) / 8)
  else if inArray 0x300 p.kMax off then .rv .v0 ((off - 0x300) / 8)
  else if inArray 0x380 p.kMax off then .rv .v1 ((off - 0x380) / 8)
  else if inArray 0x400 p.kMax off then .rnsMod ((off - 0x400) / 8)
  else if inArray 0x480 p.kMax off then .rnsMi ((off - 0x480) / 8)
  else if inArray 0x500 p.kMax off then .rnsMiInv ((off - 0x500) / 8)
  else if inArray (bufBase .b0) p.nMax off then .bufWord .b0 ((off - bufBase .b0) / 8)
  else if inArray (bufBase .b1) p.nMax off then .bufWord .b1 ((off - bufBase .b1) / 8)
  else .unmapped

/-- The address map: what stands at a window offset (R46, R72). -/
def slotAt (p : Params) (off : Nat) : Slot :=
  match off with
  | 0x000 => .caps
  | 0x008 => .ctrl
  | 0x010 => .cmd
  | 0x018 => .status
  | 0x020 => .kmod
  | 0x0A0 => .tcM
  | 0x0A8 => .tcN
  | 0x0B0 => .tcRoot
  | 0x0B8 => .montM
  | 0x0C0 => .montR2
  | 0x0C8 => .montMP
  | 0x0D0 => .montRInv
  | 0x0D8 => .rnsK
  | 0x0E0 => .rnsMProd
  | 0x100 => .bufLen .b0
  | 0x108 => .bufLen .b1
  | 0x110 => .bufDom .b0
  | 0x118 => .bufDom .b1
  | 0x280 => .baseKIn
  | _ => arraySlot p off

/-- A domain tag as BUF_DOM reads it: bit 0 (R41). -/
def Domain.word : Domain → Word
  | .coefficient => 0
  | .evaluation => 1

/-- The domain tag that a write of `v` to BUF_DOM stores: bit 0 alone (R41). -/
def Domain.ofWord (v : Word) : Domain := if v.getLsbD 0 then .evaluation else .coefficient

/-- The value a read of a slot returns while BUSY = 0 (R46, R72); the registers of a context that is not held read as 0
(R31, R33, R34). -/
def State.readSlot (s : State) : Slot → Word
  | .caps => capsWord s.params
  | .ctrl => 0
  | .cmd => 0
  | .status => s.statusWord
  | .kmod => s.kmod
  | .op i => slot s.op i
  | .rs i => slot s.rs i
  | .tcM => (s.tc.map (·.tcM)).getD 0
  | .tcN => (s.tc.map (·.tcN)).getD 0
  | .tcRoot => (s.tc.map (·.tcRoot)).getD 0
  | .montM => (s.mont.map (·.montM)).getD 0
  | .montR2 => (s.mont.map (·.montR2)).getD 0
  | .montMP => (s.mont.map (·.montMP)).getD 0
  | .montRInv => (s.mont.map (·.montRInv)).getD 0
  | .rnsK => (s.rns.map (·.rnsK)).getD 0
  | .rnsMProd => (s.rns.map (·.rnsMProd)).getD 0
  | .bufLen d => s.bufLen d
  | .bufDom d => (s.bufDom d).word
  | .baseIn i => slot s.baseIn i
  | .baseKIn => s.baseKIn
  | .rv d i => slot (s.rv d) i
  | .rnsMod i => (s.rns.map fun r => slot r.rnsMod i).getD 0
  | .rnsMi i => (s.rns.map fun r => slot r.rnsMi i).getD 0
  | .rnsMiInv i => (s.rns.map fun r => slot r.rnsMiInv i).getD 0
  | .bufWord d i => s.bufWord d i
  | .unmapped => 0

/-- BUF_LEN[d] ← v (R41). -/
def State.setBufLen (s : State) (d : Buf) (v : Word) : State :=
  match d with
  | .b0 => { s with bufLen0 := v }
  | .b1 => { s with bufLen1 := v }

/-- A write to STATUS: bit 9 clears OVR, nothing else happens (R26). -/
def State.writeStatus (s : State) (v : Word) : State := { s with ovr := s.ovr && !v.getLsbD 9 }

/-- The buffer that a command writes, for those R351 lists. -/
def destBuf : Instr → Option Buf
  | .bitrev d | .nttFwd2 d | .nttInv2 d | .nttFwd4 d | .nttInv4 d => some d
  | .padd d _ | .psub d _ | .pmul d _ => some d
  | .nop | .madd | .msub | .mmul | .mpow | .minvf | .minve => none
  | .montInit | .montMul | .montTo | .montFrom | .ctAdd | .ctSub => none
  | .ctxBuild | .rootCheck | .bfly2 | .bfly4 | .rnsInit => none
  | .toRns _ | .fromRns _ | .radd _ _ | .rmul _ _ => none

/-- The buffer that the command in progress writes, if there is a command and it writes one. -/
def State.pendingBuf (s : State) : Option Buf :=
  match s.latch with
  | none => none
  | some v =>
    match decode v with
    | .ok i => destBuf i
    | .error _ => none

/-- How many words of `BUF[d]` an abandoned command makes unspecified: min(BUF_LEN[d], NMAX) (R351). -/
def State.abandonedLen (s : State) (d : Buf) : Nat := min (s.bufLen d).toNat s.params.nMax

/-- Abandons the command in progress: each word it may already have written becomes a free draw (R351). -/
def State.abandon (s : State) : State :=
  match s.pendingBuf with
  | none => s
  | some d =>
    { s.writeBuf d ((List.range (s.abandonedLen d)).map fun i => Config.freeWord (s.draws + i)) with
      draws := s.draws + s.abandonedLen d }

/-- The soft reset (R351): abandons the command in progress, then sets every register to its soft reset value (R46);
the buffers are otherwise unchanged. The model's own fields stay (A7). -/
def State.softReset (s : State) : State :=
  let t := s.abandon
  { State.powerOn s.params with
    mem := t.mem, draws := t.draws, ramDraw := s.ramDraw, readData := s.readData, agenda := s.agenda }

/-- A write to CTRL: bit 0 = 1 is a soft reset, bit 0 = 0 has no effect (R28, R351). -/
def State.writeCtrl (s : State) (v : Word) : State := if v.getLsbD 0 then s.softReset else s

/-- A write to a slot while BUSY = 0 (R46, R72, R75); a write to CMD issues a command (R100, R360), a write to a
read-only or unmapped slot has no effect. -/
def State.writeSlot (s : State) (v : Word) : Slot → State
  | .ctrl => s.writeCtrl v
  | .cmd => { s with latch := some v }
  | .status => s.writeStatus v
  | .kmod => { s with kmod := v }
  | .op i => { s with op := s.op.setIfInBounds i v }
  | .bufLen d => s.setBufLen d v
  | .bufDom d => s.setBufDom d (Domain.ofWord v)
  | .baseIn i => { s with baseIn := s.baseIn.setIfInBounds i v }
  | .baseKIn => { s with baseKIn := v }
  | .rv d i => s.setRv d ((s.rv d).setIfInBounds i v)
  | .bufWord d i => { s with mem := s.mem.writeWord (bufBase d + 8 * i) v }
  | .caps | .rs _ | .tcM | .tcN | .tcRoot | .montM | .montR2 | .montMP | .montRInv => s
  | .rnsK | .rnsMProd | .rnsMod _ | .rnsMi _ | .rnsMiInv _ | .unmapped => s

/-- A write to a slot while BUSY = 1 (R362): STATUS and CTRL act as at any time, every other write is dropped and sets
OVR. -/
def State.writeBusy (s : State) (v : Word) : Slot → State
  | .ctrl => s.writeCtrl v
  | .status => s.writeStatus v
  | _ => { s with ovr := true }

/-- A host read of a slot: its value in `readData`. While BUSY = 1 only STATUS and CAPS answer, any other read is a free
draw (R362). No other state changes (R75). -/
def State.hostRead (s : State) (x : Slot) : State :=
  if s.busy && x != .status && x != .caps then
    { s with readData := Config.freeWord s.draws, draws := s.draws + 1 }
  else { s with readData := s.readSlot x }

/-- A host write to a slot (R46, R362). -/
def State.hostWrite (s : State) (x : Slot) (v : Word) : State :=
  if s.busy then s.writeBusy v x else s.writeSlot v x

/-- A host access: outside the window it is no access of the unit (R70), in the window it must be 64 bits wide and
aligned (R71). -/
def hostAccess (a : Access) (s : State) : Result :=
  if !a.inWindow s.params then .fault .outsideWindow
  else if !a.aligned64 s.params then .refused .unadmittedAccess
  else
    let x := slotAt s.params (a.addr - s.params.unitBase)
    match a with
    | .read _ _ => .next (s.hostRead x)
    | .write _ _ v => .next (s.hostWrite x v)

/-- The power comes on (R350): the power-on state of the same unit, with fresh RAM contents (A8). -/
def State.powerCycle (s : State) : State :=
  { State.powerOn s.params with
    ramDraw := s.ramDraw + 1, draws := s.draws, readData := s.readData, agenda := s.agenda }

end Sys2Proof.Machine
end

