-- ==== Sys2Proof/Machine/Sequencer.lean ====
section
/-! DEFINITION. What one turn of a run does: a host access, the unit's complete step (R360), or power-on (R350). -/

namespace Sys2Proof.Machine

/-- Runs the command in the latch on the state as it stands (R360): a value that is not a legal command ends with
IllegalCommand and no other effect (R107). -/
def runCommand (v : Word) (s : State) : Result :=
  match decode v with
  | .error _ => s.raise .illegalCommand
  | .ok i => exec i s

/-- The unit's turn: the complete step while BUSY = 1; with no command in progress the unit waits (R332, R360). -/
def unitTurn (s : State) : Result :=
  match s.latch with
  | none => .next s
  | some v => runCommand v s

/-- One turn. -/
def takeTurn (t : Turn) (s : State) : Result :=
  match t with
  | .host a => hostAccess a s
  | .unit => unitTurn s
  | .powerOn => .next s.powerCycle

/-- The next turn of the agenda; once nothing is left on it, the unit's (so a command in progress always completes,
R361). -/
def nextTurn (s : State) : Result :=
  match s.agenda with
  | [] => unitTurn s
  | t :: rest => takeTurn t { s with agenda := rest }

/-- Issues the command value of `nbits` bits `w` and gives the unit the next turn: what a CMD write does to the latch
(R100), so that the very next step is that command's complete step. -/
def placeCommand (s : State) (nbits w : Nat) : State :=
  { s with latch := some (tableWordValue nbits w), agenda := .unit :: s.agenda }

end Sys2Proof.Machine
end

