-- ==== Sys2Proof/Safety.lean ====
section
/-! DEFINITION. The terms that claims use: how a command ends, the legal contexts (R31, R33, R34), and the invariants of
the machine. -/

namespace Sys2Proof.Safety

open Sys2Proof.Machine

/-- `s` with a command ended in it: CODE ← c and BUSY ← 0 (R360). -/
def ended (s : State) (c : Code) : State := { s with code := c, latch := none }

/-- n is a legal size: a power of two with 1 ≤ n ≤ NMAX (R190). -/
def legalSize (p : Params) (n : Nat) : Prop := (∃ k, n = 2 ^ k) ∧ n ≤ p.nMax

/-- The window offset `a` is a byte of BUF[d][0 .. len-1]. -/
def inBuf (d : Buf) (len a : Nat) : Prop := bufBase d ≤ a ∧ a < bufBase d + 8 * len

/-- `t` is `s` after a command that stored in BUF[d][0 .. len-1] and set its tag: every other byte reads as before, and
nothing else but CODE and BUSY has changed. -/
def storedIn (s t : State) (d : Buf) (len : Nat) (tag : Domain) : Prop :=
  t = ended (({ s with mem := t.mem } : State).setBufDom d tag) .ok ∧ ∀ a, ¬ inBuf d len a → t.byteAt a = s.byteAt a

/-- A legal transform context (R31): the modulus odd and at least 3 with (m - 1) mod 2n = 0, a legal size, a validated
root (R192: root^n = m - 1, root^2n = 1, no smaller power 1), and the twiddle table of R196. -/
structure TransformLegal (p : Params) (c : TransformContext) : Prop where
  odd : c.tcM.toNat % 2 = 1
  three_le : 3 ≤ c.tcM.toNat
  congruent : (c.tcM.toNat - 1) % (2 * c.tcN.toNat) = 0
  size : legalSize p c.tcN.toNat
  root_lt : c.tcRoot.toNat < c.tcM.toNat
  half : c.tcRoot.toNat ^ c.tcN.toNat % c.tcM.toNat = c.tcM.toNat - 1
  order : c.tcRoot.toNat ^ (2 * c.tcN.toNat) % c.tcM.toNat = 1
  least : ∀ k, 0 < k → k < 2 * c.tcN.toNat → c.tcRoot.toNat ^ k % c.tcM.toNat ≠ 1
  table : c.twiddles = twiddleTable c.tcM.toNat c.tcN.toNat c.tcRoot.toNat

/-- A legal Montgomery context (R33, R160): an odd modulus m ≥ 3, R^2 mod m, -m^-1 mod 2^64 and R^-1 mod m. -/
structure MontgomeryLegal (c : MontgomeryContext) : Prop where
  odd : c.montM.toNat % 2 = 1
  three_le : 3 ≤ c.montM.toNat
  r2 : c.montR2.toNat = 2 ^ 128 % c.montM.toNat
  mp : (c.montMP.toNat * c.montM.toNat + 1) % 2 ^ 64 = 0
  rInv_lt : c.montRInv.toNat < c.montM.toNat
  rInv : 2 ^ 64 * c.montRInv.toNat % c.montM.toNat = 1

/-- A legal RNS base (R34): 1 ≤ k ≤ KMAX moduli of at least 2, pairwise coprime, their product M below 2^64, Mi = M / mi,
the inverse of Mi modulo mi, and 0 in every slot at i ≥ k. -/
structure RnsLegal (p : Params) (r : RnsBase) : Prop where
  one_le : 1 ≤ r.rnsK.toNat
  le_kMax : r.rnsK.toNat ≤ p.kMax
  two_le : ∀ i < r.rnsK.toNat, 2 ≤ (slot r.rnsMod i).toNat
  coprime : ∀ i < r.rnsK.toNat, ∀ j < r.rnsK.toNat, i ≠ j → Nat.gcd (slot r.rnsMod i).toNat (slot r.rnsMod j).toNat = 1
  product : r.rnsMProd.toNat = ∏ i ∈ Finset.range r.rnsK.toNat, (slot r.rnsMod i).toNat
  mi : ∀ i < r.rnsK.toNat, (slot r.rnsMi i).toNat = r.rnsMProd.toNat / (slot r.rnsMod i).toNat
  miInv_lt : ∀ i < r.rnsK.toNat, (slot r.rnsMiInv i).toNat < (slot r.rnsMod i).toNat
  miInv : ∀ i < r.rnsK.toNat,
    (slot r.rnsMi i).toNat * (slot r.rnsMiInv i).toNat % (slot r.rnsMod i).toNat = 1
  spare : ∀ i, r.rnsK.toNat ≤ i → slot r.rnsMod i = 0 ∧ slot r.rnsMi i = 0 ∧ slot r.rnsMiInv i = 0

/-- Invariant: legal parameters (R7), and every context that is held is legal (R31, R33, R34). -/
def contextsLegal (s : State) : Prop :=
  s.params.wellFormed = true ∧ (∀ c, s.tc = some c → TransformLegal s.params c) ∧
    (∀ c, s.mont = some c → MontgomeryLegal c) ∧ ∀ r, s.rns = some r → RnsLegal s.params r

/-- Invariant: the memory is in canonical form and lists only bytes of the two buffers (R40, R72). -/
def memoryCanonical (s : State) : Prop := s.mem.wf ∧ ∀ c ∈ s.mem, ∃ d, inBuf d s.params.nMax c.1

/-- Invariant: the slots at i ≥ KMAX of the writable register arrays, which do not exist (R72), hold 0. -/
def spareSlotsZero (s : State) : Prop :=
  ∀ i, s.params.kMax ≤ i → slot s.baseIn i = 0 ∧ slot s.rv0 i = 0 ∧ slot s.rv1 i = 0

/-- The registers and words that the host can read and write whole (R46: access RW, but for BUF_DOM's one bit). -/
def readWrite : Slot → Bool
  | .kmod | .op _ | .bufLen _ | .baseIn _ | .baseKIn | .rv _ _ | .bufWord _ _ => true
  | _ => false

/-- What a host write never changes while idle: the read-only registers and the unmapped slots (R46, R72). -/
def readOnly : Slot → Bool
  | .caps | .rs _ | .tcM | .tcN | .tcRoot | .montM | .montR2 | .montMP | .montRInv | .rnsK | .rnsMProd => true
  | .rnsMod _ | .rnsMi _ | .rnsMiInv _ | .unmapped => true
  | _ => false

/-- The window's unmapped slots, gap by gap: those R46 does not list, those at i ≥ KMAX of an array, and those at i ≥ NMAX
of a buffer. -/
def unmappedAt (p : Params) (off : Nat) : Prop :=
  (0x028 ≤ off ∧ off < 0x040) ∨ (0x0E8 ≤ off ∧ off < 0x100) ∨ (0x120 ≤ off ∧ off < 0x200) ∨
    (0x200 + 8 * p.kMax ≤ off ∧ off < 0x280) ∨ (0x288 ≤ off ∧ off < 0x300) ∨
    (0x300 + 8 * p.kMax ≤ off ∧ off < 0x380) ∨ (0x380 + 8 * p.kMax ≤ off ∧ off < 0x400) ∨
    (0x400 + 8 * p.kMax ≤ off ∧ off < 0x480) ∨ (0x480 + 8 * p.kMax ≤ off ∧ off < 0x500) ∨
    (0x500 + 8 * p.kMax ≤ off ∧ off < 0x10000) ∨ (0x10000 + 8 * p.nMax ≤ off ∧ off < 0x20000) ∨
    0x20000 + 8 * p.nMax ≤ off

end Sys2Proof.Safety
end

