-- ==== Sys2Proof/Certificates/Slice0/Obligations.lean ====
section
/-! DEFINITION. The statements for the provers. Each docstring names the rules of spec/ that it formalises. -/

open Sys2Proof Sys2Proof.Machine Sys2Proof.Safety

/-! ### Encoding -/

/-- R101, R104 to R107: a value written to CMD decodes to a command exactly when it is that command's encoding. -/
def Obligations.DecodeIsExactlyEncode : Prop :=
  ∀ (v : Word) (i : Instr), decode v = .ok i ↔ v = commandValue i

/-- R107: the illegal values are exactly those listed (nonzero upper half, nonzero RSVD, a reserved OPC, an unused field
set), and an illegal command ends with IllegalCommand and no other effect. -/
def Obligations.IllegalCommandsAsListed : Prop :=
  ∀ (v : Word) (opc : Nat), (v.extractLsb' 0 8).toNat = opc →
    ((∃ e, decode v = .error e) ↔
      v.extractLsb' 32 32 ≠ 0 ∨ v.extractLsb' 10 22 ≠ 0 ∨
      ((0x01 ≤ opc ∧ opc ≤ 0x0F) ∨ (0x16 ≤ opc ∧ opc ≤ 0x1F) ∨ (0x26 ≤ opc ∧ opc ≤ 0x2F) ∨
        (0x35 ≤ opc ∧ opc ≤ 0x37) ∨ (0x3C ≤ opc ∧ opc ≤ 0x3F) ∨ (0x45 ≤ opc ∧ opc ≤ 0x4F) ∨ 0x53 ≤ opc) ∨
      ∃ i : Instr, i.opcode = opc ∧
        ((i.fields = .none ∧ (v.getLsbD 8 = true ∨ v.getLsbD 9 = true)) ∨ (i.fields = .d ∧ v.getLsbD 9 = true))) ∧
    ∀ (e : Illegal) (s : State), decode v = .error e → s.latch = some v →
      unitTurn s = .next (ended s .illegalCommand)

/-- R106 (which the spec derives from R101 and R105): a word selects a row exactly when `(w & mask) = match`, and no word
matches two rows. -/
def Obligations.MaskAndMatchSelectTheRow : Prop :=
  ∀ (w : CommandWord) (i : Instr),
    (w &&& i.maskWord = i.matchWord ↔ ∃ j, decode (w.setWidth 64) = .ok j ∧ j.opcode = i.opcode) ∧
    ∀ j : Instr, w &&& i.maskWord = i.matchWord → w &&& j.maskWord = j.matchWord → i.opcode = j.opcode

/-- R105, 95_test_vectors.md 2.1: words written out from the encoding decode to the commands they stand for. -/
def Obligations.WrittenOutWordsDecode : Prop :=
  decode 0x00000000 = .ok .nop ∧ decode 0x00000014 = .ok .minvf ∧ decode 0x00000020 = .ok .montInit ∧
    decode 0x00000030 = .ok .ctxBuild ∧ decode 0x00000034 = .ok .bfly4 ∧ decode 0x00000138 = .ok (.nttFwd2 .b1) ∧
    decode 0x00000141 = .ok (.toRns .v1) ∧ decode 0x00000343 = .ok (.radd .v1 .v1) ∧
    decode 0x00000252 = .ok (.pmul .b0 .b1)

/-! ### The step -/

/-- R360: while a legal command is in the latch, the unit's turn is that command's `exec`, once the agenda is empty and
when the unit is next on it. The agenda is the model's own (A1). The last clause is the model's own too and no rule's:
`withFetchWord` fills the latch whatever it held, where R362 would drop a CMD write while BUSY (A2). -/
def Obligations.StepRunsTheLatchedCommand : Prop :=
  ∀ (s : State) (i : Instr),
    (∀ v, s.latch = some v → decode v = .ok i →
      (s.agenda = [] → step s = exec i s) ∧
        ∀ rest, s.agenda = .unit :: rest → step s = exec i { s with agenda := rest }) ∧
    ∀ w, decodeTableWord 32 w = some i →
      step (s.withFetchWord 32 w) = exec i { s with latch := some (tableWordValue 32 w) }

/-- R76, R332, R350: a step takes the agenda's next turn, and with nothing on it and no command in progress the unit
waits. The agenda is the model's own (A1). -/
def Obligations.StepTakesTheNextTurn : Prop :=
  ∀ (s : State) (rest : List Turn),
    (∀ a, s.agenda = .host a :: rest → step s = hostAccess a { s with agenda := rest }) ∧
    (s.agenda = .powerOn :: rest → step s = .next ({ s with agenda := rest } : State).powerCycle) ∧
    (s.agenda = .unit :: rest → s.latch = none → step s = .next { s with agenda := rest }) ∧
    (s.agenda = [] → s.latch = none → step s = .next s)

/-- After R361: with admitted host accesses on the agenda, a run takes every turn of it and ends with an empty latch: no
command is then in progress. The finite agenda is the model's own form of "a finite delay" (A1). -/
def Obligations.RunEndsWithNoCommandInProgress : Prop :=
  ∀ s : State, (∀ a, Turn.host a ∈ s.agenda → a.wellFormed s.params = true) →
    ∃ t, Host.Core.run Sys2Proof.core (s.agenda.length + 1) s = .next t ∧ t.latch = none ∧ t.agenda = []

/-! ### All commands -/

/-- R321, R360: every command answers a next state with BUSY = 0, and changes neither the parameters nor OVR nor the
model's own fields. -/
def Obligations.EveryCommandGoesOn : Prop :=
  ∀ (i : Instr) (s : State), ∃ t, exec i s = .next t ∧ t.latch = none ∧ t.params = s.params ∧ t.ovr = s.ovr ∧
    t.ramDraw = s.ramDraw ∧ t.draws = s.draws ∧ t.readData = s.readData ∧ t.agenda = s.agenda

/-- R321: a failed command changes no state except CODE (and BUSY), and the context that a failed build clears. -/
def Obligations.FailedCommandChangesOnlyCode : Prop :=
  ∀ (i : Instr) (s t : State), exec i s = .next t → t.code ≠ .ok →
    t = ended (match i with
      | .ctxBuild => { s with tc := none }
      | .montInit => { s with mont := none }
      | .rnsInit => { s with rns := none }
      | _ => s) t.code

/-- R22, R23, R37, R41, R42: no command writes OP, KMOD, BUF_LEN, BASE_IN or BASE_K_IN; only the commands listed write
RS, BUF_DOM and the residue vectors. -/
def Obligations.CommandsLeaveTheirInputs : Prop :=
  ∀ (i : Instr) (s t : State), exec i s = .next t →
    (t.op = s.op ∧ t.kmod = s.kmod ∧ t.bufLen0 = s.bufLen0 ∧ t.bufLen1 = s.bufLen1 ∧ t.baseIn = s.baseIn ∧
      t.baseKIn = s.baseKIn) ∧
    ((match i with
      | .madd | .msub | .mmul | .mpow | .minvf | .minve | .montMul | .montTo | .montFrom | .ctAdd | .ctSub => False
      | .rootCheck | .bfly2 | .bfly4 | .fromRns _ => False
      | _ => True) → t.rs = s.rs) ∧
    ((match i with
      | .nttFwd2 _ | .nttInv2 _ | .nttFwd4 _ | .nttInv4 _ => False
      | _ => True) → t.bufDom0 = s.bufDom0 ∧ t.bufDom1 = s.bufDom1) ∧
    ((match i with
      | .toRns _ | .radd _ _ | .rmul _ _ => False
      | _ => True) → t.rv0 = s.rv0 ∧ t.rv1 = s.rv1)

/-- R40: a command changes no byte of the buffers outside the first BUF_LEN words of the buffer it writes; a command that
writes no buffer changes none. -/
def Obligations.CommandsStoreOnlyInTheirBuffer : Prop :=
  ∀ (i : Instr) (s t : State), exec i s = .next t → ∀ a,
    (∀ d, destBuf i = some d → ¬ inBuf d (s.bufLen d).toNat a) → t.byteAt a = s.byteAt a

/-- R30, R32: a context changes only when the unit's turn runs its own build command, at a soft reset, or at power-on. The
agenda that says whose turn it is, and power-on as a turn, are the model's own (A1, A8). -/
def Obligations.ContextsChangeOnlyByTheirBuild : Prop :=
  ∀ s t : State, step s = .next t →
    let resets := (∃ rest, s.agenda = .powerOn :: rest) ∨
      ∃ v rest, s.agenda = .host (.write (s.params.unitBase + 0x008) 8 v) :: rest ∧ v.getLsbD 0 = true
    let unitNext := s.agenda = [] ∨ ∃ rest, s.agenda = .unit :: rest
    (t.tc ≠ s.tc → resets ∨ (unitNext ∧ s.latch = some (commandValue .ctxBuild))) ∧
    (t.mont ≠ s.mont → resets ∨ (unitNext ∧ s.latch = some (commandValue .montInit))) ∧
    (t.rns ≠ s.rns → resets ∨ (unitNext ∧ s.latch = some (commandValue .rnsInit)))

/-- R304: NOP writes nothing but CODE ← OK. -/
def Obligations.NopRule : Prop :=
  commandValue .nop = 0x00 ∧ ∀ s : State, exec .nop s = .next (ended s .ok)

/-! ### The modular kernel -/

/-- R131: MADD. -/
def Obligations.MaddRule : Prop :=
  commandValue .madd = 0x10 ∧ ∀ (s : State) (m a b : Nat),
    s.kmod.toNat = m → s.op[0].toNat = a → s.op[1].toNat = b →
    (2 ≤ m → a < m → b < m →
      exec .madd s = .next (ended { s with rs := s.rs.set 0 (Word.ofNat ((a + b) % m)) } .ok)) ∧
    (m < 2 → exec .madd s = .next (ended s .invalidModulus)) ∧
    (2 ≤ m → m ≤ a ∨ m ≤ b → exec .madd s = .next (ended s .operandRange))

/-- R132: MSUB; the result is the integer difference modulo m, in [0, m). -/
def Obligations.MsubRule : Prop :=
  commandValue .msub = 0x11 ∧ ∀ (s : State) (m a b : Nat),
    s.kmod.toNat = m → s.op[0].toNat = a → s.op[1].toNat = b →
    (2 ≤ m → a < m → b < m → ∃ x : Word, (x.toNat : Int) = ((a : Int) - b) % m ∧
      exec .msub s = .next (ended { s with rs := s.rs.set 0 x } .ok)) ∧
    (m < 2 → exec .msub s = .next (ended s .invalidModulus)) ∧
    (2 ≤ m → m ≤ a ∨ m ≤ b → exec .msub s = .next (ended s .operandRange))

/-- R133: MMUL; the product is exact before it is reduced. -/
def Obligations.MmulRule : Prop :=
  commandValue .mmul = 0x12 ∧ ∀ (s : State) (m a b : Nat),
    s.kmod.toNat = m → s.op[0].toNat = a → s.op[1].toNat = b →
    (2 ≤ m → a < m → b < m →
      exec .mmul s = .next (ended { s with rs := s.rs.set 0 (Word.ofNat (a * b % m)) } .ok)) ∧
    (m < 2 → exec .mmul s = .next (ended s .invalidModulus)) ∧
    (2 ≤ m → m ≤ a ∨ m ≤ b → exec .mmul s = .next (ended s .operandRange))

/-- R134: MPOW; the exponent is any 64-bit value, and x ^ 0 = 1 for every x. -/
def Obligations.MpowRule : Prop :=
  commandValue .mpow = 0x13 ∧ ∀ (s : State) (m x e : Nat),
    s.kmod.toNat = m → s.op[0].toNat = x → s.op[1].toNat = e →
    (2 ≤ m → x < m → exec .mpow s = .next (ended { s with rs := s.rs.set 0 (Word.ofNat (x ^ e % m)) } .ok)) ∧
    (m < 2 → exec .mpow s = .next (ended s .invalidModulus)) ∧
    (2 ≤ m → m ≤ x → exec .mpow s = .next (ended s .operandRange))

/-- R135: MINVF; the power m - 2 for every modulus, composite ones too, and NotInvertible only for a = 0. -/
def Obligations.MinvfRule : Prop :=
  commandValue .minvf = 0x14 ∧ ∀ (s : State) (m a : Nat),
    s.kmod.toNat = m → s.op[0].toNat = a →
    (2 ≤ m → a < m → a ≠ 0 →
      exec .minvf s = .next (ended { s with rs := s.rs.set 0 (Word.ofNat (a ^ (m - 2) % m)) } .ok)) ∧
    (m < 2 → exec .minvf s = .next (ended s .invalidModulus)) ∧
    (2 ≤ m → m ≤ a → exec .minvf s = .next (ended s .operandRange)) ∧
    (2 ≤ m → a = 0 → exec .minvf s = .next (ended s .notInvertible))

/-- R136: MINVE; the inverse when gcd(a, m) = 1, else NotInvertible. -/
def Obligations.MinveRule : Prop :=
  commandValue .minve = 0x15 ∧ ∀ (s : State) (m a : Nat),
    s.kmod.toNat = m → s.op[0].toNat = a →
    (2 ≤ m → a < m → Nat.gcd a m = 1 → ∃ x : Word, x.toNat < m ∧ a * x.toNat % m = 1 ∧
      exec .minve s = .next (ended { s with rs := s.rs.set 0 x } .ok)) ∧
    (m < 2 → exec .minve s = .next (ended s .invalidModulus)) ∧
    (2 ≤ m → m ≤ a → exec .minve s = .next (ended s .operandRange)) ∧
    (2 ≤ m → a < m → Nat.gcd a m ≠ 1 → exec .minve s = .next (ended s .notInvertible))

/-- For a prime modulus MINVE and MINVF do the same, on every operand: R136's remark, which the spec derives by Fermat's
little theorem. -/
def Obligations.InversePoliciesAgreeOnPrimes : Prop :=
  ∀ s : State, Nat.Prime s.kmod.toNat → exec .minvf s = exec .minve s

/-! ### The Montgomery multiplier -/

/-- R161: MONT_INIT builds the context for an odd modulus, and otherwise clears it. -/
def Obligations.MontInitRule : Prop :=
  commandValue .montInit = 0x20 ∧ ∀ (s : State) (m : Nat), s.kmod.toNat = m →
    (2 ≤ m → m % 2 = 1 → ∃ c : MontgomeryContext, c.montM = s.kmod ∧ MontgomeryLegal c ∧
      exec .montInit s = .next (ended { s with mont := some c } .ok)) ∧
    (m < 2 ∨ m % 2 = 0 → exec .montInit s = .next (ended { s with mont := none } .invalidModulus))

/-- R162: the reduction is a * b * R^-1 mod m for all residues, the 129-bit case included; the rule marks this result of
its steps as derived. -/
def Obligations.MontgomeryReductionIsExact : Prop :=
  ∀ (c : MontgomeryContext) (a b : Word), MontgomeryLegal c → a.toNat < c.montM.toNat → b.toNat < c.montM.toNat →
    (montmul c a b).toNat = a.toNat * b.toNat * c.montRInv.toNat % c.montM.toNat

/-- R163, R164, R165: MONT_MUL, MONT_TO and MONT_FROM. Their values are those that R162 marks as derived from its steps. -/
def Obligations.MontgomeryCommandsRule : Prop :=
  (commandValue .montMul = 0x21 ∧ commandValue .montTo = 0x22 ∧ commandValue .montFrom = 0x23) ∧
  ∀ (s : State) (a b : Nat), s.op[0].toNat = a → s.op[1].toNat = b →
    (∀ (c : MontgomeryContext) (m : Nat), s.mont = some c → c.montM.toNat = m →
      (MontgomeryLegal c → a < m → b < m → exec .montMul s =
        .next (ended { s with rs := s.rs.set 0 (Word.ofNat (a * b * c.montRInv.toNat % m)) } .ok)) ∧
      (MontgomeryLegal c → a < m → exec .montTo s =
        .next (ended { s with rs := s.rs.set 0 (Word.ofNat (a * 2 ^ 64 % m)) } .ok)) ∧
      (MontgomeryLegal c → a < m → exec .montFrom s =
        .next (ended { s with rs := s.rs.set 0 (Word.ofNat (a * c.montRInv.toNat % m)) } .ok)) ∧
      (m ≤ a ∨ m ≤ b → exec .montMul s = .next (ended s .operandRange)) ∧
      (m ≤ a → exec .montTo s = .next (ended s .operandRange) ∧ exec .montFrom s = .next (ended s .operandRange))) ∧
    (s.mont = none → exec .montMul s = .next (ended s .noContext) ∧ exec .montTo s = .next (ended s .noContext) ∧
      exec .montFrom s = .next (ended s .noContext))

/-- R166, R167: CT_ADD and CT_SUB give the sum and the integer difference modulo MONT_M. -/
def Obligations.BranchFreeRule : Prop :=
  (commandValue .ctAdd = 0x24 ∧ commandValue .ctSub = 0x25) ∧
  ∀ (s : State) (a b : Nat), s.op[0].toNat = a → s.op[1].toNat = b →
    (∀ (c : MontgomeryContext) (m : Nat), s.mont = some c → c.montM.toNat = m →
      (a < m → b < m →
        exec .ctAdd s = .next (ended { s with rs := s.rs.set 0 (Word.ofNat ((a + b) % m)) } .ok)) ∧
      (a < m → b < m → ∃ x : Word, (x.toNat : Int) = ((a : Int) - b) % m ∧
        exec .ctSub s = .next (ended { s with rs := s.rs.set 0 x } .ok)) ∧
      (m ≤ a ∨ m ≤ b → exec .ctAdd s = .next (ended s .operandRange) ∧
        exec .ctSub s = .next (ended s .operandRange))) ∧
    (s.mont = none → exec .ctAdd s = .next (ended s .noContext) ∧ exec .ctSub s = .next (ended s .noContext))

/-- Into the Montgomery domain, multiply, and out again is multiplication modulo MONT_M: R168's law, which the spec derives
from R162 to R165. -/
def Obligations.MontgomeryDomainMultiplies : Prop :=
  ∀ (c : MontgomeryContext) (a b : Word), MontgomeryLegal c → a.toNat < c.montM.toNat → b.toNat < c.montM.toNat →
    montmul c (montmul c (montmul c a c.montR2) (montmul c b c.montR2)) 1 =
      Word.ofNat (a.toNat * b.toNat % c.montM.toNat)

/-! ### The transform context -/

/-- R193, which the spec derives from R192: the validator's three checks hold exactly when m ≥ 3 and root^n = m - 1, for
every power of two n up to 2^62. -/
def Obligations.ValidatorNeedsOneCheck : Prop :=
  ∀ m n root k : Nat, 2 ≤ m → n = 2 ^ k → k ≤ 62 →
    (validRoot m n root = true ↔ 3 ≤ m ∧ root ^ n % m = m - 1)

/-- R194: ROOT_CHECK; an invalid root gives RS0 = 0 with status OK. The validator of R192 is stated in the form m ≥ 3 and
root^n = m - 1, which R193 derives. -/
def Obligations.RootCheckRule : Prop :=
  commandValue .rootCheck = 0x31 ∧ ∀ (s : State) (m root n : Nat),
    s.kmod.toNat = m → s.op[0].toNat = root → s.op[1].toNat = n →
    (s.params.wellFormed = true → 2 ≤ m → legalSize s.params n → root < m →
      exec .rootCheck s =
        .next (ended { s with rs := s.rs.set 0 (if 3 ≤ m ∧ root ^ n % m = m - 1 then 1 else 0) } .ok)) ∧
    (m < 2 → exec .rootCheck s = .next (ended s .invalidModulus)) ∧
    (2 ≤ m → ¬ legalSize s.params n → exec .rootCheck s = .next (ended s .invalidSize)) ∧
    (2 ≤ m → legalSize s.params n → m ≤ root → exec .rootCheck s = .next (ended s .operandRange))

/-- R191: CTX_BUILD holds the legal context (R190, R196), or reports the first check that fails and leaves no context. The
validator of R192 is stated in the form root^n = m - 1, which R193 derives. -/
def Obligations.CtxBuildRule : Prop :=
  commandValue .ctxBuild = 0x30 ∧ ∀ (s : State) (m root n : Nat),
    s.kmod.toNat = m → s.op[0].toNat = root → s.op[1].toNat = n → s.params.wellFormed = true →
    (2 ≤ m → legalSize s.params n → (m - 1) % (2 * n) = 0 → root < m → root ^ n % m = m - 1 →
      ∃ c : TransformContext, c.tcM = s.kmod ∧ c.tcN = s.op[1] ∧ c.tcRoot = s.op[0] ∧ TransformLegal s.params c ∧
        exec .ctxBuild s = .next (ended { s with tc := some c } .ok)) ∧
    (m < 2 → exec .ctxBuild s = .next (ended { s with tc := none } .invalidModulus)) ∧
    (2 ≤ m → ¬ legalSize s.params n → exec .ctxBuild s = .next (ended { s with tc := none } .invalidSize)) ∧
    (2 ≤ m → legalSize s.params n → (m - 1) % (2 * n) ≠ 0 →
      exec .ctxBuild s = .next (ended { s with tc := none } .invalidModulus)) ∧
    (2 ≤ m → legalSize s.params n → (m - 1) % (2 * n) = 0 → m ≤ root →
      exec .ctxBuild s = .next (ended { s with tc := none } .operandRange)) ∧
    (2 ≤ m → legalSize s.params n → (m - 1) % (2 * n) = 0 → root < m → root ^ n % m ≠ m - 1 →
      exec .ctxBuild s = .next (ended { s with tc := none } .invalidRoot))

/-- R35, R195, R196: the twiddle table of a legal context: the stage scalars are powers of root^2, the inverse scalars
their inverses in [0, m), the radix-4 triples are made of radix-2 scalars (none for odd log2 n), JF = TWF2[2] and
JI = TWI2[2] (none for n < 4), and NINV = m - (m - 1) / n. The facts beside the powers are those R196 marks as derived. -/
def Obligations.TwiddleTableFacts : Prop :=
  ∀ (p : Params) (c : TransformContext) (m n b : Nat), p.wellFormed = true → TransformLegal p c →
    c.tcM.toNat = m → c.tcN.toNat = n → n = 2 ^ b →
    let tw := c.twiddles
    let omega := c.tcRoot.toNat ^ 2 % m
    tw.twf2.length = b ∧ tw.twi2.length = b ∧
    (∀ s, 1 ≤ s → s ≤ b → (tw.twf2.getD (s - 1) 0).toNat = omega ^ (n / 2 ^ s) % m ∧
      (tw.twi2.getD (s - 1) 0).toNat < m ∧
      (tw.twf2.getD (s - 1) 0).toNat * (tw.twi2.getD (s - 1) 0).toNat % m = 1) ∧
    (1 ≤ b → (tw.twf2.getD 0 0).toNat = m - 1 ∧ (tw.twf2.getD (b - 1) 0).toNat = omega) ∧
    (b % 2 = 0 → tw.twf4.length = b / 2 ∧ tw.twi4.length = b / 2 ∧ ∀ t, 1 ≤ t → t ≤ b / 2 →
      tw.twf4.getD (t - 1) (0, 0, 0) = (tw.twf2.getD (2 * t - 1) 0, tw.twf2.getD (2 * t - 2) 0,
        Word.ofNat ((tw.twf2.getD (2 * t - 1) 0).toNat ^ 3 % m)) ∧
      tw.twi4.getD (t - 1) (0, 0, 0) = (tw.twi2.getD (2 * t - 1) 0, tw.twi2.getD (2 * t - 2) 0,
        Word.ofNat ((tw.twi2.getD (2 * t - 1) 0).toNat ^ 3 % m))) ∧
    (b % 2 = 1 → tw.twf4 = [] ∧ tw.twi4 = []) ∧
    (2 ≤ b → tw.jf = some (tw.twf2.getD 1 0) ∧ tw.ji = some (tw.twi2.getD 1 0)) ∧
    (b < 2 → tw.jf = none ∧ tw.ji = none) ∧
    tw.ninv.toNat = m - (m - 1) / n

/-- R13, R198, R199: BITREV moves word i to the place with its index's b bits reversed (R198 derives this from its swaps),
and nothing else; bit t of the reversed index is bit b - 1 - t of the index for t < b, and 0 above. -/
def Obligations.BitrevRule : Prop :=
  (commandValue (.bitrev .b0) = 0x032 ∧ commandValue (.bitrev .b1) = 0x132) ∧
  (∀ b i t : Nat, (bitrev b i).testBit t = (decide (t < b) && i.testBit (b - 1 - t))) ∧
  ∀ (s : State) (d : Buf) (len : Nat), (s.bufLen d).toNat = len →
    (∀ b, len = 2 ^ b → len ≤ s.params.nMax → ∃ t, exec (.bitrev d) s = .next t ∧
      storedIn s t d len (s.bufDom d) ∧ ∀ i, i < len → t.bufWord d (bitrev b i) = s.bufWord d i) ∧
    (¬ legalSize s.params len → exec (.bitrev d) s = .next (ended s .invalidSize))

/-- R199: BITREV twice leaves every byte of the buffers as it was. -/
def Obligations.BitrevTwiceRestores : Prop :=
  ∀ (s t u : State) (d : Buf), exec (.bitrev d) s = .next t → exec (.bitrev d) t = .next u →
    ∀ a, u.byteAt a = s.byteAt a

/-! ### Butterflies and transforms -/

/-- R230, R231: BFLY2 gives u + v w and u - v w modulo m. -/
def Obligations.Bfly2Rule : Prop :=
  commandValue .bfly2 = 0x33 ∧ ∀ (s : State) (m u v w : Nat),
    s.kmod.toNat = m → s.op[0].toNat = u → s.op[1].toNat = v → s.op[2].toNat = w →
    (2 ≤ m → u < m → v < m → w < m → ∃ x y : Word,
      x.toNat = (u + v * w) % m ∧ (y.toNat : Int) = ((u : Int) - v * w) % m ∧
      exec .bfly2 s = .next (ended { s with rs := (s.rs.set 0 x).set 1 y } .ok)) ∧
    (m < 2 → exec .bfly2 s = .next (ended s .invalidModulus)) ∧
    (2 ≤ m → m ≤ u ∨ m ≤ v ∨ m ≤ w → exec .bfly2 s = .next (ended s .operandRange))

/-- R235, R236: BFLY4's four results as integer expressions modulo m. -/
def Obligations.Bfly4Rule : Prop :=
  commandValue .bfly4 = 0x34 ∧ ∀ (s : State) (m : Nat) (x0 x1 x2 x3 j : Int),
    s.kmod.toNat = m → x0 = s.op[0].toNat → x1 = s.op[1].toNat * s.op[5].toNat →
    x2 = s.op[2].toNat * s.op[4].toNat → x3 = s.op[3].toNat * s.op[6].toNat → j = s.op[7].toNat →
    (2 ≤ m → (∀ x ∈ s.op.toList, x.toNat < m) → ∃ y0 y1 y2 y3 : Word,
      (y0.toNat : Int) = (x0 + x1 + (x2 + x3)) % m ∧ (y1.toNat : Int) = (x0 - x1 + (x2 - x3) * j) % m ∧
      (y2.toNat : Int) = (x0 + x1 - (x2 + x3)) % m ∧ (y3.toNat : Int) = (x0 - x1 - (x2 - x3) * j) % m ∧
      exec .bfly4 s = .next (ended { s with rs := #v[y0, y1, y2, y3] } .ok)) ∧
    (m < 2 → exec .bfly4 s = .next (ended s .invalidModulus)) ∧
    (2 ≤ m → (∃ x ∈ s.op.toList, m ≤ x.toNat) → exec .bfly4 s = .next (ended s .operandRange))

/-- R105, R233, R234, R237, R238: the transforms' words, and that a transform whose checks pass leaves its network's result
in the buffer and sets the tag. -/
def Obligations.TransformsComplete : Prop :=
  (commandValue (.nttFwd2 .b0) = 0x038 ∧ commandValue (.nttFwd2 .b1) = 0x138 ∧
    commandValue (.nttInv2 .b0) = 0x039 ∧ commandValue (.nttInv2 .b1) = 0x139 ∧
    commandValue (.nttFwd4 .b0) = 0x03A ∧ commandValue (.nttFwd4 .b1) = 0x13A ∧
    commandValue (.nttInv4 .b0) = 0x03B ∧ commandValue (.nttInv4 .b1) = 0x13B) ∧
  ∀ (s : State) (d : Buf) (c : TransformContext) (n : Nat), s.tc = some c → c.tcN.toNat = n → s.bufLen d = c.tcN →
    (∀ x ∈ s.bufNats d n, x < c.tcM.toNat) →
    (s.bufDom d = .coefficient → ∃ t, exec (.nttFwd2 d) s = .next t ∧ storedIn s t d n .evaluation ∧
      t.bufNats d n = forward2 c (s.bufNats d n)) ∧
    (s.bufDom d = .evaluation → ∃ t, exec (.nttInv2 d) s = .next t ∧ storedIn s t d n .coefficient ∧
      t.bufNats d n = inverse2 c (s.bufNats d n)) ∧
    (s.bufDom d = .coefficient → Nat.log2 n % 2 = 0 → ∃ t, exec (.nttFwd4 d) s = .next t ∧
      storedIn s t d n .evaluation ∧ t.bufNats d n = forward4 c (s.bufNats d n)) ∧
    (s.bufDom d = .evaluation → Nat.log2 n % 2 = 0 → ∃ t, exec (.nttInv4 d) s = .next t ∧
      storedIn s t d n .coefficient ∧ t.bufNats d n = inverse4 c (s.bufNats d n))

/-- R232: the common checks of the four transforms, in their order. -/
def Obligations.TransformChecksInOrder : Prop :=
  ∀ (s : State) (d : Buf) (i : Instr) (radix4 : Bool) (needs : Domain),
    (i, radix4, needs) ∈ [(Instr.nttFwd2 d, false, Domain.coefficient), (Instr.nttInv2 d, false, Domain.evaluation),
      (Instr.nttFwd4 d, true, Domain.coefficient), (Instr.nttInv4 d, true, Domain.evaluation)] →
    (s.tc = none → exec i s = .next (ended s .noContext)) ∧
    ∀ (c : TransformContext) (n : Nat), s.tc = some c → c.tcN.toNat = n →
      (radix4 = true ∧ Nat.log2 n % 2 = 1 → exec i s = .next (ended s .invalidSize)) ∧
      (s.bufLen d ≠ c.tcN → exec i s = .next (ended s .invalidSize)) ∧
      (¬ (radix4 = true ∧ Nat.log2 n % 2 = 1) → s.bufLen d = c.tcN → s.bufDom d ≠ needs →
        exec i s = .next (ended s .domainMismatch)) ∧
      (¬ (radix4 = true ∧ Nat.log2 n % 2 = 1) → s.bufLen d = c.tcN → s.bufDom d = needs →
        (∃ x ∈ s.bufNats d n, c.tcM.toNat ≤ x) → exec i s = .next (ended s .operandRange))

/-- R239, which the spec derives from R235: in a legal context with log2 n even, the radix-4 transforms do exactly what the
radix-2 transforms do. -/
def Obligations.Radix4EqualsRadix2 : Prop :=
  ∀ (s : State) (d : Buf), contextsLegal s → (∀ c, s.tc = some c → Nat.log2 c.tcN.toNat % 2 = 0) →
    exec (.nttFwd4 d) s = exec (.nttFwd2 d) s ∧ exec (.nttInv4 d) s = exec (.nttInv2 d) s

/-- R240: NTT_FWD2 leaves X[k] = sum of a[j] * omega^(j k) modulo m, with omega = root^2. -/
def Obligations.ForwardTransformClosedForm : Prop :=
  ∀ (s t : State) (d : Buf) (c : TransformContext), contextsLegal s → s.tc = some c →
    exec (.nttFwd2 d) s = .next t → t.code = .ok → ∀ k, k < c.tcN.toNat →
      (t.bufWord d k).toNat = (∑ j ∈ Finset.range c.tcN.toNat,
        (s.bufWord d j).toNat * (c.tcRoot.toNat ^ 2) ^ (j * k)) % c.tcM.toNat

/-- R240: NTT_INV2 leaves the x[j] with n * x[j] = sum of X[k] * omega^(-j k) modulo m, where omega^(-j k) is
omega^(j (n - k)), omega having order n. -/
def Obligations.InverseTransformClosedForm : Prop :=
  ∀ (s t : State) (d : Buf) (c : TransformContext), contextsLegal s → s.tc = some c →
    exec (.nttInv2 d) s = .next t → t.code = .ok → ∀ j, j < c.tcN.toNat →
      (t.bufWord d j).toNat < c.tcM.toNat ∧
      c.tcN.toNat * (t.bufWord d j).toNat % c.tcM.toNat = (∑ k ∈ Finset.range c.tcN.toNat,
        (s.bufWord d k).toNat * (c.tcRoot.toNat ^ 2) ^ (j * (c.tcN.toNat - k))) % c.tcM.toNat

/-- R241 (for a composite m from general knowledge, the rule says): after a forward transform that ends with OK, an inverse
one ends with OK and restores every byte of the buffers and the tag 0, in any mix of the radix-2 and radix-4 forms: the
radix-2 inverse always, the radix-4 inverse when log2 n is even. -/
def Obligations.TransformRoundTrip : Prop :=
  ∀ (s t : State) (d : Buf) (c : TransformContext) (f g : Instr), contextsLegal s → s.tc = some c →
    f ∈ [Instr.nttFwd2 d, Instr.nttFwd4 d] → exec f s = .next t → t.code = .ok →
    g = .nttInv2 d ∨ (g = .nttInv4 d ∧ Nat.log2 c.tcN.toNat % 2 = 0) →
      ∃ u, exec g t = .next u ∧ u.code = .ok ∧ (∀ a, u.byteAt a = s.byteAt a) ∧
        s.bufDom d = .coefficient ∧ u.bufDom d = .coefficient

/-! ### RNS -/

/-- R34, R270, R271: RNS_INIT holds the legal base of the proposed moduli, or reports the first check that fails and leaves
none. R271's test gcd(Mi mod mi, mi) = 1 is stated as R270's pairwise coprimality, which R270 derives to be the same. -/
def Obligations.RnsInitRule : Prop :=
  commandValue .rnsInit = 0x40 ∧ ∀ (s : State) (k prod : Nat), s.params.wellFormed = true →
    s.baseKIn.toNat = k → prod = ∏ i ∈ Finset.range k, (slot s.baseIn i).toNat →
    let coprime := ∀ i < k, ∀ j < k, i ≠ j → Nat.gcd (slot s.baseIn i).toNat (slot s.baseIn j).toNat = 1
    (1 ≤ k → k ≤ s.params.kMax → (∀ i < k, 2 ≤ (slot s.baseIn i).toNat) → prod < 2 ^ 64 → coprime →
      ∃ r : RnsBase, r.rnsK = s.baseKIn ∧ (∀ i < k, slot r.rnsMod i = slot s.baseIn i) ∧ RnsLegal s.params r ∧
        exec .rnsInit s = .next (ended { s with rns := some r } .ok)) ∧
    (k = 0 ∨ s.params.kMax < k → exec .rnsInit s = .next (ended { s with rns := none } .invalidSize)) ∧
    (1 ≤ k → k ≤ s.params.kMax → (∃ i < k, (slot s.baseIn i).toNat < 2) →
      exec .rnsInit s = .next (ended { s with rns := none } .invalidModulus)) ∧
    (1 ≤ k → k ≤ s.params.kMax → (∀ i < k, 2 ≤ (slot s.baseIn i).toNat) → 2 ^ 64 ≤ prod →
      exec .rnsInit s = .next (ended { s with rns := none } .invalidModulus)) ∧
    (1 ≤ k → k ≤ s.params.kMax → (∀ i < k, 2 ≤ (slot s.baseIn i).toNat) → prod < 2 ^ 64 → ¬ coprime →
      exec .rnsInit s = .next (ended { s with rns := none } .notInvertible))

/-- R272: TO_RNS writes OP0 mod mi in slot i < k of RV[D], and nothing else. -/
def Obligations.ToRnsRule : Prop :=
  (commandValue (.toRns .v0) = 0x041 ∧ commandValue (.toRns .v1) = 0x141) ∧
  ∀ (s : State) (d : Vec),
    (s.rns = none → exec (.toRns d) s = .next (ended s .noContext)) ∧
    ∀ r, s.rns = some r → ∃ y : Vector Word 16, exec (.toRns d) s = .next (ended (s.setRv d y) .ok) ∧
      ∀ i < 16, slot y i = if i < r.rnsK.toNat then Word.ofNat (s.op[0].toNat % (slot r.rnsMod i).toNat)
        else slot (s.rv d) i

/-- R273: FROM_RNS leaves the sum of Mi * ((residue * Mi^-1) mod mi), reduced mod M, in RS0. -/
def Obligations.FromRnsRule : Prop :=
  (commandValue (.fromRns .v0) = 0x042 ∧ commandValue (.fromRns .v1) = 0x142) ∧
  ∀ (s : State) (d : Vec),
    (s.rns = none → exec (.fromRns d) s = .next (ended s .noContext)) ∧
    ∀ r, s.rns = some r →
      ((∀ i < r.rnsK.toNat, (slot (s.rv d) i).toNat < (slot r.rnsMod i).toNat) →
        exec (.fromRns d) s = .next (ended { s with rs := s.rs.set 0 (Word.ofNat
          ((∑ i ∈ Finset.range r.rnsK.toNat, (slot r.rnsMi i).toNat *
            ((slot (s.rv d) i).toNat * (slot r.rnsMiInv i).toNat % (slot r.rnsMod i).toNat)) %
              r.rnsMProd.toNat)) } .ok)) ∧
      ((∃ i < r.rnsK.toNat, (slot r.rnsMod i).toNat ≤ (slot (s.rv d) i).toNat) →
        exec (.fromRns d) s = .next (ended s .operandRange))

/-- R274, R275: RADD and RMUL work slot by slot, each slot with its own modulus; D = S is legal. -/
def Obligations.SlotwiseRule : Prop :=
  (commandValue (.radd .v0 .v1) = 0x243 ∧ commandValue (.radd .v1 .v0) = 0x143 ∧
    commandValue (.rmul .v0 .v1) = 0x244 ∧ commandValue (.rmul .v1 .v0) = 0x144) ∧
  ∀ (s : State) (d e : Vec) (i : Instr) (f : Nat → Nat → Nat),
    (i = .radd d e ∧ f = fun a b => a + b) ∨ (i = .rmul d e ∧ f = fun a b => a * b) →
    (s.rns = none → exec i s = .next (ended s .noContext)) ∧
    ∀ r, s.rns = some r →
      ((∀ j < r.rnsK.toNat, (slot (s.rv d) j).toNat < (slot r.rnsMod j).toNat ∧
          (slot (s.rv e) j).toNat < (slot r.rnsMod j).toNat) →
        ∃ y : Vector Word 16, exec i s = .next (ended (s.setRv d y) .ok) ∧
          ∀ j < 16, slot y j = if j < r.rnsK.toNat then
            Word.ofNat (f (slot (s.rv d) j).toNat (slot (s.rv e) j).toNat % (slot r.rnsMod j).toNat)
            else slot (s.rv d) j) ∧
      ((∃ j < r.rnsK.toNat, (slot r.rnsMod j).toNat ≤ (slot (s.rv d) j).toNat ∨
          (slot r.rnsMod j).toNat ≤ (slot (s.rv e) j).toNat) →
        exec i s = .next (ended s .operandRange))

/-- R276, whose laws the spec derives from R272 to R275: FROM_RNS after TO_RNS gives OP0 mod M; after RADD and RMUL of the
residues of x and y it gives x + y and x y modulo M. -/
def Obligations.RnsLaws : Prop :=
  ∀ (s t u : State) (d e : Vec) (r : RnsBase) (x y : Nat), contextsLegal s → s.rns = some r →
    exec (.fromRns d) t = .next u →
    (exec (.toRns d) s = .next t → u.code = .ok ∧ u.rs[0].toNat = s.op[0].toNat % r.rnsMProd.toNat) ∧
    ((∀ i < r.rnsK.toNat, (slot (s.rv d) i).toNat = x % (slot r.rnsMod i).toNat ∧
        (slot (s.rv e) i).toNat = y % (slot r.rnsMod i).toNat) →
      (exec (.radd d e) s = .next t → u.code = .ok ∧ u.rs[0].toNat = (x + y) % r.rnsMProd.toNat) ∧
      (exec (.rmul d e) s = .next t → u.code = .ok ∧ u.rs[0].toNat = x * y % r.rnsMProd.toNat))

/-! ### Pointwise commands -/

/-- R301, R302, R303: PADD, PSUB and PMUL leave the sum, the difference and the product of the words modulo KMOD. -/
def Obligations.PointwiseRule : Prop :=
  (commandValue (.padd .b0 .b1) = 0x250 ∧ commandValue (.padd .b1 .b0) = 0x150 ∧
    commandValue (.psub .b0 .b1) = 0x251 ∧ commandValue (.pmul .b0 .b1) = 0x252) ∧
  ∀ (s : State) (d e : Buf) (m len : Nat) (i : Instr) (f : Int → Int → Int),
    (i = .padd d e ∧ f = fun a b => a + b) ∨ (i = .psub d e ∧ f = fun a b => a - b) ∨
      (i = .pmul d e ∧ f = fun a b => a * b) →
    s.kmod.toNat = m → (s.bufLen d).toNat = len → 2 ≤ m → len ≤ s.params.nMax → s.bufLen e = s.bufLen d →
    s.bufDom e = s.bufDom d →
    (∀ j < len, (s.bufWord d j).toNat < m ∧ (s.bufWord e j).toNat < m) →
    ∃ t, exec i s = .next t ∧ storedIn s t d len (s.bufDom d) ∧ ∀ j < len,
      ((t.bufWord d j).toNat : Int) = f (s.bufWord d j).toNat (s.bufWord e j).toNat % m

/-- R300: the common checks of the pointwise commands, in their order. -/
def Obligations.PointwiseChecksInOrder : Prop :=
  ∀ (s : State) (d e : Buf) (m : Nat) (i : Instr), i ∈ [Instr.padd d e, Instr.psub d e, Instr.pmul d e] →
    s.kmod.toNat = m →
    (m < 2 → exec i s = .next (ended s .invalidModulus)) ∧
    (2 ≤ m → s.params.nMax < (s.bufLen d).toNat ∨ s.params.nMax < (s.bufLen e).toNat →
      exec i s = .next (ended s .invalidSize)) ∧
    (2 ≤ m → (s.bufLen d).toNat ≤ s.params.nMax → (s.bufLen e).toNat ≤ s.params.nMax → s.bufLen d ≠ s.bufLen e →
      exec i s = .next (ended s .sizeMismatch)) ∧
    (2 ≤ m → (s.bufLen d).toNat ≤ s.params.nMax → s.bufLen d = s.bufLen e → s.bufDom d ≠ s.bufDom e →
      exec i s = .next (ended s .domainMismatch)) ∧
    (2 ≤ m → (s.bufLen d).toNat ≤ s.params.nMax → s.bufLen d = s.bufLen e → s.bufDom d = s.bufDom e →
      (∃ j < (s.bufLen d).toNat, m ≤ (s.bufWord d j).toNat ∨ m ≤ (s.bufWord e j).toNat) →
      exec i s = .next (ended s .operandRange))

/-! ### Registers, host accesses and reset -/

/-- R26, R320: the fields of STATUS, the numbers of the ten status codes, and the one effect of a write to STATUS, BUSY or
not. -/
def Obligations.StatusFields : Prop :=
  ∀ s : State,
    (s.statusWord.extractLsb' 0 4).toNat = (match s.code with
      | .ok => 0
      | .invalidSize => 1
      | .invalidModulus => 2
      | .invalidRoot => 3
      | .notInvertible => 4
      | .sizeMismatch => 5
      | .operandRange => 6
      | .noContext => 7
      | .illegalCommand => 8
      | .domainMismatch => 9) ∧
    s.statusWord.extractLsb' 4 4 = 0 ∧
    s.statusWord.getLsbD 8 = s.latch.isSome ∧ s.statusWord.getLsbD 9 = s.ovr ∧
    s.statusWord.getLsbD 10 = s.tc.isSome ∧ s.statusWord.getLsbD 11 = s.mont.isSome ∧
    s.statusWord.getLsbD 12 = s.rns.isSome ∧ s.statusWord.extractLsb' 13 51 = 0 ∧
    s.readSlot .status = s.statusWord ∧
    ∀ v, s.hostWrite .status v = { s with ovr := s.ovr && !v.getLsbD 9 }

/-- R29, R46, R47, R350: at power-on no command is in progress, every register but CAPS reads 0, CAPS holds LOGN_MAX and
KMAX, and no byte of the buffers has been written. So it is in the power-on state, and after a power-on turn from any
state, which keeps the parameters. That power-on is a turn, its fresh RAM draw, and what becomes of the model's own
fields are the model's choice (A4, A7, A8). -/
def Obligations.PowerOnState : Prop :=
  (∀ p : Params, p.wellFormed = true →
    (State.powerOn p).latch = none ∧
    (∀ off, slotAt p off ≠ .caps → (∀ d i, slotAt p off ≠ .bufWord d i) →
      (State.powerOn p).readSlot (slotAt p off) = 0) ∧
    ((State.powerOn p).readSlot (slotAt p 0x000)).toNat = p.logNMax + 256 * p.kMax ∧
    ∀ a, (State.powerOn p).mem.lookup a = none) ∧
  ∀ (s : State) (rest : List Turn), s.params.wellFormed = true → s.agenda = .powerOn :: rest →
    ∃ t, step s = .next t ∧ t.latch = none ∧ t.params = s.params ∧
      (∀ off, slotAt s.params off ≠ .caps → (∀ d i, slotAt s.params off ≠ .bufWord d i) →
        t.readSlot (slotAt s.params off) = 0) ∧
      (t.readSlot (slotAt s.params 0x000)).toNat = s.params.logNMax + 256 * s.params.kMax ∧
      (∀ a, t.mem.lookup a = none) ∧ (∀ a, t.byteAt a = Config.powerOnByte (s.ramDraw + 1) a) ∧
      t.ramDraw = s.ramDraw + 1 ∧ t.draws = s.draws ∧ t.readData = s.readData ∧ t.agenda = rest

/-- R70, R71: an access outside the window faults, one in the window that is not 64 bits wide or not aligned is refused,
every other goes on. That an access outside the window faults is the model's choice (A14). -/
def Obligations.HostAccessStops : Prop :=
  ∀ (s : State) (a : Access),
    (a.addr < s.params.unitBase ∨ s.params.unitBase + 0x30000 ≤ a.addr → hostAccess a s = .fault .outsideWindow) ∧
    (∀ off, a.addr = s.params.unitBase + off → off < 0x30000 →
      (a.width ≠ 8 ∨ off % 8 ≠ 0 → hostAccess a s = .refused .unadmittedAccess) ∧
      (a.width = 8 → off % 8 = 0 → ∃ t, hostAccess a s = .next t))

/-- R75: a read changes nothing: only the value returned and, while BUSY, the count of free draws are different, both the
model's own (A5, A7). While idle it returns what the slot holds. -/
def Obligations.ReadsHaveNoSideEffect : Prop :=
  ∀ (s t : State) (off width : Nat), hostAccess (.read (s.params.unitBase + off) width) s = .next t →
    t = { s with readData := t.readData, draws := t.draws } ∧
    (s.latch = none → t = { s with readData := s.readSlot (slotAt s.params off) })

/-- R25, R28, R29, R31, R33, R34, R41, R46, R72, R73: what an idle read returns at every aligned offset of the window. The
registers of a context that is not held read 0, a buffer word carries byte lane k in bits 8k+7 : 8k, and every unmapped
slot reads 0. A read changes no state but `readData`, the model's own (A7). -/
def Obligations.IdleReadsFollowTheMap : Prop :=
  ∀ s : State, s.params.wellFormed = true → s.latch = none →
    let reads (off : Nat) (v : Word) : Prop :=
      hostAccess (.read (s.params.unitBase + off) 8) s = .next { s with readData := v }
    ((∃ v, reads 0x000 v ∧ v.toNat = s.params.logNMax + 256 * s.params.kMax) ∧ reads 0x008 0 ∧ reads 0x010 0 ∧
      reads 0x018 s.statusWord ∧ reads 0x020 s.kmod) ∧
    ((∀ i (_ : i < 8), reads (0x040 + 8 * i) s.op[i]) ∧ ∀ i (_ : i < 4), reads (0x080 + 8 * i) s.rs[i]) ∧
    ((∀ c, s.tc = some c → reads 0x0A0 c.tcM ∧ reads 0x0A8 c.tcN ∧ reads 0x0B0 c.tcRoot) ∧
      (s.tc = none → reads 0x0A0 0 ∧ reads 0x0A8 0 ∧ reads 0x0B0 0)) ∧
    ((∀ c, s.mont = some c →
        reads 0x0B8 c.montM ∧ reads 0x0C0 c.montR2 ∧ reads 0x0C8 c.montMP ∧ reads 0x0D0 c.montRInv) ∧
      (s.mont = none → reads 0x0B8 0 ∧ reads 0x0C0 0 ∧ reads 0x0C8 0 ∧ reads 0x0D0 0)) ∧
    ((∀ r, s.rns = some r → reads 0x0D8 r.rnsK ∧ reads 0x0E0 r.rnsMProd ∧ ∀ i < s.params.kMax,
        reads (0x400 + 8 * i) (slot r.rnsMod i) ∧ reads (0x480 + 8 * i) (slot r.rnsMi i) ∧
          reads (0x500 + 8 * i) (slot r.rnsMiInv i)) ∧
      (s.rns = none → reads 0x0D8 0 ∧ reads 0x0E0 0 ∧ ∀ i < s.params.kMax,
        reads (0x400 + 8 * i) 0 ∧ reads (0x480 + 8 * i) 0 ∧ reads (0x500 + 8 * i) 0)) ∧
    (reads 0x100 s.bufLen0 ∧ reads 0x108 s.bufLen1 ∧ reads 0x110 (if s.bufDom0 = .evaluation then 1 else 0) ∧
      reads 0x118 (if s.bufDom1 = .evaluation then 1 else 0)) ∧
    (reads 0x280 s.baseKIn ∧ ∀ i < s.params.kMax, reads (0x200 + 8 * i) (slot s.baseIn i) ∧
      reads (0x300 + 8 * i) (slot s.rv0 i) ∧ reads (0x380 + 8 * i) (slot s.rv1 i)) ∧
    (∀ base ∈ [0x10000, 0x20000], ∀ i < s.params.nMax, ∃ v, reads (base + 8 * i) v ∧
      ∀ k < 8, v.extractLsb' (8 * k) 8 = s.byteAt (base + 8 * i + k)) ∧
    ∀ off, off < 0x30000 → off % 8 = 0 → unmappedAt s.params off → reads off 0

/-- R46, R72, R75: while idle, a written register or buffer word reads back as written (BUF_DOM its bit 0 alone), every
other offset reads as before, and a write to a read-only or unmapped slot does nothing. -/
def Obligations.WritesLandWhereTheyAreRead : Prop :=
  ∀ (s t : State) (off : Nat) (v : Word), s.params.wellFormed = true → s.latch = none → off % 8 = 0 →
    off ≠ 0x008 → off ≠ 0x010 → hostAccess (.write (s.params.unitBase + off) 8 v) s = .next t →
    (readWrite (slotAt s.params off) = true → t.readSlot (slotAt s.params off) = v) ∧
    (∀ d, slotAt s.params off = .bufDom d → t.readSlot (.bufDom d) = v &&& 1) ∧
    (readOnly (slotAt s.params off) = true → t = s) ∧
    ∀ off', off' % 8 = 0 → off' ≠ off → off' < 0x30000 →
      t.readSlot (slotAt s.params off') = s.readSlot (slotAt s.params off')

/-- R100: a write of v to CMD while BUSY = 0 latches v and sets BUSY, and nothing else. -/
def Obligations.CmdWriteIssues : Prop :=
  ∀ (s : State) (v : Word), s.latch = none →
    hostAccess (.write (s.params.unitBase + 0x010) 8 v) s = .next { s with latch := some v } ∧
    ({ s with latch := some v } : State).statusWord.getLsbD 8 = true

/-- R362: the BUSY lockout: STATUS and CAPS read as ever, any other read is a free draw; a write to STATUS clears OVR when
bit 9 is 1, a write to CTRL resets when bit 0 is 1, any other write only sets OVR. That a free draw is
`Config.freeWord` of a count that the read advances is the model's choice (A5). -/
def Obligations.BusyLockout : Prop :=
  ∀ (s : State) (off : Nat) (v : Word), s.latch ≠ none → off < 0x30000 → off % 8 = 0 →
    (off = 0x018 → hostAccess (.read (s.params.unitBase + off) 8) s = .next { s with readData := s.statusWord }) ∧
    (off = 0x000 → hostAccess (.read (s.params.unitBase + off) 8) s =
      .next { s with readData := capsWord s.params }) ∧
    (off ≠ 0x018 → off ≠ 0x000 → hostAccess (.read (s.params.unitBase + off) 8) s =
      .next { s with readData := Config.freeWord s.draws, draws := s.draws + 1 }) ∧
    (off = 0x018 → hostAccess (.write (s.params.unitBase + off) 8 v) s =
      .next { s with ovr := s.ovr && !v.getLsbD 9 }) ∧
    (off = 0x008 → hostAccess (.write (s.params.unitBase + off) 8 v) s =
      .next (if v.getLsbD 0 = true then s.softReset else s)) ∧
    (off ≠ 0x018 → off ≠ 0x008 → hostAccess (.write (s.params.unitBase + off) 8 v) s = .next { s with ovr := true })

/-- R351: a write to CTRL with bit 0 = 1 resets at any time: every register but CAPS reads 0 after it, no command is in
progress, the first min(BUF_LEN, NMAX) words of the buffer that an abandoned command writes are unspecified, and every
other buffer word is unchanged. A write with bit 0 = 0 has no effect. That an unspecified word is the next free draw
`Config.freeWord` is the model's choice (A6). -/
def Obligations.SoftResetRule : Prop :=
  (∀ (s : State) (v : Word), s.params.wellFormed = true → v.getLsbD 0 = true → ∃ t,
    hostAccess (.write (s.params.unitBase + 0x008) 8 v) s = .next t ∧ t.latch = none ∧ t.params = s.params ∧
    (∀ off, slotAt s.params off ≠ .caps → (∀ d i, slotAt s.params off ≠ .bufWord d i) →
      t.readSlot (slotAt s.params off) = 0) ∧
    ∀ (d : Buf) (i : Nat), i < s.params.nMax →
      let abandoned := (∃ c, s.latch = some (commandValue c) ∧ destBuf c = some d) ∧ i < (s.bufLen d).toNat
      (abandoned → t.bufWord d i = Config.freeWord (s.draws + i)) ∧
        (¬ abandoned → t.bufWord d i = s.bufWord d i)) ∧
  ∀ (s : State) (v : Word), v.getLsbD 0 = false →
    hostAccess (.write (s.params.unitBase + 0x008) 8 v) s = .next s

/-! ### Invariants -/

/-- R30 to R34: every step keeps the parameters legal and every context that is held legal. -/
def Obligations.ContextsStayLegal : Prop :=
  ∀ s t : State, contextsLegal s → step s = .next t → contextsLegal t

/-- R40, R72: every step keeps the buffers' memory in canonical form and inside the buffers. The canonical form is the
model's own (A4). -/
def Obligations.MemoryStaysCanonical : Prop :=
  ∀ s t : State, contextsLegal s → memoryCanonical s → step s = .next t → contextsLegal t ∧ memoryCanonical t

/-- After R42, R72: every step keeps the slots at i ≥ KMAX of BASE_IN, RV0 and RV1 at 0. That State has these slots, which
do not exist on the unit, and that they hold 0 is the model's choice (A11). -/
def Obligations.SpareSlotsStayZero : Prop :=
  ∀ s t : State, contextsLegal s → spareSlotsZero s → step s = .next t → contextsLegal t ∧ spareSlotsZero t

/-- R350: the power-on state of a unit with legal parameters, and State.reset, meet the invariants. The parameters of
State.reset, the canonical form of the memory, and the spare slots with their 0 are the model's choices (A3, A4, A11). -/
def Obligations.PowerOnMeetsTheInvariants : Prop :=
  (∀ p : Params, p.wellFormed = true → contextsLegal (State.powerOn p) ∧ memoryCanonical (State.powerOn p) ∧
    spareSlotsZero (State.powerOn p)) ∧
  contextsLegal State.reset ∧ memoryCanonical State.reset ∧ spareSlotsZero State.reset
end

