-- ==== Sys2Proof/Laws/AddressMap.lean ====
section
/-! SUPPORT. The address map read backwards (which offset a slot stands at) and forwards (what stands at an offset), after
R46 and R72. -/

namespace Sys2Proof.Laws

open Sys2Proof.Machine Sys2Proof.Safety

/-- The window offset of a slot's word; the unmapped slots have none of their own (R46, R72). -/
def slotOffset : Slot → Option Nat
  | .caps => some 0x000
  | .ctrl => some 0x008
  | .cmd => some 0x010
  | .status => some 0x018
  | .kmod => some 0x020
  | .op i => some (0x040 + 8 * i)
  | .rs i => some (0x080 + 8 * i)
  | .tcM => some 0x0A0
  | .tcN => some 0x0A8
  | .tcRoot => some 0x0B0
  | .montM => some 0x0B8
  | .montR2 => some 0x0C0
  | .montMP => some 0x0C8
  | .montRInv => some 0x0D0
  | .rnsK => some 0x0D8
  | .rnsMProd => some 0x0E0
  | .bufLen .b0 => some 0x100
  | .bufLen .b1 => some 0x108
  | .bufDom .b0 => some 0x110
  | .bufDom .b1 => some 0x118
  | .baseIn i => some (0x200 + 8 * i)
  | .baseKIn => some 0x280
  | .rv .v0 i => some (0x300 + 8 * i)
  | .rv .v1 i => some (0x380 + 8 * i)
  | .rnsMod i => some (0x400 + 8 * i)
  | .rnsMi i => some (0x480 + 8 * i)
  | .rnsMiInv i => some (0x500 + 8 * i)
  | .bufWord d i => some (bufBase d + 8 * i)
  | .unmapped => none

/-- An index of an array slot is below the array's length. -/
def slotIndexOk (p : Params) : Slot → Prop
  | .op i => i < 8
  | .rs i => i < 4
  | .baseIn i | .rv _ i | .rnsMod i | .rnsMi i | .rnsMiInv i => i < p.kMax
  | .bufWord _ i => i < p.nMax
  | _ => True

/-- An aligned offset in an array is that of one of its words. -/
theorem inArray_index {base count off : Nat} (h : inArray base count off = true) (h8 : off % 8 = 0) (hb : base % 8 = 0) :
    off = base + 8 * ((off - base) / 8) ∧ (off - base) / 8 < count := by
  simp only [inArray, Bool.and_eq_true, decide_eq_true_eq] at h
  omega

/-- A slot that can stand at `off`: a legal index, and `off` where the slot has an offset of its own. -/
def standsAt (p : Params) (off : Nat) (x : Slot) : Prop :=
  slotIndexOk p x ∧ ∀ o, slotOffset x = some o → off = o

theorem standsAt_ite {p : Params} {off : Nat} {c : Prop} [Decidable c] {x y : Slot} (hx : c → standsAt p off x)
    (hy : standsAt p off y) : standsAt p off (if c then x else y) := by
  by_cases h : c
  · rw [if_pos h]; exact hx h
  · rw [if_neg h]; exact hy

/-- What `arraySlot` can answer for an aligned offset. -/
theorem arraySlot_spec (p : Params) (off : Nat) (h8 : off % 8 = 0) : standsAt p off (arraySlot p off) := by
  rw [arraySlot]
  iterate 10
    refine standsAt_ite (fun h => ?_) ?_
    · have := inArray_index h h8 (by decide)
      exact ⟨this.2, fun o ho => this.1.trans (Option.some.inj ho)⟩
  exact ⟨trivial, fun o ho => nomatch ho⟩

/-- Everything the address map can answer for an aligned offset: an array slot has a legal index, and every slot but an
unmapped one stands at this offset. -/
theorem slotAt_spec (p : Params) (off : Nat) (h8 : off % 8 = 0) :
    standsAt p off (slotAt p off) := by
  unfold slotAt
  split
  case h_20 => exact arraySlot_spec p off h8
  all_goals exact ⟨trivial, fun o ho => Option.some.inj ho⟩
/-- No mapped slot stands at two aligned offsets. -/
theorem slotAt_injective (p : Params) {a b : Nat} (ha : a % 8 = 0) (hb : b % 8 = 0) (h : slotAt p a = slotAt p b) :
    a = b ∨ slotAt p a = .unmapped := by
  cases ho : slotOffset (slotAt p a) with
  | some o => exact .inl ((slotAt_spec p a ha).2 o ho |>.trans ((slotAt_spec p b hb).2 o (h ▸ ho)).symm)
  | none =>
    refine .inr ?_
    revert ho
    cases slotAt p a with
    | unmapped => exact fun _ => rfl
    | bufLen d => cases d <;> (intro ho; cases ho)
    | bufDom d => cases d <;> (intro ho; cases ho)
    | rv d i => cases d <;> (intro ho; cases ho)
    | _ => intro ho; cases ho

/-! ### The map read forwards -/

/-- An offset that is no register outside the arrays is looked up in the arrays. -/
theorem slotAt_eq_arraySlot (p : Params) {off : Nat}
    (h : (0x120 ≤ off ∧ off < 0x280) ∨ 0x288 ≤ off ∨ (0x028 ≤ off ∧ off < 0x0A0) ∨ (0x0E8 ≤ off ∧ off < 0x100)) :
    slotAt p off = arraySlot p off := by
  unfold slotAt
  split <;> first | omega | rfl

theorem inArray_word {base count i : Nat} (h : i < count) : inArray base count (base + 8 * i) = true := by
  simp only [inArray, Bool.and_eq_true, decide_eq_true_eq]
  omega

theorem inArray_outside {base count off : Nat} (h : off < base ∨ base + 8 * count ≤ off) :
    inArray base count off = false := by
  simp only [inArray, Bool.and_eq_false_iff, decide_eq_false_iff_not]
  omega

/-- The index of word `i` of an array. -/
@[simp] theorem word_index (base i : Nat) : (base + 8 * i - base) / 8 = i := by omega

/-- Legal parameters keep the arrays and the buffers apart (R7, R72). -/
theorem wellFormed_bounds {p : Params} (h : p.wellFormed = true) : p.kMax ≤ 16 ∧ p.nMax ≤ 8192 := by
  simp only [Params.wellFormed, Bool.and_eq_true, decide_eq_true_eq] at h
  exact ⟨h.2, Nat.pow_le_pow_right (by decide) h.1.1.2⟩

theorem slotAt_op {p : Params} {i : Nat} (hi : i < 8) :
    slotAt p (0x040 + 8 * i) = .op i := by
  rw [slotAt_eq_arraySlot p (by omega), arraySlot]
  rw [inArray_word hi, if_pos rfl, word_index]

theorem slotAt_rs {p : Params} {i : Nat} (hi : i < 4) :
    slotAt p (0x080 + 8 * i) = .rs i := by
  rw [slotAt_eq_arraySlot p (by omega), arraySlot]
  rw [inArray_outside (by omega), if_neg Bool.false_ne_true]
  rw [inArray_word hi, if_pos rfl, word_index]

theorem slotAt_baseIn {p : Params} (hp : p.wellFormed = true) {i : Nat} (hi : i < p.kMax) :
    slotAt p (0x200 + 8 * i) = .baseIn i := by
  obtain ⟨hk, hn⟩ := wellFormed_bounds hp
  rw [slotAt_eq_arraySlot p (by omega), arraySlot]
  iterate 2 rw [inArray_outside (by omega), if_neg Bool.false_ne_true]
  rw [inArray_word hi, if_pos rfl, word_index]

theorem slotAt_rv_v0 {p : Params} (hp : p.wellFormed = true) {i : Nat} (hi : i < p.kMax) :
    slotAt p (0x300 + 8 * i) = .rv .v0 i := by
  obtain ⟨hk, hn⟩ := wellFormed_bounds hp
  rw [slotAt_eq_arraySlot p (by omega), arraySlot]
  iterate 3 rw [inArray_outside (by omega), if_neg Bool.false_ne_true]
  rw [inArray_word hi, if_pos rfl, word_index]

theorem slotAt_rv_v1 {p : Params} (hp : p.wellFormed = true) {i : Nat} (hi : i < p.kMax) :
    slotAt p (0x380 + 8 * i) = .rv .v1 i := by
  obtain ⟨hk, hn⟩ := wellFormed_bounds hp
  rw [slotAt_eq_arraySlot p (by omega), arraySlot]
  iterate 4 rw [inArray_outside (by omega), if_neg Bool.false_ne_true]
  rw [inArray_word hi, if_pos rfl, word_index]

theorem slotAt_rnsMod {p : Params} (hp : p.wellFormed = true) {i : Nat} (hi : i < p.kMax) :
    slotAt p (0x400 + 8 * i) = .rnsMod i := by
  obtain ⟨hk, hn⟩ := wellFormed_bounds hp
  rw [slotAt_eq_arraySlot p (by omega), arraySlot]
  iterate 5 rw [inArray_outside (by omega), if_neg Bool.false_ne_true]
  rw [inArray_word hi, if_pos rfl, word_index]

theorem slotAt_rnsMi {p : Params} (hp : p.wellFormed = true) {i : Nat} (hi : i < p.kMax) :
    slotAt p (0x480 + 8 * i) = .rnsMi i := by
  obtain ⟨hk, hn⟩ := wellFormed_bounds hp
  rw [slotAt_eq_arraySlot p (by omega), arraySlot]
  iterate 6 rw [inArray_outside (by omega), if_neg Bool.false_ne_true]
  rw [inArray_word hi, if_pos rfl, word_index]

theorem slotAt_rnsMiInv {p : Params} (hp : p.wellFormed = true) {i : Nat} (hi : i < p.kMax) :
    slotAt p (0x500 + 8 * i) = .rnsMiInv i := by
  obtain ⟨hk, hn⟩ := wellFormed_bounds hp
  rw [slotAt_eq_arraySlot p (by omega), arraySlot]
  iterate 7 rw [inArray_outside (by omega), if_neg Bool.false_ne_true]
  rw [inArray_word hi, if_pos rfl, word_index]

theorem slotAt_bufWord_b0 {p : Params} (hp : p.wellFormed = true) {i : Nat} (hi : i < p.nMax) :
    slotAt p (bufBase .b0 + 8 * i) = .bufWord .b0 i := by
  obtain ⟨hk, hn⟩ := wellFormed_bounds hp
  rw [slotAt_eq_arraySlot p (by simp only [bufBase]; omega), arraySlot]
  iterate 8 rw [inArray_outside (by simp only [bufBase]; omega), if_neg Bool.false_ne_true]
  rw [inArray_word hi, if_pos rfl, word_index]

theorem slotAt_bufWord_b1 {p : Params} (hp : p.wellFormed = true) {i : Nat} (hi : i < p.nMax) :
    slotAt p (bufBase .b1 + 8 * i) = .bufWord .b1 i := by
  obtain ⟨hk, hn⟩ := wellFormed_bounds hp
  rw [slotAt_eq_arraySlot p (by simp only [bufBase]; omega), arraySlot]
  iterate 9 rw [inArray_outside (by simp only [bufBase]; omega), if_neg Bool.false_ne_true]
  rw [inArray_word hi, if_pos rfl, word_index]

theorem slotAt_unmapped {p : Params} (hp : p.wellFormed = true) {off : Nat} (h : unmappedAt p off) :
    slotAt p off = .unmapped := by
  obtain ⟨hk, hn⟩ := wellFormed_bounds hp
  unfold unmappedAt at h
  rw [slotAt_eq_arraySlot p (by omega), arraySlot]
  iterate 10 rw [inArray_outside (by first | omega | (simp only [bufBase]; omega)), if_neg Bool.false_ne_true]

end Sys2Proof.Laws
end

