-- ==== Sys2Proof/Laws/Arith.lean ====
section
/-! SUPPORT. What the shared arithmetic functions compute: exponentiation, the Euclid loop and the inverse, the bit
reversal and its permutation. -/

namespace Sys2Proof.Laws

open Sys2Proof.Machine

/-! ### Exponentiation -/

/-- The loop of R134 on an exponent of at most `k` bits. -/
theorem powLoop_eq (k b e r m : Nat) (he : e < 2 ^ k) (hr : r % m = r) : powLoop k b e r m = r * b ^ e % m := by
  induction k generalizing b e r with
  | zero =>
    have : e = 0 := by omega
    subst this
    simp [powLoop, hr]
  | succ k ih =>
    simp only [powLoop]
    split
    · rename_i h
      subst h
      simp [hr]
    · have hhalf : e / 2 < 2 ^ k := by rw [Nat.pow_succ] at he; omega
      rw [ih _ _ _ hhalf (by split <;> simp [mulmod, hr])]
      have key : b ^ e = (b * b) ^ (e / 2) * b ^ (e % 2) := by
        rw [← Nat.pow_two, ← Nat.pow_mul, ← Nat.pow_add, Nat.div_add_mod]
      rcases Nat.mod_two_eq_zero_or_one e with h2 | h2
      · rw [if_neg (by omega), key, h2, Nat.pow_zero, Nat.mul_one]
        simp only [mulmod]
        conv_lhs => rw [Nat.mul_mod, ← Nat.pow_mod, ← Nat.mul_mod]
      · rw [if_pos h2, key, h2, Nat.pow_one]
        simp only [mulmod]
        conv_lhs => rw [Nat.mul_mod, ← Nat.pow_mod, ← Nat.mul_mod, Nat.mul_mod, Nat.mod_mod, ← Nat.mul_mod]
        congr 1
        ring

/-- `powmod` is the power reduced, for every 64-bit exponent (R13). -/
theorem powmod_eq (x e m : Nat) (he : e < 2 ^ 64) : powmod x e m = x ^ e % m := by
  rw [powmod, powLoop_eq 64 x e (1 % m) m he (Nat.mod_mod _ _), Nat.mod_mul_mod, Nat.one_mul]

/-! ### Differences -/

/-- `submod` of residues: it takes the modulus on top where the difference is negative (R132). -/
theorem submod_eq {a b m : Nat} (ha : a < m) (hb : b < m) : submod a b m = if b ≤ a then a - b else a + m - b := by
  unfold submod
  split
  · rename_i h
    rw [← Int.ofNat_sub h, Int.ofNat_mod_ofNat, Int.toNat_natCast, Nat.mod_eq_of_lt (by omega)]
  · rename_i h
    have : ((a : Int) - b) % m = ((a + m - b : Nat) : Int) := by
      rw [← Int.add_emod_right, Int.ofNat_sub (by omega)]
      push_cast
      rw [Int.emod_eq_of_lt (by omega) (by omega)]
      ring
    rw [this, Int.toNat_natCast]

/-! ### The Euclid loop -/

/-- The loop of R136 with enough steps: it ends at the gcd, and keeps `a * t` congruent to the remainder. -/
theorem euclidLoop_spec (j : Nat) : ∀ (steps r0 r1 : Nat) (t0 t1 a m : Int), r1 < 2 ^ j → 2 * j ≤ steps →
    m ∣ a * t0 - r0 → m ∣ a * t1 - r1 →
    (euclidLoop steps r0 r1 t0 t1).1 = Nat.gcd r0 r1 ∧
      m ∣ a * (euclidLoop steps r0 r1 t0 t1).2 - (Nat.gcd r0 r1 : Nat) := by
  induction j with
  | zero =>
    intro steps r0 r1 t0 t1 a m h _ h0 _
    have : r1 = 0 := by omega
    subst this
    cases steps <;> simp [euclidLoop, h0]
  | succ j ih =>
    intro steps r0 r1 t0 t1 a m h hs h0 h1
    obtain ⟨s, rfl⟩ : ∃ s, steps = s + 2 := ⟨steps - 2, by omega⟩
    have next (x y : Nat) (u v : Int) (hu : m ∣ a * u - x) (hv : m ∣ a * v - y) :
        m ∣ a * (u - (x / y : Nat) * v) - ((x - x / y * y : Nat) : Int) := by
      have hle : x / y * y ≤ x := Nat.div_mul_le_self x y
      have : a * (u - (x / y : Nat) * v) - ((x - x / y * y : Nat) : Int) =
          (a * u - x) - (x / y : Nat) * (a * v - y) := by
        rw [Int.ofNat_sub hle]
        push_cast
        ring
      rw [this]
      exact dvd_sub hu (hv.mul_left _)
    have rem (x y : Nat) : x - x / y * y = x % y := by
      rw [Nat.mul_comm, Nat.mod_eq_sub_mul_div]
    by_cases hr : r1 = 0
    · subst hr
      simp [euclidLoop, h0]
    · by_cases hr2 : r0 % r1 = 0
      · have hg : Nat.gcd r0 r1 = r1 := by
          rw [Nat.gcd_comm, Nat.gcd_rec, hr2, Nat.gcd_zero_left]
        simp only [euclidLoop, if_neg hr, rem, hr2, if_true, hg]
        exact ⟨trivial, h1⟩
      · have hpos : 0 < r1 := Nat.pos_of_ne_zero hr
        have hlt : r0 % r1 < r1 := Nat.mod_lt _ hpos
        have hsmall : r1 % (r0 % r1) < 2 ^ j := by
          have h2 : r1 % (r0 % r1) < r0 % r1 := Nat.mod_lt _ (Nat.pos_of_ne_zero hr2)
          have h3 : r0 % r1 + r1 % (r0 % r1) ≤ r1 := by
            have h4 := Nat.div_add_mod r1 (r0 % r1)
            have h5 : 1 ≤ r1 / (r0 % r1) := (Nat.one_le_div_iff (Nat.pos_of_ne_zero hr2)).mpr hlt.le
            have h6 : r0 % r1 * 1 ≤ r0 % r1 * (r1 / (r0 % r1)) := Nat.mul_le_mul_left _ h5
            omega
          rw [Nat.pow_succ] at h
          omega
        have hn1 := next r0 r1 t0 t1 h0 h1
        have hn2 := next r1 (r0 - r0 / r1 * r1) t1 _ h1 hn1
        have hg : Nat.gcd r0 r1 = Nat.gcd (r0 % r1) (r1 % (r0 % r1)) := by
          rw [Nat.gcd_comm r0 r1, Nat.gcd_rec r1 r0, Nat.gcd_rec (r0 % r1) r1, Nat.gcd_comm]
        have := ih s (r0 % r1) (r1 % (r0 % r1)) (t0 - (r0 / r1 : Nat) * t1)
          (t1 - (r1 / (r0 % r1) : Nat) * (t0 - (r0 / r1 : Nat) * t1)) a m hsmall (by omega)
          (by rw [← rem r0 r1]; exact hn1)
          (by rw [rem r0 r1] at hn2; rw [← rem r1 (r0 % r1)]; exact hn2)
        rw [hg]
        simpa only [euclidLoop, if_neg hr, rem, if_neg hr2] using this

/-- `euclid a m` answers gcd(a, m) and a multiplier that gives it modulo m, for every 64-bit a (R136). -/
theorem euclid_spec (a m : Nat) (ha : a < 2 ^ 64) :
    (euclid a m).1 = Nat.gcd a m ∧ (m : Int) ∣ a * (euclid a m).2 - (Nat.gcd a m : Nat) := by
  have := euclidLoop_spec 64 euclidSteps m a 0 1 a m ha (by decide) (by simp) (by simp)
  rw [Nat.gcd_comm a m]
  exact this

/-- `invmod a m` is the inverse of a modulo m, for every 64-bit a that has one (R13). -/
theorem invmod_spec (a m : Nat) (ha : a < 2 ^ 64) (hm : 2 ≤ m) (hg : Nat.gcd a m = 1) :
    invmod a m < m ∧ a * invmod a m % m = 1 := by
  obtain ⟨-, h⟩ := euclid_spec a m ha
  rw [hg] at h
  have hm0 : (m : Int) ≠ 0 := by omega
  have hnn := Int.emod_nonneg (euclid a m).2 hm0
  have hlt := Int.emod_lt_of_pos (euclid a m).2 (show (0 : Int) < m by omega)
  refine ⟨by unfold invmod; omega, ?_⟩
  have hz : ((a * invmod a m : Nat) : Int) % m = 1 := by
    have hd : (m : Int) ∣ ((a * invmod a m : Nat) : Int) - 1 := by
      have h1 : ((invmod a m : Nat) : Int) = (euclid a m).2 % m := Int.toNat_of_nonneg hnn
      have h2 := Int.emod_add_mul_ediv (euclid a m).2 m
      have h3 : ((a * invmod a m : Nat) : Int) - 1 =
          (a * (euclid a m).2 - (1 : Nat)) - m * (a * ((euclid a m).2 / m)) := by
        push_cast
        rw [h1]
        linear_combination (a : Int) * h2
      rw [h3]
      exact dvd_sub h (dvd_mul_right _ _)
    have h4 := Int.emod_emod_of_dvd ((a * invmod a m : Nat) : Int) (dvd_refl (m : Int))
    have := (Int.emod_emod_of_dvd 1 (dvd_refl (m : Int)))
    rw [Int.ModEq.symm ((Int.modEq_iff_dvd).mpr hd)]
    exact Int.emod_eq_of_lt (by omega) (by omega)
  exact_mod_cast hz

/-! ### The bit reversal -/

/-- One bit at a time: the lowest bit of i goes to bit b (R13). -/
theorem bitrev_succ (b i : Nat) : bitrev (b + 1) i = (i % 2) * 2 ^ b + bitrev b (i / 2) := by
  simp only [bitrev, List.range_succ_eq_map, List.map_cons, List.map_map, List.sum_cons]
  congr 1
  · simp [Nat.shiftLeft_eq]
  · congr 1
    refine List.map_congr_left fun t ht => ?_
    have h1 : b + 1 - 1 - (t + 1) = b - 1 - t := by omega
    simp only [Function.comp_apply, Nat.succ_eq_add_one, h1]
    congr 2
    rw [Nat.shiftRight_eq_div_pow, Nat.shiftRight_eq_div_pow, Nat.pow_succ', Nat.div_div_eq_div_mul]

/-- The bit reversal stays below 2^b. -/
theorem bitrev_lt (b i : Nat) : bitrev b i < 2 ^ b := by
  induction b generalizing i with
  | zero => simp [bitrev]
  | succ b ih =>
    have h1 := ih (i / 2)
    have h2 : i % 2 * 2 ^ b ≤ 1 * 2 ^ b := Nat.mul_le_mul_right _ (by omega)
    rw [bitrev_succ, Nat.pow_succ]
    omega

/-- Bit t of the reversal is bit b - 1 - t (R13). -/
theorem bitrev_testBit (b i t : Nat) : (bitrev b i).testBit t = (decide (t < b) && i.testBit (b - 1 - t)) := by
  induction b generalizing i t with
  | zero => simp [bitrev]
  | succ b ih =>
    have hlt := bitrev_lt b (i / 2)
    rw [bitrev_succ]
    rcases Nat.lt_trichotomy t b with h | rfl | h
    · rw [Nat.mul_comm, Nat.testBit_two_pow_mul_add _ hlt, if_pos h, ih]
      have : b + 1 - 1 - t = b - 1 - t + 1 := by omega
      rw [this, Nat.testBit_succ]
      simp [h, Nat.lt_succ_of_lt h]
    · rw [Nat.mul_comm, Nat.testBit_two_pow_mul_add _ hlt, if_neg (Nat.lt_irrefl _)]
      simp [Nat.testBit_zero]
    · rw [Nat.mul_comm, Nat.testBit_two_pow_mul_add _ hlt, if_neg (by omega)]
      have h1 : ¬ t < b + 1 := by omega
      have h2 : (i % 2).testBit (t - b) = false := by
        apply Nat.testBit_lt_two_pow
        have : 2 ^ 1 ≤ 2 ^ (t - b) := Nat.pow_le_pow_right (by omega) (by omega)
        omega
      simp [h1, h2]

/-- The bit reversal is its own inverse (R198). -/
theorem bitrev_bitrev (b i : Nat) (hi : i < 2 ^ b) : bitrev b (bitrev b i) = i := by
  refine Nat.eq_of_testBit_eq fun t => ?_
  rw [bitrev_testBit, bitrev_testBit]
  by_cases h : t < b
  · have h1 : b - 1 - t < b := by omega
    have h2 : b - 1 - (b - 1 - t) = t := by omega
    simp [h, h1, h2]
  · have h3 : i.testBit t = false :=
      Nat.testBit_lt_two_pow (Nat.lt_of_lt_of_le hi (Nat.pow_le_pow_right (by omega) (by omega)))
    simp [h, h3]

/-! ### The permutation -/

@[simp] theorem swapAt_length {α : Type} (a : List α) (i j : Nat) : (swapAt a i j).length = a.length := by
  unfold swapAt
  split <;> simp

/-- A swap: each of the two places has the other's element, every other place its own. -/
theorem swapAt_getElem? {α : Type} (a : List α) {i j : Nat} (hi : i < a.length) (hj : j < a.length) (k : Nat) :
    (swapAt a i j)[k]? = if k = j then a[i]? else if k = i then a[j]? else a[k]? := by
  have h : swapAt a i j = (a.set i a[j]).set j a[i] := by simp [swapAt, hi, hj]
  rw [h, List.getElem?_set]
  by_cases h1 : k = j
  · subst h1
    simp [hi, hj]
  · rw [if_neg (Ne.symm h1), if_neg h1, List.getElem?_set]
    by_cases h2 : k = i
    · subst h2
      simp [hi, hj]
    · rw [if_neg (Ne.symm h2), if_neg h2]

@[simp] theorem brperm_length {α : Type} (b : Nat) (a : List α) : (brperm b a).length = a.length := by
  unfold brperm
  generalize List.range a.length = is
  have : ∀ x : List α, (is.foldl (fun x i => if i < bitrev b i then swapAt x i (bitrev b i) else x) x).length =
      x.length := by
    induction is with
    | nil => intro x; rfl
    | cons i is ih =>
      intro x
      rw [List.foldl_cons, ih]
      split <;> simp
  exact this a

/-- The swaps for the indices below `n`: an element is in its final place once the smaller index of its pair is done. -/
theorem brperm_prefix {α : Type} (b : Nat) (a : List α) (ha : a.length = 2 ^ b) (n : Nat) (hn : n ≤ 2 ^ b) (k : Nat)
    (hk : k < 2 ^ b) :
    ((List.range n).foldl (fun x i => if i < bitrev b i then swapAt x i (bitrev b i) else x) a)[k]? =
        (if min k (bitrev b k) < n then a[bitrev b k]? else a[k]?) ∧
      ((List.range n).foldl (fun x i => if i < bitrev b i then swapAt x i (bitrev b i) else x) a).length = 2 ^ b := by
  induction n generalizing k with
  | zero => simp [ha]
  | succ n ih =>
    have hlen := (ih (by omega) k hk).2
    have hrn := bitrev_lt b n
    have hrr := bitrev_bitrev b n (by omega)
    have hkk := bitrev_bitrev b k hk
    rw [List.range_succ, List.foldl_append, List.foldl_cons, List.foldl_nil]
    set x := (List.range n).foldl (fun x i => if i < bitrev b i then swapAt x i (bitrev b i) else x) a with hx
    have ihn := fun k hk => (ih (by omega) k hk).1
    by_cases hsw : n < bitrev b n
    · rw [if_pos hsw]
      refine ⟨?_, by simp [hlen]⟩
      rw [swapAt_getElem? x (by omega) (by omega)]
      by_cases h1 : k = bitrev b n
      · subst h1
        rw [if_pos rfl, hrr, ihn n (by omega), if_neg (by omega), if_pos (by omega)]
      · rw [if_neg h1]
        by_cases h2 : k = n
        · subst h2
          rw [if_pos rfl, ihn _ hrn, hrr, if_neg (by omega), if_pos (by omega)]
        · rw [if_neg h2, ihn k hk]
          have h3 : bitrev b k ≠ n := fun h => h1 (by rw [← h, hkk])
          by_cases h4 : min k (bitrev b k) < n
          · rw [if_pos h4, if_pos (by omega)]
          · rw [if_neg h4, if_neg (by omega)]
    · rw [if_neg hsw]
      refine ⟨?_, hlen⟩
      rw [ihn k hk]
      by_cases h4 : min k (bitrev b k) < n
      · rw [if_pos h4, if_pos (by omega)]
      · rw [if_neg h4]
        split
        · rename_i h5
          have h6 : min k (bitrev b k) = n := by omega
          rcases Nat.le_total k (bitrev b k) with h7 | h7
          · have h8 : k = n := by omega
            subst h8
            have : bitrev b k = k := by omega
            rw [this]
          · have h8 : bitrev b k = n := by omega
            have h9 : bitrev b n = k := by rw [← h8, hkk]
            have : bitrev b k = k := by omega
            rw [this]
        · rfl

/-- What the bit-reversal network computes: `out[k] = a[bitrev_b(k)]` (R198). -/
theorem brperm_getElem? {α : Type} (b : Nat) (a : List α) (ha : a.length = 2 ^ b) (k : Nat) (hk : k < 2 ^ b) :
    (brperm b a)[k]? = a[bitrev b k]? := by
  have h := (brperm_prefix b a ha a.length ha.le k hk).1
  rw [if_pos (by omega)] at h
  exact h

end Sys2Proof.Laws
end

