-- ==== Sys2Proof/Laws/Conclude.lean ====
section
/-! SUPPORT. How a command ends: which check it reports, and the two states it can leave. -/

namespace Sys2Proof.Laws

open Sys2Proof.Machine

@[simp] theorem firstFailure_nil : firstFailure [] = none := rfl

@[simp] theorem firstFailure_cons (c : Check) (cs : List Check) :
    firstFailure (c :: cs) = if c.failed then some c.code else firstFailure cs := rfl

/-- No failure is reported exactly when no check fails. -/
theorem firstFailure_eq_none_iff (cs : List Check) : firstFailure cs = none ↔ ∀ c ∈ cs, c.failed = false := by
  induction cs with
  | nil => simp
  | cons c cs ih => cases h : c.failed <;> simp [h, ih]

/-- The reported code is that of a failing check with no failing check before it (R322). -/
theorem firstFailure_eq_some {cs : List Check} {e : Code} (h : firstFailure cs = some e) :
    ∃ pre c post, cs = pre ++ c :: post ∧ (∀ x ∈ pre, x.failed = false) ∧ c.failed = true ∧ c.code = e := by
  induction cs with
  | nil => cases h
  | cons c cs ih =>
    cases hc : c.failed with
    | true => exact ⟨[], c, cs, rfl, by simp, hc, by simpa [hc] using h⟩
    | false =>
      obtain ⟨pre, c', post, rfl, hpre, hc', he⟩ := ih (by simpa [hc] using h)
      exact ⟨c :: pre, c', post, rfl, by simpa [hc] using hpre, hc', he⟩

/-- With every check passed a command completes. -/
theorem conclude_passed {cs : List Check} (done failed : State) (h : firstFailure cs = none) :
    conclude cs done failed = .next { done with code := .ok, latch := none } := by
  simp only [conclude, h, State.complete]

/-- With a failing check a command raises the first one's code. -/
theorem conclude_failed {cs : List Check} {e : Code} (done failed : State) (h : firstFailure cs = some e) :
    conclude cs done failed = .next { failed with code := e, latch := none } := by
  simp only [conclude, h, State.raise]

/-- Everything a command's end can do. -/
theorem conclude_cases {cs : List Check} {done failed t : State} (h : conclude cs done failed = .next t) :
    (firstFailure cs = none ∧ t = { done with code := .ok, latch := none }) ∨
      ∃ e, firstFailure cs = some e ∧ t = { failed with code := e, latch := none } := by
  cases hf : firstFailure cs with
  | none =>
    rw [conclude_passed done failed hf] at h
    exact .inl ⟨rfl, by cases h; rfl⟩
  | some e =>
    rw [conclude_failed done failed hf] at h
    exact .inr ⟨e, rfl, by cases h; rfl⟩

end Sys2Proof.Laws
end

