-- ==== Sys2Proof/Laws/State.lean ====
section
/-! SUPPORT. One lemma for each field under each named update of the state, true by unfolding, so that no later proof
unfolds a record update. A lemma's name says update and field. -/

namespace Sys2Proof.Laws

open Sys2Proof.Machine


/-! ### setRs0 -/

@[simp] theorem setRs0_params (s : State) (v : Word) : (s.setRs0 v).params = s.params := rfl
@[simp] theorem setRs0_latch (s : State) (v : Word) : (s.setRs0 v).latch = s.latch := rfl
@[simp] theorem setRs0_code (s : State) (v : Word) : (s.setRs0 v).code = s.code := rfl
@[simp] theorem setRs0_ovr (s : State) (v : Word) : (s.setRs0 v).ovr = s.ovr := rfl
@[simp] theorem setRs0_kmod (s : State) (v : Word) : (s.setRs0 v).kmod = s.kmod := rfl
@[simp] theorem setRs0_op (s : State) (v : Word) : (s.setRs0 v).op = s.op := rfl
@[simp] theorem setRs0_rs (s : State) (v : Word) : (s.setRs0 v).rs = s.rs.set 0 v := rfl
@[simp] theorem setRs0_tc (s : State) (v : Word) : (s.setRs0 v).tc = s.tc := rfl
@[simp] theorem setRs0_mont (s : State) (v : Word) : (s.setRs0 v).mont = s.mont := rfl
@[simp] theorem setRs0_rns (s : State) (v : Word) : (s.setRs0 v).rns = s.rns := rfl
@[simp] theorem setRs0_bufLen0 (s : State) (v : Word) : (s.setRs0 v).bufLen0 = s.bufLen0 := rfl
@[simp] theorem setRs0_bufLen1 (s : State) (v : Word) : (s.setRs0 v).bufLen1 = s.bufLen1 := rfl
@[simp] theorem setRs0_bufDom0 (s : State) (v : Word) : (s.setRs0 v).bufDom0 = s.bufDom0 := rfl
@[simp] theorem setRs0_bufDom1 (s : State) (v : Word) : (s.setRs0 v).bufDom1 = s.bufDom1 := rfl
@[simp] theorem setRs0_baseIn (s : State) (v : Word) : (s.setRs0 v).baseIn = s.baseIn := rfl
@[simp] theorem setRs0_baseKIn (s : State) (v : Word) : (s.setRs0 v).baseKIn = s.baseKIn := rfl
@[simp] theorem setRs0_rv0 (s : State) (v : Word) : (s.setRs0 v).rv0 = s.rv0 := rfl
@[simp] theorem setRs0_rv1 (s : State) (v : Word) : (s.setRs0 v).rv1 = s.rv1 := rfl
@[simp] theorem setRs0_mem (s : State) (v : Word) : (s.setRs0 v).mem = s.mem := rfl
@[simp] theorem setRs0_ramDraw (s : State) (v : Word) : (s.setRs0 v).ramDraw = s.ramDraw := rfl
@[simp] theorem setRs0_draws (s : State) (v : Word) : (s.setRs0 v).draws = s.draws := rfl
@[simp] theorem setRs0_readData (s : State) (v : Word) : (s.setRs0 v).readData = s.readData := rfl
@[simp] theorem setRs0_agenda (s : State) (v : Word) : (s.setRs0 v).agenda = s.agenda := rfl

/-! ### setRs01 -/

@[simp] theorem setRs01_params (s : State) (v0 v1 : Word) : (s.setRs01 v0 v1).params = s.params := rfl
@[simp] theorem setRs01_latch (s : State) (v0 v1 : Word) : (s.setRs01 v0 v1).latch = s.latch := rfl
@[simp] theorem setRs01_code (s : State) (v0 v1 : Word) : (s.setRs01 v0 v1).code = s.code := rfl
@[simp] theorem setRs01_ovr (s : State) (v0 v1 : Word) : (s.setRs01 v0 v1).ovr = s.ovr := rfl
@[simp] theorem setRs01_kmod (s : State) (v0 v1 : Word) : (s.setRs01 v0 v1).kmod = s.kmod := rfl
@[simp] theorem setRs01_op (s : State) (v0 v1 : Word) : (s.setRs01 v0 v1).op = s.op := rfl
@[simp] theorem setRs01_rs (s : State) (v0 v1 : Word) : (s.setRs01 v0 v1).rs = (s.rs.set 0 v0).set 1 v1 := rfl
@[simp] theorem setRs01_tc (s : State) (v0 v1 : Word) : (s.setRs01 v0 v1).tc = s.tc := rfl
@[simp] theorem setRs01_mont (s : State) (v0 v1 : Word) : (s.setRs01 v0 v1).mont = s.mont := rfl
@[simp] theorem setRs01_rns (s : State) (v0 v1 : Word) : (s.setRs01 v0 v1).rns = s.rns := rfl
@[simp] theorem setRs01_bufLen0 (s : State) (v0 v1 : Word) : (s.setRs01 v0 v1).bufLen0 = s.bufLen0 := rfl
@[simp] theorem setRs01_bufLen1 (s : State) (v0 v1 : Word) : (s.setRs01 v0 v1).bufLen1 = s.bufLen1 := rfl
@[simp] theorem setRs01_bufDom0 (s : State) (v0 v1 : Word) : (s.setRs01 v0 v1).bufDom0 = s.bufDom0 := rfl
@[simp] theorem setRs01_bufDom1 (s : State) (v0 v1 : Word) : (s.setRs01 v0 v1).bufDom1 = s.bufDom1 := rfl
@[simp] theorem setRs01_baseIn (s : State) (v0 v1 : Word) : (s.setRs01 v0 v1).baseIn = s.baseIn := rfl
@[simp] theorem setRs01_baseKIn (s : State) (v0 v1 : Word) : (s.setRs01 v0 v1).baseKIn = s.baseKIn := rfl
@[simp] theorem setRs01_rv0 (s : State) (v0 v1 : Word) : (s.setRs01 v0 v1).rv0 = s.rv0 := rfl
@[simp] theorem setRs01_rv1 (s : State) (v0 v1 : Word) : (s.setRs01 v0 v1).rv1 = s.rv1 := rfl
@[simp] theorem setRs01_mem (s : State) (v0 v1 : Word) : (s.setRs01 v0 v1).mem = s.mem := rfl
@[simp] theorem setRs01_ramDraw (s : State) (v0 v1 : Word) : (s.setRs01 v0 v1).ramDraw = s.ramDraw := rfl
@[simp] theorem setRs01_draws (s : State) (v0 v1 : Word) : (s.setRs01 v0 v1).draws = s.draws := rfl
@[simp] theorem setRs01_readData (s : State) (v0 v1 : Word) : (s.setRs01 v0 v1).readData = s.readData := rfl
@[simp] theorem setRs01_agenda (s : State) (v0 v1 : Word) : (s.setRs01 v0 v1).agenda = s.agenda := rfl

/-! ### setRsAll -/

@[simp] theorem setRsAll_params (s : State) (v0 v1 v2 v3 : Word) : (s.setRsAll v0 v1 v2 v3).params = s.params := rfl
@[simp] theorem setRsAll_latch (s : State) (v0 v1 v2 v3 : Word) : (s.setRsAll v0 v1 v2 v3).latch = s.latch := rfl
@[simp] theorem setRsAll_code (s : State) (v0 v1 v2 v3 : Word) : (s.setRsAll v0 v1 v2 v3).code = s.code := rfl
@[simp] theorem setRsAll_ovr (s : State) (v0 v1 v2 v3 : Word) : (s.setRsAll v0 v1 v2 v3).ovr = s.ovr := rfl
@[simp] theorem setRsAll_kmod (s : State) (v0 v1 v2 v3 : Word) : (s.setRsAll v0 v1 v2 v3).kmod = s.kmod := rfl
@[simp] theorem setRsAll_op (s : State) (v0 v1 v2 v3 : Word) : (s.setRsAll v0 v1 v2 v3).op = s.op := rfl
@[simp] theorem setRsAll_rs (s : State) (v0 v1 v2 v3 : Word) : (s.setRsAll v0 v1 v2 v3).rs = #v[v0, v1, v2, v3] := rfl
@[simp] theorem setRsAll_tc (s : State) (v0 v1 v2 v3 : Word) : (s.setRsAll v0 v1 v2 v3).tc = s.tc := rfl
@[simp] theorem setRsAll_mont (s : State) (v0 v1 v2 v3 : Word) : (s.setRsAll v0 v1 v2 v3).mont = s.mont := rfl
@[simp] theorem setRsAll_rns (s : State) (v0 v1 v2 v3 : Word) : (s.setRsAll v0 v1 v2 v3).rns = s.rns := rfl
@[simp] theorem setRsAll_bufLen0 (s : State) (v0 v1 v2 v3 : Word) : (s.setRsAll v0 v1 v2 v3).bufLen0 = s.bufLen0 := rfl
@[simp] theorem setRsAll_bufLen1 (s : State) (v0 v1 v2 v3 : Word) : (s.setRsAll v0 v1 v2 v3).bufLen1 = s.bufLen1 := rfl
@[simp] theorem setRsAll_bufDom0 (s : State) (v0 v1 v2 v3 : Word) : (s.setRsAll v0 v1 v2 v3).bufDom0 = s.bufDom0 := rfl
@[simp] theorem setRsAll_bufDom1 (s : State) (v0 v1 v2 v3 : Word) : (s.setRsAll v0 v1 v2 v3).bufDom1 = s.bufDom1 := rfl
@[simp] theorem setRsAll_baseIn (s : State) (v0 v1 v2 v3 : Word) : (s.setRsAll v0 v1 v2 v3).baseIn = s.baseIn := rfl
@[simp] theorem setRsAll_baseKIn (s : State) (v0 v1 v2 v3 : Word) : (s.setRsAll v0 v1 v2 v3).baseKIn = s.baseKIn := rfl
@[simp] theorem setRsAll_rv0 (s : State) (v0 v1 v2 v3 : Word) : (s.setRsAll v0 v1 v2 v3).rv0 = s.rv0 := rfl
@[simp] theorem setRsAll_rv1 (s : State) (v0 v1 v2 v3 : Word) : (s.setRsAll v0 v1 v2 v3).rv1 = s.rv1 := rfl
@[simp] theorem setRsAll_mem (s : State) (v0 v1 v2 v3 : Word) : (s.setRsAll v0 v1 v2 v3).mem = s.mem := rfl
@[simp] theorem setRsAll_ramDraw (s : State) (v0 v1 v2 v3 : Word) : (s.setRsAll v0 v1 v2 v3).ramDraw = s.ramDraw := rfl
@[simp] theorem setRsAll_draws (s : State) (v0 v1 v2 v3 : Word) : (s.setRsAll v0 v1 v2 v3).draws = s.draws := rfl
@[simp] theorem setRsAll_readData (s : State) (v0 v1 v2 v3 : Word) : (s.setRsAll v0 v1 v2 v3).readData = s.readData := rfl
@[simp] theorem setRsAll_agenda (s : State) (v0 v1 v2 v3 : Word) : (s.setRsAll v0 v1 v2 v3).agenda = s.agenda := rfl

/-! ### writeBuf -/

@[simp] theorem writeBuf_params (s : State) (d : Buf) (ws : List Word) : (s.writeBuf d ws).params = s.params := rfl
@[simp] theorem writeBuf_latch (s : State) (d : Buf) (ws : List Word) : (s.writeBuf d ws).latch = s.latch := rfl
@[simp] theorem writeBuf_code (s : State) (d : Buf) (ws : List Word) : (s.writeBuf d ws).code = s.code := rfl
@[simp] theorem writeBuf_ovr (s : State) (d : Buf) (ws : List Word) : (s.writeBuf d ws).ovr = s.ovr := rfl
@[simp] theorem writeBuf_kmod (s : State) (d : Buf) (ws : List Word) : (s.writeBuf d ws).kmod = s.kmod := rfl
@[simp] theorem writeBuf_op (s : State) (d : Buf) (ws : List Word) : (s.writeBuf d ws).op = s.op := rfl
@[simp] theorem writeBuf_rs (s : State) (d : Buf) (ws : List Word) : (s.writeBuf d ws).rs = s.rs := rfl
@[simp] theorem writeBuf_tc (s : State) (d : Buf) (ws : List Word) : (s.writeBuf d ws).tc = s.tc := rfl
@[simp] theorem writeBuf_mont (s : State) (d : Buf) (ws : List Word) : (s.writeBuf d ws).mont = s.mont := rfl
@[simp] theorem writeBuf_rns (s : State) (d : Buf) (ws : List Word) : (s.writeBuf d ws).rns = s.rns := rfl
@[simp] theorem writeBuf_bufLen0 (s : State) (d : Buf) (ws : List Word) : (s.writeBuf d ws).bufLen0 = s.bufLen0 := rfl
@[simp] theorem writeBuf_bufLen1 (s : State) (d : Buf) (ws : List Word) : (s.writeBuf d ws).bufLen1 = s.bufLen1 := rfl
@[simp] theorem writeBuf_bufDom0 (s : State) (d : Buf) (ws : List Word) : (s.writeBuf d ws).bufDom0 = s.bufDom0 := rfl
@[simp] theorem writeBuf_bufDom1 (s : State) (d : Buf) (ws : List Word) : (s.writeBuf d ws).bufDom1 = s.bufDom1 := rfl
@[simp] theorem writeBuf_baseIn (s : State) (d : Buf) (ws : List Word) : (s.writeBuf d ws).baseIn = s.baseIn := rfl
@[simp] theorem writeBuf_baseKIn (s : State) (d : Buf) (ws : List Word) : (s.writeBuf d ws).baseKIn = s.baseKIn := rfl
@[simp] theorem writeBuf_rv0 (s : State) (d : Buf) (ws : List Word) : (s.writeBuf d ws).rv0 = s.rv0 := rfl
@[simp] theorem writeBuf_rv1 (s : State) (d : Buf) (ws : List Word) : (s.writeBuf d ws).rv1 = s.rv1 := rfl
@[simp] theorem writeBuf_mem (s : State) (d : Buf) (ws : List Word) : (s.writeBuf d ws).mem = s.mem.writeWords (bufBase d) ws := rfl
@[simp] theorem writeBuf_ramDraw (s : State) (d : Buf) (ws : List Word) : (s.writeBuf d ws).ramDraw = s.ramDraw := rfl
@[simp] theorem writeBuf_draws (s : State) (d : Buf) (ws : List Word) : (s.writeBuf d ws).draws = s.draws := rfl
@[simp] theorem writeBuf_readData (s : State) (d : Buf) (ws : List Word) : (s.writeBuf d ws).readData = s.readData := rfl
@[simp] theorem writeBuf_agenda (s : State) (d : Buf) (ws : List Word) : (s.writeBuf d ws).agenda = s.agenda := rfl

/-! ### writeStatus -/

@[simp] theorem writeStatus_params (s : State) (v : Word) : (s.writeStatus v).params = s.params := rfl
@[simp] theorem writeStatus_latch (s : State) (v : Word) : (s.writeStatus v).latch = s.latch := rfl
@[simp] theorem writeStatus_code (s : State) (v : Word) : (s.writeStatus v).code = s.code := rfl
@[simp] theorem writeStatus_ovr (s : State) (v : Word) : (s.writeStatus v).ovr = (s.ovr && !v.getLsbD 9) := rfl
@[simp] theorem writeStatus_kmod (s : State) (v : Word) : (s.writeStatus v).kmod = s.kmod := rfl
@[simp] theorem writeStatus_op (s : State) (v : Word) : (s.writeStatus v).op = s.op := rfl
@[simp] theorem writeStatus_rs (s : State) (v : Word) : (s.writeStatus v).rs = s.rs := rfl
@[simp] theorem writeStatus_tc (s : State) (v : Word) : (s.writeStatus v).tc = s.tc := rfl
@[simp] theorem writeStatus_mont (s : State) (v : Word) : (s.writeStatus v).mont = s.mont := rfl
@[simp] theorem writeStatus_rns (s : State) (v : Word) : (s.writeStatus v).rns = s.rns := rfl
@[simp] theorem writeStatus_bufLen0 (s : State) (v : Word) : (s.writeStatus v).bufLen0 = s.bufLen0 := rfl
@[simp] theorem writeStatus_bufLen1 (s : State) (v : Word) : (s.writeStatus v).bufLen1 = s.bufLen1 := rfl
@[simp] theorem writeStatus_bufDom0 (s : State) (v : Word) : (s.writeStatus v).bufDom0 = s.bufDom0 := rfl
@[simp] theorem writeStatus_bufDom1 (s : State) (v : Word) : (s.writeStatus v).bufDom1 = s.bufDom1 := rfl
@[simp] theorem writeStatus_baseIn (s : State) (v : Word) : (s.writeStatus v).baseIn = s.baseIn := rfl
@[simp] theorem writeStatus_baseKIn (s : State) (v : Word) : (s.writeStatus v).baseKIn = s.baseKIn := rfl
@[simp] theorem writeStatus_rv0 (s : State) (v : Word) : (s.writeStatus v).rv0 = s.rv0 := rfl
@[simp] theorem writeStatus_rv1 (s : State) (v : Word) : (s.writeStatus v).rv1 = s.rv1 := rfl
@[simp] theorem writeStatus_mem (s : State) (v : Word) : (s.writeStatus v).mem = s.mem := rfl
@[simp] theorem writeStatus_ramDraw (s : State) (v : Word) : (s.writeStatus v).ramDraw = s.ramDraw := rfl
@[simp] theorem writeStatus_draws (s : State) (v : Word) : (s.writeStatus v).draws = s.draws := rfl
@[simp] theorem writeStatus_readData (s : State) (v : Word) : (s.writeStatus v).readData = s.readData := rfl
@[simp] theorem writeStatus_agenda (s : State) (v : Word) : (s.writeStatus v).agenda = s.agenda := rfl

/-! ### setBufDom -/

@[simp] theorem setBufDom_params (s : State) (d : Buf) (x : Domain) : (s.setBufDom d x).params = s.params := by cases d <;> rfl
@[simp] theorem setBufDom_latch (s : State) (d : Buf) (x : Domain) : (s.setBufDom d x).latch = s.latch := by cases d <;> rfl
@[simp] theorem setBufDom_code (s : State) (d : Buf) (x : Domain) : (s.setBufDom d x).code = s.code := by cases d <;> rfl
@[simp] theorem setBufDom_ovr (s : State) (d : Buf) (x : Domain) : (s.setBufDom d x).ovr = s.ovr := by cases d <;> rfl
@[simp] theorem setBufDom_kmod (s : State) (d : Buf) (x : Domain) : (s.setBufDom d x).kmod = s.kmod := by cases d <;> rfl
@[simp] theorem setBufDom_op (s : State) (d : Buf) (x : Domain) : (s.setBufDom d x).op = s.op := by cases d <;> rfl
@[simp] theorem setBufDom_rs (s : State) (d : Buf) (x : Domain) : (s.setBufDom d x).rs = s.rs := by cases d <;> rfl
@[simp] theorem setBufDom_tc (s : State) (d : Buf) (x : Domain) : (s.setBufDom d x).tc = s.tc := by cases d <;> rfl
@[simp] theorem setBufDom_mont (s : State) (d : Buf) (x : Domain) : (s.setBufDom d x).mont = s.mont := by cases d <;> rfl
@[simp] theorem setBufDom_rns (s : State) (d : Buf) (x : Domain) : (s.setBufDom d x).rns = s.rns := by cases d <;> rfl
@[simp] theorem setBufDom_bufLen0 (s : State) (d : Buf) (x : Domain) : (s.setBufDom d x).bufLen0 = s.bufLen0 := by cases d <;> rfl
@[simp] theorem setBufDom_bufLen1 (s : State) (d : Buf) (x : Domain) : (s.setBufDom d x).bufLen1 = s.bufLen1 := by cases d <;> rfl
@[simp] theorem setBufDom_bufDom0 (s : State) (d : Buf) (x : Domain) : (s.setBufDom d x).bufDom0 = (match d with | .b0 => x | .b1 => s.bufDom0) := by cases d <;> rfl
@[simp] theorem setBufDom_bufDom1 (s : State) (d : Buf) (x : Domain) : (s.setBufDom d x).bufDom1 = (match d with | .b0 => s.bufDom1 | .b1 => x) := by cases d <;> rfl
@[simp] theorem setBufDom_baseIn (s : State) (d : Buf) (x : Domain) : (s.setBufDom d x).baseIn = s.baseIn := by cases d <;> rfl
@[simp] theorem setBufDom_baseKIn (s : State) (d : Buf) (x : Domain) : (s.setBufDom d x).baseKIn = s.baseKIn := by cases d <;> rfl
@[simp] theorem setBufDom_rv0 (s : State) (d : Buf) (x : Domain) : (s.setBufDom d x).rv0 = s.rv0 := by cases d <;> rfl
@[simp] theorem setBufDom_rv1 (s : State) (d : Buf) (x : Domain) : (s.setBufDom d x).rv1 = s.rv1 := by cases d <;> rfl
@[simp] theorem setBufDom_mem (s : State) (d : Buf) (x : Domain) : (s.setBufDom d x).mem = s.mem := by cases d <;> rfl
@[simp] theorem setBufDom_ramDraw (s : State) (d : Buf) (x : Domain) : (s.setBufDom d x).ramDraw = s.ramDraw := by cases d <;> rfl
@[simp] theorem setBufDom_draws (s : State) (d : Buf) (x : Domain) : (s.setBufDom d x).draws = s.draws := by cases d <;> rfl
@[simp] theorem setBufDom_readData (s : State) (d : Buf) (x : Domain) : (s.setBufDom d x).readData = s.readData := by cases d <;> rfl
@[simp] theorem setBufDom_agenda (s : State) (d : Buf) (x : Domain) : (s.setBufDom d x).agenda = s.agenda := by cases d <;> rfl

/-! ### setBufLen -/

@[simp] theorem setBufLen_params (s : State) (d : Buf) (x : Word) : (s.setBufLen d x).params = s.params := by cases d <;> rfl
@[simp] theorem setBufLen_latch (s : State) (d : Buf) (x : Word) : (s.setBufLen d x).latch = s.latch := by cases d <;> rfl
@[simp] theorem setBufLen_code (s : State) (d : Buf) (x : Word) : (s.setBufLen d x).code = s.code := by cases d <;> rfl
@[simp] theorem setBufLen_ovr (s : State) (d : Buf) (x : Word) : (s.setBufLen d x).ovr = s.ovr := by cases d <;> rfl
@[simp] theorem setBufLen_kmod (s : State) (d : Buf) (x : Word) : (s.setBufLen d x).kmod = s.kmod := by cases d <;> rfl
@[simp] theorem setBufLen_op (s : State) (d : Buf) (x : Word) : (s.setBufLen d x).op = s.op := by cases d <;> rfl
@[simp] theorem setBufLen_rs (s : State) (d : Buf) (x : Word) : (s.setBufLen d x).rs = s.rs := by cases d <;> rfl
@[simp] theorem setBufLen_tc (s : State) (d : Buf) (x : Word) : (s.setBufLen d x).tc = s.tc := by cases d <;> rfl
@[simp] theorem setBufLen_mont (s : State) (d : Buf) (x : Word) : (s.setBufLen d x).mont = s.mont := by cases d <;> rfl
@[simp] theorem setBufLen_rns (s : State) (d : Buf) (x : Word) : (s.setBufLen d x).rns = s.rns := by cases d <;> rfl
@[simp] theorem setBufLen_bufLen0 (s : State) (d : Buf) (x : Word) : (s.setBufLen d x).bufLen0 = (match d with | .b0 => x | .b1 => s.bufLen0) := by cases d <;> rfl
@[simp] theorem setBufLen_bufLen1 (s : State) (d : Buf) (x : Word) : (s.setBufLen d x).bufLen1 = (match d with | .b0 => s.bufLen1 | .b1 => x) := by cases d <;> rfl
@[simp] theorem setBufLen_bufDom0 (s : State) (d : Buf) (x : Word) : (s.setBufLen d x).bufDom0 = s.bufDom0 := by cases d <;> rfl
@[simp] theorem setBufLen_bufDom1 (s : State) (d : Buf) (x : Word) : (s.setBufLen d x).bufDom1 = s.bufDom1 := by cases d <;> rfl
@[simp] theorem setBufLen_baseIn (s : State) (d : Buf) (x : Word) : (s.setBufLen d x).baseIn = s.baseIn := by cases d <;> rfl
@[simp] theorem setBufLen_baseKIn (s : State) (d : Buf) (x : Word) : (s.setBufLen d x).baseKIn = s.baseKIn := by cases d <;> rfl
@[simp] theorem setBufLen_rv0 (s : State) (d : Buf) (x : Word) : (s.setBufLen d x).rv0 = s.rv0 := by cases d <;> rfl
@[simp] theorem setBufLen_rv1 (s : State) (d : Buf) (x : Word) : (s.setBufLen d x).rv1 = s.rv1 := by cases d <;> rfl
@[simp] theorem setBufLen_mem (s : State) (d : Buf) (x : Word) : (s.setBufLen d x).mem = s.mem := by cases d <;> rfl
@[simp] theorem setBufLen_ramDraw (s : State) (d : Buf) (x : Word) : (s.setBufLen d x).ramDraw = s.ramDraw := by cases d <;> rfl
@[simp] theorem setBufLen_draws (s : State) (d : Buf) (x : Word) : (s.setBufLen d x).draws = s.draws := by cases d <;> rfl
@[simp] theorem setBufLen_readData (s : State) (d : Buf) (x : Word) : (s.setBufLen d x).readData = s.readData := by cases d <;> rfl
@[simp] theorem setBufLen_agenda (s : State) (d : Buf) (x : Word) : (s.setBufLen d x).agenda = s.agenda := by cases d <;> rfl

/-! ### setRv -/

@[simp] theorem setRv_params (s : State) (d : Vec) (x : Vector Word 16) : (s.setRv d x).params = s.params := by cases d <;> rfl
@[simp] theorem setRv_latch (s : State) (d : Vec) (x : Vector Word 16) : (s.setRv d x).latch = s.latch := by cases d <;> rfl
@[simp] theorem setRv_code (s : State) (d : Vec) (x : Vector Word 16) : (s.setRv d x).code = s.code := by cases d <;> rfl
@[simp] theorem setRv_ovr (s : State) (d : Vec) (x : Vector Word 16) : (s.setRv d x).ovr = s.ovr := by cases d <;> rfl
@[simp] theorem setRv_kmod (s : State) (d : Vec) (x : Vector Word 16) : (s.setRv d x).kmod = s.kmod := by cases d <;> rfl
@[simp] theorem setRv_op (s : State) (d : Vec) (x : Vector Word 16) : (s.setRv d x).op = s.op := by cases d <;> rfl
@[simp] theorem setRv_rs (s : State) (d : Vec) (x : Vector Word 16) : (s.setRv d x).rs = s.rs := by cases d <;> rfl
@[simp] theorem setRv_tc (s : State) (d : Vec) (x : Vector Word 16) : (s.setRv d x).tc = s.tc := by cases d <;> rfl
@[simp] theorem setRv_mont (s : State) (d : Vec) (x : Vector Word 16) : (s.setRv d x).mont = s.mont := by cases d <;> rfl
@[simp] theorem setRv_rns (s : State) (d : Vec) (x : Vector Word 16) : (s.setRv d x).rns = s.rns := by cases d <;> rfl
@[simp] theorem setRv_bufLen0 (s : State) (d : Vec) (x : Vector Word 16) : (s.setRv d x).bufLen0 = s.bufLen0 := by cases d <;> rfl
@[simp] theorem setRv_bufLen1 (s : State) (d : Vec) (x : Vector Word 16) : (s.setRv d x).bufLen1 = s.bufLen1 := by cases d <;> rfl
@[simp] theorem setRv_bufDom0 (s : State) (d : Vec) (x : Vector Word 16) : (s.setRv d x).bufDom0 = s.bufDom0 := by cases d <;> rfl
@[simp] theorem setRv_bufDom1 (s : State) (d : Vec) (x : Vector Word 16) : (s.setRv d x).bufDom1 = s.bufDom1 := by cases d <;> rfl
@[simp] theorem setRv_baseIn (s : State) (d : Vec) (x : Vector Word 16) : (s.setRv d x).baseIn = s.baseIn := by cases d <;> rfl
@[simp] theorem setRv_baseKIn (s : State) (d : Vec) (x : Vector Word 16) : (s.setRv d x).baseKIn = s.baseKIn := by cases d <;> rfl
@[simp] theorem setRv_rv0 (s : State) (d : Vec) (x : Vector Word 16) : (s.setRv d x).rv0 = (match d with | .v0 => x | .v1 => s.rv0) := by cases d <;> rfl
@[simp] theorem setRv_rv1 (s : State) (d : Vec) (x : Vector Word 16) : (s.setRv d x).rv1 = (match d with | .v0 => s.rv1 | .v1 => x) := by cases d <;> rfl
@[simp] theorem setRv_mem (s : State) (d : Vec) (x : Vector Word 16) : (s.setRv d x).mem = s.mem := by cases d <;> rfl
@[simp] theorem setRv_ramDraw (s : State) (d : Vec) (x : Vector Word 16) : (s.setRv d x).ramDraw = s.ramDraw := by cases d <;> rfl
@[simp] theorem setRv_draws (s : State) (d : Vec) (x : Vector Word 16) : (s.setRv d x).draws = s.draws := by cases d <;> rfl
@[simp] theorem setRv_readData (s : State) (d : Vec) (x : Vector Word 16) : (s.setRv d x).readData = s.readData := by cases d <;> rfl
@[simp] theorem setRv_agenda (s : State) (d : Vec) (x : Vector Word 16) : (s.setRv d x).agenda = s.agenda := by cases d <;> rfl

/-! ### powerOn, powerCycle, softReset -/

@[simp] theorem powerOn_params (p : Params) : (State.powerOn p).params = p := rfl
@[simp] theorem powerOn_latch (p : Params) : (State.powerOn p).latch = none := rfl
@[simp] theorem powerOn_code (p : Params) : (State.powerOn p).code = .ok := rfl
@[simp] theorem powerOn_ovr (p : Params) : (State.powerOn p).ovr = false := rfl
@[simp] theorem powerOn_kmod (p : Params) : (State.powerOn p).kmod = 0 := rfl
@[simp] theorem powerOn_op (p : Params) : (State.powerOn p).op = Vector.replicate 8 0 := rfl
@[simp] theorem powerOn_rs (p : Params) : (State.powerOn p).rs = Vector.replicate 4 0 := rfl
@[simp] theorem powerOn_tc (p : Params) : (State.powerOn p).tc = none := rfl
@[simp] theorem powerOn_mont (p : Params) : (State.powerOn p).mont = none := rfl
@[simp] theorem powerOn_rns (p : Params) : (State.powerOn p).rns = none := rfl
@[simp] theorem powerOn_bufLen0 (p : Params) : (State.powerOn p).bufLen0 = 0 := rfl
@[simp] theorem powerOn_bufLen1 (p : Params) : (State.powerOn p).bufLen1 = 0 := rfl
@[simp] theorem powerOn_bufDom0 (p : Params) : (State.powerOn p).bufDom0 = .coefficient := rfl
@[simp] theorem powerOn_bufDom1 (p : Params) : (State.powerOn p).bufDom1 = .coefficient := rfl
@[simp] theorem powerOn_baseIn (p : Params) : (State.powerOn p).baseIn = Vector.replicate 16 0 := rfl
@[simp] theorem powerOn_baseKIn (p : Params) : (State.powerOn p).baseKIn = 0 := rfl
@[simp] theorem powerOn_rv0 (p : Params) : (State.powerOn p).rv0 = Vector.replicate 16 0 := rfl
@[simp] theorem powerOn_rv1 (p : Params) : (State.powerOn p).rv1 = Vector.replicate 16 0 := rfl
@[simp] theorem powerOn_mem (p : Params) : (State.powerOn p).mem = [] := rfl
@[simp] theorem powerOn_ramDraw (p : Params) : (State.powerOn p).ramDraw = 0 := rfl
@[simp] theorem powerOn_draws (p : Params) : (State.powerOn p).draws = 0 := rfl
@[simp] theorem powerOn_readData (p : Params) : (State.powerOn p).readData = 0 := rfl
@[simp] theorem powerOn_agenda (p : Params) : (State.powerOn p).agenda = [] := rfl
@[simp] theorem powerCycle_params (s : State) : s.powerCycle.params = s.params := rfl
@[simp] theorem powerCycle_latch (s : State) : s.powerCycle.latch = none := rfl
@[simp] theorem powerCycle_code (s : State) : s.powerCycle.code = .ok := rfl
@[simp] theorem powerCycle_ovr (s : State) : s.powerCycle.ovr = false := rfl
@[simp] theorem powerCycle_kmod (s : State) : s.powerCycle.kmod = 0 := rfl
@[simp] theorem powerCycle_op (s : State) : s.powerCycle.op = Vector.replicate 8 0 := rfl
@[simp] theorem powerCycle_rs (s : State) : s.powerCycle.rs = Vector.replicate 4 0 := rfl
@[simp] theorem powerCycle_tc (s : State) : s.powerCycle.tc = none := rfl
@[simp] theorem powerCycle_mont (s : State) : s.powerCycle.mont = none := rfl
@[simp] theorem powerCycle_rns (s : State) : s.powerCycle.rns = none := rfl
@[simp] theorem powerCycle_bufLen0 (s : State) : s.powerCycle.bufLen0 = 0 := rfl
@[simp] theorem powerCycle_bufLen1 (s : State) : s.powerCycle.bufLen1 = 0 := rfl
@[simp] theorem powerCycle_bufDom0 (s : State) : s.powerCycle.bufDom0 = .coefficient := rfl
@[simp] theorem powerCycle_bufDom1 (s : State) : s.powerCycle.bufDom1 = .coefficient := rfl
@[simp] theorem powerCycle_baseIn (s : State) : s.powerCycle.baseIn = Vector.replicate 16 0 := rfl
@[simp] theorem powerCycle_baseKIn (s : State) : s.powerCycle.baseKIn = 0 := rfl
@[simp] theorem powerCycle_rv0 (s : State) : s.powerCycle.rv0 = Vector.replicate 16 0 := rfl
@[simp] theorem powerCycle_rv1 (s : State) : s.powerCycle.rv1 = Vector.replicate 16 0 := rfl
@[simp] theorem powerCycle_mem (s : State) : s.powerCycle.mem = [] := rfl
@[simp] theorem powerCycle_ramDraw (s : State) : s.powerCycle.ramDraw = s.ramDraw + 1 := rfl
@[simp] theorem powerCycle_draws (s : State) : s.powerCycle.draws = s.draws := rfl
@[simp] theorem powerCycle_readData (s : State) : s.powerCycle.readData = s.readData := rfl
@[simp] theorem powerCycle_agenda (s : State) : s.powerCycle.agenda = s.agenda := rfl
@[simp] theorem softReset_params (s : State) : s.softReset.params = s.params := rfl
@[simp] theorem softReset_latch (s : State) : s.softReset.latch = none := rfl
@[simp] theorem softReset_code (s : State) : s.softReset.code = .ok := rfl
@[simp] theorem softReset_ovr (s : State) : s.softReset.ovr = false := rfl
@[simp] theorem softReset_kmod (s : State) : s.softReset.kmod = 0 := rfl
@[simp] theorem softReset_op (s : State) : s.softReset.op = Vector.replicate 8 0 := rfl
@[simp] theorem softReset_rs (s : State) : s.softReset.rs = Vector.replicate 4 0 := rfl
@[simp] theorem softReset_tc (s : State) : s.softReset.tc = none := rfl
@[simp] theorem softReset_mont (s : State) : s.softReset.mont = none := rfl
@[simp] theorem softReset_rns (s : State) : s.softReset.rns = none := rfl
@[simp] theorem softReset_bufLen0 (s : State) : s.softReset.bufLen0 = 0 := rfl
@[simp] theorem softReset_bufLen1 (s : State) : s.softReset.bufLen1 = 0 := rfl
@[simp] theorem softReset_bufDom0 (s : State) : s.softReset.bufDom0 = .coefficient := rfl
@[simp] theorem softReset_bufDom1 (s : State) : s.softReset.bufDom1 = .coefficient := rfl
@[simp] theorem softReset_baseIn (s : State) : s.softReset.baseIn = Vector.replicate 16 0 := rfl
@[simp] theorem softReset_baseKIn (s : State) : s.softReset.baseKIn = 0 := rfl
@[simp] theorem softReset_rv0 (s : State) : s.softReset.rv0 = Vector.replicate 16 0 := rfl
@[simp] theorem softReset_rv1 (s : State) : s.softReset.rv1 = Vector.replicate 16 0 := rfl
@[simp] theorem softReset_mem (s : State) : s.softReset.mem = s.abandon.mem := rfl
@[simp] theorem softReset_ramDraw (s : State) : s.softReset.ramDraw = s.ramDraw := rfl
@[simp] theorem softReset_draws (s : State) : s.softReset.draws = s.abandon.draws := rfl
@[simp] theorem softReset_readData (s : State) : s.softReset.readData = s.readData := rfl
@[simp] theorem softReset_agenda (s : State) : s.softReset.agenda = s.agenda := rfl

/-! ### Selected reads after selected writes -/

@[simp] theorem bufDom_setBufDom (s : State) (d : Buf) (x : Domain) : (s.setBufDom d x).bufDom d = x := by
  cases d <;> rfl

@[simp] theorem bufLen_setBufDom (s : State) (d e : Buf) (x : Domain) : (s.setBufDom d x).bufLen e = s.bufLen e := by
  cases d <;> cases e <;> rfl

@[simp] theorem bufLen_setBufLen (s : State) (d : Buf) (x : Word) : (s.setBufLen d x).bufLen d = x := by
  cases d <;> rfl

@[simp] theorem bufLen_writeBuf (s : State) (d e : Buf) (ws : List Word) : (s.writeBuf d ws).bufLen e = s.bufLen e := by
  cases e <;> rfl

@[simp] theorem bufDom_writeBuf (s : State) (d e : Buf) (ws : List Word) : (s.writeBuf d ws).bufDom e = s.bufDom e := by
  cases e <;> rfl

@[simp] theorem rv_setRv (s : State) (d : Vec) (x : Vector Word 16) : (s.setRv d x).rv d = x := by
  cases d <;> rfl

theorem rv_setRv_ne (s : State) {d e : Vec} (h : e ≠ d) (x : Vector Word 16) : (s.setRv d x).rv e = s.rv e := by
  cases d <;> cases e <;> first | rfl | exact absurd rfl h

theorem bufDom_setBufDom_ne (s : State) {d e : Buf} (h : e ≠ d) (x : Domain) :
    (s.setBufDom d x).bufDom e = s.bufDom e := by
  cases d <;> cases e <;> first | rfl | exact absurd rfl h

@[simp] theorem byteAt_setBufDom (s : State) (d : Buf) (x : Domain) (a : Nat) :
    (s.setBufDom d x).byteAt a = s.byteAt a := by
  cases d <;> rfl

@[simp] theorem byteAt_setRv (s : State) (d : Vec) (x : Vector Word 16) (a : Nat) :
    (s.setRv d x).byteAt a = s.byteAt a := by
  cases d <;> rfl

/-- What `fillSlots` leaves in a slot (R42). -/
theorem slot_fillSlots (k : Nat) (f : Nat → Word) (old : Vector Word 16) (i : Nat) (hi : i < 16) :
    slot (fillSlots k f old) i = if i < k then f i else slot old i := by
  simp [slot, fillSlots, hi]

end Sys2Proof.Laws
end

