-- ==== Sys2Proof/Laws/Memory.lean ====
section
/-! SUPPORT. What each operation on the buffers' memory does, and that each keeps its canonical form. -/

namespace Sys2Proof.Laws

open Sys2Proof.Machine

/-- A read after a one-byte write: the byte written there, and every other offset as before. -/
theorem lookup_insert (m : Memory) (a x : Nat) (b : Byte) :
    (m.insert a b).lookup x = if a = x then some b else m.lookup x := by
  induction m with
  | nil => simp [Memory.insert, Memory.lookup]
  | cons c m ih =>
    simp only [Memory.insert]
    split
    · simp [Memory.lookup]
    · split
      · rename_i h
        simp only [Memory.lookup, h]
        split <;> simp_all
      · rename_i h
        simp only [Memory.lookup, ih]
        by_cases hc : c.1 = x
        · have hx : ¬ a = x := fun e => h (hc.trans e.symm)
          rw [if_pos hc, if_neg hx, if_pos hc]
        · rw [if_neg hc, if_neg hc]

/-- What a one-byte write lists: the new entry, or one that was there. -/
theorem mem_insert {m : Memory} {a : Nat} {b : Byte} {x : Host.Cell} (h : x ∈ m.insert a b) : x = (a, b) ∨ x ∈ m := by
  induction m with
  | nil => simpa [Memory.insert] using h
  | cons c m ih =>
    simp only [Memory.insert] at h
    split at h
    · simpa using h
    · split at h
      · rcases List.mem_cons.mp h with h | h
        · exact .inl h
        · exact .inr (List.mem_cons_of_mem _ h)
      · rcases List.mem_cons.mp h with h | h
        · exact .inr (h ▸ List.mem_cons_self)
        · exact (ih h).imp_right (List.mem_cons_of_mem _)

/-- A one-byte write keeps the canonical form. -/
theorem insert_wf {m : Memory} (hm : m.wf) (a : Nat) (b : Byte) : (m.insert a b).wf := by
  induction m with
  | nil => simp [Memory.insert]
  | cons c m ih =>
    have hc := List.pairwise_cons.mp hm
    simp only [Memory.insert]
    split
    · rename_i h
      refine List.pairwise_cons.mpr ⟨fun y hy => ?_, hm⟩
      rcases List.mem_cons.mp hy with rfl | hy
      · exact h
      · exact Nat.lt_trans h (hc.1 y hy)
    · split
      · rename_i h
        subst h
        exact List.pairwise_cons.mpr ⟨hc.1, hc.2⟩
      · refine List.pairwise_cons.mpr ⟨fun y hy => ?_, ih hc.2⟩
        rcases mem_insert hy with rfl | hy
        · show c.1 < a
          omega
        · exact hc.1 y hy

/-- A read after a write of bytes. -/
theorem lookup_writeBytes (bs : List Byte) (m : Memory) (a x : Nat) :
    (m.writeBytes a bs).lookup x = if a ≤ x ∧ x < a + bs.length then bs[x - a]? else m.lookup x := by
  induction bs generalizing m a with
  | nil =>
    rw [if_neg (by simp only [List.length_nil]; omega)]
    rfl
  | cons b bs ih =>
    simp only [Memory.writeBytes, ih, lookup_insert, List.length_cons]
    rcases Nat.lt_trichotomy a x with h | rfl | h
    · obtain ⟨k, rfl⟩ : ∃ k, x = a + 1 + k := ⟨x - (a + 1), by omega⟩
      have h1 : a + 1 + k - a = k + 1 := by omega
      have h2 : ¬ a = a + 1 + k := by omega
      simp only [h1, h2, List.getElem?_cons_succ, Nat.add_sub_cancel_left, if_false]
      by_cases hk : k < bs.length
      · rw [if_pos (by omega), if_pos (by omega)]
      · rw [if_neg (by omega), if_neg (by omega)]
    · rw [if_neg (by omega), if_pos rfl, if_pos (by omega)]
      simp
    · rw [if_neg (by omega), if_neg (by omega), if_neg (by omega)]

/-- A write of bytes keeps the canonical form. -/
theorem writeBytes_wf (bs : List Byte) {m : Memory} (hm : m.wf) (a : Nat) : (m.writeBytes a bs).wf := by
  induction bs generalizing m a with
  | nil => exact hm
  | cons b bs ih => exact ih (insert_wf hm a b) (a + 1)

/-- A write of bytes lists only the offsets written and those that were listed. -/
theorem mem_writeBytes {bs : List Byte} {m : Memory} {a : Nat} {c : Host.Cell} (h : c ∈ m.writeBytes a bs) :
    (a ≤ c.1 ∧ c.1 < a + bs.length) ∨ c ∈ m := by
  induction bs generalizing m a with
  | nil => exact .inr h
  | cons b bs ih =>
    rcases ih h with h | h
    · exact .inl ⟨by omega, by simp only [List.length_cons]; omega⟩
    · rcases mem_insert h with rfl | h
      · exact .inl ⟨Nat.le_refl a, by simp only [List.length_cons]; omega⟩
      · exact .inr h

@[simp] theorem lanes_length (v : Word) : (lanes v).length = 8 := by simp [lanes]

theorem lanes_getElem? (v : Word) {k : Nat} (hk : k < 8) : (lanes v)[k]? = some (lane v k) := by
  simp [lanes, hk]

/-- The number made from a word's byte lanes is the word (R73). -/
theorem ofLanes_lanes (v : Word) : ofLanes (lanes v) = v.toNat := by
  have h := v.isLt
  simp only [lanes, lane, List.range, List.range.loop, List.map_cons, List.map_nil, ofLanes,
    BitVec.extractLsb'_toNat, Nat.shiftRight_eq_div_pow]
  norm_num
  omega

/-- A read after a write of a word. -/
theorem lookup_writeWord (m : Memory) (a x : Nat) (v : Word) :
    (m.writeWord a v).lookup x = if a ≤ x ∧ x < a + 8 then some (lane v (x - a)) else m.lookup x := by
  simp only [Memory.writeWord, lookup_writeBytes, lanes_length]
  split
  · exact lanes_getElem? v (by omega)
  · rfl

/-- A write of a word keeps the canonical form. -/
theorem writeWord_wf {m : Memory} (hm : m.wf) (a : Nat) (v : Word) : (m.writeWord a v).wf := writeBytes_wf _ hm a

/-- A read after a write of words: inside them the lane of the word written there, outside them as before. -/
theorem lookup_writeWords (ws : List Word) (m : Memory) (a x : Nat) :
    (m.writeWords a ws).lookup x =
      if a ≤ x ∧ x < a + 8 * ws.length then (ws[(x - a) / 8]?).map (fun v => lane v ((x - a) % 8))
      else m.lookup x := by
  induction ws generalizing m a with
  | nil =>
    rw [if_neg (by simp only [List.length_nil]; omega)]
    rfl
  | cons w ws ih =>
    simp only [Memory.writeWords, ih, lookup_writeWord, List.length_cons]
    by_cases h1 : a ≤ x ∧ x < a + 8
    · have h2 : (x - a) / 8 = 0 := by omega
      have h3 : (x - a) % 8 = x - a := by omega
      rw [if_neg (by omega), if_pos h1, if_pos (by omega), h2, h3]
      simp
    · by_cases h4 : a + 8 ≤ x ∧ x < a + 8 + 8 * ws.length
      · have h5 : (x - a) / 8 = (x - (a + 8)) / 8 + 1 := by omega
        have h6 : (x - a) % 8 = (x - (a + 8)) % 8 := by omega
        rw [if_pos h4, if_pos (by omega), h5, h6, List.getElem?_cons_succ]
      · rw [if_neg h4, if_neg h1, if_neg (by omega)]

/-- A write of words keeps the canonical form. -/
theorem writeWords_wf (ws : List Word) {m : Memory} (hm : m.wf) (a : Nat) : (m.writeWords a ws).wf := by
  induction ws generalizing m a with
  | nil => exact hm
  | cons w ws ih => exact ih (writeWord_wf hm a w) (a + 8)

/-- A write of words lists only the offsets written and those that were listed. -/
theorem mem_writeWords {ws : List Word} {m : Memory} {a : Nat} {c : Host.Cell} (h : c ∈ m.writeWords a ws) :
    (a ≤ c.1 ∧ c.1 < a + 8 * ws.length) ∨ c ∈ m := by
  induction ws generalizing m a with
  | nil => exact .inr h
  | cons w ws ih =>
    rcases ih h with h | h
    · exact .inl ⟨by omega, by simp only [List.length_cons]; omega⟩
    · rcases mem_writeBytes h with h | h
      · exact .inl ⟨h.1, by simp only [lanes_length] at h; simp only [List.length_cons]; omega⟩
      · exact .inr h

/-- A byte outside the words that `writeBuf` stores reads as before. -/
theorem byteAt_writeBuf_outside (s : State) (d : Buf) (ws : List Word) (x : Nat)
    (h : x < bufBase d ∨ bufBase d + 8 * ws.length ≤ x) : (s.writeBuf d ws).byteAt x = s.byteAt x := by
  simp only [State.byteAt, State.writeBuf, lookup_writeWords]
  rw [if_neg (by omega)]

/-- A byte of the words that `writeBuf` stores reads as the lane of the word stored there. -/
theorem byteAt_writeBuf_inside (s : State) (d : Buf) (ws : List Word) (i k : Nat) (hi : i < ws.length) (hk : k < 8) :
    (s.writeBuf d ws).byteAt (bufBase d + 8 * i + k) = lane ws[i] k := by
  have h1 : (bufBase d + 8 * i + k - bufBase d) / 8 = i := by omega
  have h2 : (bufBase d + 8 * i + k - bufBase d) % 8 = k := by omega
  simp only [State.byteAt, State.writeBuf, lookup_writeWords]
  rw [if_pos (by omega), h1, h2]
  simp [hi]

/-- A word reads as the number its eight bytes make. -/
theorem wordAt_of_bytes (s : State) (a : Nat) (v : Word) (h : ∀ k, k < 8 → s.byteAt (a + k) = lane v k) :
    s.wordAt a = v := by
  have : (List.range 8).map (fun k => s.byteAt (a + k)) = lanes v := by
    refine List.map_congr_left fun k hk => h k (List.mem_range.mp hk)
  rw [State.wordAt, this, ofLanes_lanes]
  simp [Word.ofNat]

/-- A word depends on its eight bytes alone. -/
theorem wordAt_congr {s t : State} {a : Nat} (h : ∀ k, k < 8 → t.byteAt (a + k) = s.byteAt (a + k)) :
    t.wordAt a = s.wordAt a := by
  have : (List.range 8).map (fun k => t.byteAt (a + k)) = (List.range 8).map fun k => s.byteAt (a + k) :=
    List.map_congr_left fun k hk => h k (List.mem_range.mp hk)
  rw [State.wordAt, State.wordAt, this]

/-- A buffer word that `writeBuf` stores reads back (R40). -/
theorem bufWord_writeBuf (s : State) (d : Buf) (ws : List Word) (i : Nat) (hi : i < ws.length) :
    (s.writeBuf d ws).bufWord d i = ws[i] :=
  wordAt_of_bytes _ _ _ fun k hk => byteAt_writeBuf_inside s d ws i k hi hk

/-- A buffer word above those that `writeBuf` stores is unchanged. -/
theorem bufWord_writeBuf_above (s : State) (d : Buf) (ws : List Word) (i : Nat) (hi : ws.length ≤ i) :
    (s.writeBuf d ws).bufWord d i = s.bufWord d i :=
  wordAt_congr fun k _ => byteAt_writeBuf_outside s d ws _ (by omega)

/-- The words that `writeBuf` stores read back as the list stored. -/
theorem bufWords_writeBuf (s : State) (d : Buf) (ws : List Word) :
    (s.writeBuf d ws).bufWords d ws.length = ws := by
  refine List.ext_getElem (by simp [State.bufWords]) fun i h1 h2 => ?_
  simp only [State.bufWords, List.getElem_map, List.getElem_range]
  exact bufWord_writeBuf s d ws i h2

@[simp] theorem bufWords_length (s : State) (d : Buf) (n : Nat) : (s.bufWords d n).length = n := by
  simp [State.bufWords]

@[simp] theorem bufWords_getElem (s : State) (d : Buf) (n i : Nat) (h : i < (s.bufWords d n).length) :
    (s.bufWords d n)[i] = s.bufWord d i := by
  simp [State.bufWords]

end Sys2Proof.Laws
end

