-- ==== Sys2Proof/Laws/HostPort.lean ====
section
/-! SUPPORT. What a host access, a soft reset and an abandoned command can do. -/

namespace Sys2Proof.Laws

open Sys2Proof.Machine

/-- Everything a host access that goes on can do: it is admitted, and it is the read or the write of one slot. -/
theorem hostAccess_cases {a : Access} {s t : State} (h : hostAccess a s = .next t) :
    a.wellFormed s.params = true ∧
      (t = s.hostRead (slotAt s.params (a.addr - s.params.unitBase)) ∨
        ∃ v, a = .write a.addr a.width v ∧ t = s.hostWrite (slotAt s.params (a.addr - s.params.unitBase)) v) := by
  unfold hostAccess at h
  split at h
  · cases h
  · rename_i h1
    split at h
    · cases h
    · rename_i h2
      refine ⟨by simp_all [Access.wellFormed], ?_⟩
      cases a with
      | read x w => exact .inl (by cases h; rfl)
      | write x w v => exact .inr ⟨v, rfl, by cases h; rfl⟩

/-- An admitted access goes on: the rule of a read and of a write (R70, R71). -/
theorem hostAccess_admitted (a : Access) (s : State) (h : a.wellFormed s.params = true) :
    hostAccess a s = .next (match a with
      | .read x _ => s.hostRead (slotAt s.params (x - s.params.unitBase))
      | .write x _ v => s.hostWrite (slotAt s.params (x - s.params.unitBase)) v) := by
  simp only [Access.wellFormed, Bool.and_eq_true] at h
  unfold hostAccess
  rw [h.1, h.2]
  cases a <;> rfl

/-- Everything a host read can do: the value read, and one free draw where the unit is busy (R75, R362). -/
theorem hostRead_cases (s : State) (x : Slot) :
    s.hostRead x = { s with readData := s.readSlot x } ∨
      (s.busy = true ∧ s.hostRead x = { s with readData := Config.freeWord s.draws, draws := s.draws + 1 }) := by
  unfold State.hostRead
  split
  · rename_i h
    refine .inr ⟨?_, rfl⟩
    simp only [Bool.and_eq_true] at h
    exact h.1.1
  · exact .inl rfl

/-- Everything abandoning a command can do: nothing, or free draws in the first words of one buffer (R351). -/
theorem abandon_cases (s : State) :
    s.abandon = s ∨ ∃ d ws, s.pendingBuf = some d ∧ ws.length = s.abandonedLen d ∧
      s.abandon = { s.writeBuf d ws with draws := s.draws + s.abandonedLen d } := by
  unfold State.abandon
  cases h : s.pendingBuf with
  | none => exact .inl rfl
  | some d => exact .inr ⟨d, _, rfl, by simp, rfl⟩

/-- With no command in progress there is nothing to abandon. -/
theorem abandon_idle (s : State) (h : s.latch = none) : s.abandon = s := by
  simp [State.abandon, State.pendingBuf, h]

@[simp] theorem abandon_ramDraw (s : State) : s.abandon.ramDraw = s.ramDraw := by
  rcases abandon_cases s with h | ⟨d, ws, -, -, h⟩ <;> (rw [h]; try rfl)

/-- A soft reset keeps the memory's canonical form. -/
theorem abandon_wf (s : State) (h : s.mem.wf) : s.abandon.mem.wf := by
  rcases abandon_cases s with h' | ⟨d, ws, -, -, h'⟩
  · rw [h']; exact h
  · rw [h']; exact writeWords_wf ws h _

/-- Everything a write to CTRL can do (R28). -/
theorem writeCtrl_cases (s : State) (v : Word) :
    (v.getLsbD 0 = true ∧ s.writeCtrl v = s.softReset) ∨ (v.getLsbD 0 = false ∧ s.writeCtrl v = s) := by
  unfold State.writeCtrl
  cases v.getLsbD 0
  · exact .inr ⟨rfl, rfl⟩
  · exact .inl ⟨rfl, rfl⟩

/-- What a write while idle leaves of the memory: as it was, one word stored, or what a soft reset leaves. -/
theorem writeSlot_mem_cases (s : State) (x : Slot) (v : Word) :
    (s.writeSlot v x).mem = s.mem ∨
      (∃ d i, x = .bufWord d i ∧ (s.writeSlot v x).mem = s.mem.writeWord (bufBase d + 8 * i) v) ∨
      (s.writeSlot v x).mem = s.abandon.mem := by
  cases x <;> first | exact .inl rfl | skip
  · rcases writeCtrl_cases s v with ⟨-, h⟩ | ⟨-, h⟩
    · exact .inr (.inr (by simp [State.writeSlot, h]))
    · exact .inl (by simp [State.writeSlot, h])
  · rename_i d
    exact .inl (by cases d <;> rfl)
  · rename_i d
    exact .inl (by cases d <;> rfl)
  · rename_i d i
    exact .inl (by cases d <;> rfl)
  · rename_i d i
    exact .inr (.inl ⟨d, i, rfl, rfl⟩)

/-- What a write while busy leaves of the memory: as it was, or what a soft reset leaves. -/
theorem writeBusy_mem_cases (s : State) (x : Slot) (v : Word) :
    (s.writeBusy v x).mem = s.mem ∨ (s.writeBusy v x).mem = s.abandon.mem := by
  cases x <;> first | exact .inl rfl | skip
  rcases writeCtrl_cases s v with ⟨-, h⟩ | ⟨-, h⟩
  · exact .inr (by simp [State.writeBusy, h])
  · exact .inl (by simp [State.writeBusy, h])

/-- A host access keeps the memory's canonical form. -/
theorem hostAccess_wf {a : Access} {s t : State} (h : hostAccess a s = .next t) (hs : s.mem.wf) : t.mem.wf := by
  obtain ⟨-, rfl | ⟨v, -, rfl⟩⟩ := hostAccess_cases h
  · rcases hostRead_cases s (slotAt s.params (a.addr - s.params.unitBase)) with h | ⟨-, h⟩ <;> rw [h] <;> exact hs
  · unfold State.hostWrite
    split
    · rcases writeBusy_mem_cases s (slotAt s.params (a.addr - s.params.unitBase)) v with h | h <;> rw [h]
      · exact hs
      · exact abandon_wf s hs
    · rcases writeSlot_mem_cases s (slotAt s.params (a.addr - s.params.unitBase)) v with h | ⟨d, i, -, h⟩ | h <;> rw [h]
      · exact hs
      · exact writeWord_wf hs _ _
      · exact abandon_wf s hs

end Sys2Proof.Laws
end

