-- ==== Sys2Proof/Laws/Networks.lean ====
section
/-! SUPPORT. The networks keep the length of the buffer, and the stages work block by block. -/

namespace Sys2Proof.Laws

open Sys2Proof.Machine

theorem radix2Pairs_length (m wLen w : Nat) (us vs : List Nat) :
    (radix2Pairs m wLen w us vs).1.length = min us.length vs.length ∧
      (radix2Pairs m wLen w us vs).2.length = min us.length vs.length := by
  induction us generalizing w vs with
  | nil => simp [radix2Pairs]
  | cons u us ih =>
    cases vs with
    | nil => simp [radix2Pairs]
    | cons v vs =>
      obtain ⟨h1, h2⟩ := ih (mulmod w wLen m) vs
      simp only [radix2Pairs, List.length_cons, h1, h2]
      omega

theorem radix2Block_length (m h wLen : Nat) (a : List Nat) (ha : a.length = 2 * h) :
    (radix2Block m h wLen a).length = a.length := by
  obtain ⟨h1, h2⟩ := radix2Pairs_length m wLen 1 (a.take h) (a.drop h)
  simp only [radix2Block, List.length_append, h1, h2, List.length_take, List.length_drop]
  omega

/-- Blocks of the right length, each kept in length, keep the whole in length. -/
theorem mapBlocks_length (f : List Nat → List Nat) (len count : Nat) (a : List Nat)
    (hf : ∀ x, x.length = len → (f x).length = len) (ha : count * len ≤ a.length) :
    (mapBlocks f len count a).length = a.length := by
  induction count generalizing a with
  | zero => rfl
  | succ k ih =>
    rw [Nat.succ_mul] at ha
    have h1 : (a.take len).length = len := by rw [List.length_take]; omega
    simp only [mapBlocks, List.length_append, hf _ h1]
    rw [ih _ (by rw [List.length_drop]; omega), List.length_drop]
    omega

@[simp] theorem radix2Stage_length (m wLen s : Nat) (a : List Nat) : (radix2Stage m wLen s a).length = a.length := by
  refine mapBlocks_length _ _ _ _ (fun x hx => ?_) (Nat.div_mul_le_self _ _)
  rw [radix2Block_length m _ wLen x (by rw [hx, Nat.pow_succ]; omega), hx]

/-- The radix-2 network keeps the length. -/
@[simp] theorem radix2Network_length (m b : Nat) (tw : List Word) (a : List Nat) :
    (radix2Network m b tw a).length = a.length := by
  unfold radix2Network
  have : ∀ (is : List Nat) (x : List Nat),
      (is.foldl (fun x s => radix2Stage m (tw.getD s 0).toNat s x) x).length = x.length := by
    intro is
    induction is with
    | nil => intro x; rfl
    | cons i is ih => intro x; rw [List.foldl_cons, ih, radix2Stage_length]
  rw [this, brperm_length]

theorem radix4Quads_length (m c1 c2 c3 j w1 w2 w3 q : Nat) (a0 a1 a2 a3 : List Nat)
    (h0 : a0.length = q) (h1 : a1.length = q) (h2 : a2.length = q) (h3 : a3.length = q) :
    (radix4Quads m c1 c2 c3 j w1 w2 w3 a0 a1 a2 a3).1.length = q ∧
      (radix4Quads m c1 c2 c3 j w1 w2 w3 a0 a1 a2 a3).2.1.length = q ∧
      (radix4Quads m c1 c2 c3 j w1 w2 w3 a0 a1 a2 a3).2.2.1.length = q ∧
      (radix4Quads m c1 c2 c3 j w1 w2 w3 a0 a1 a2 a3).2.2.2.length = q := by
  induction q generalizing w1 w2 w3 a0 a1 a2 a3 with
  | zero =>
    rw [List.length_eq_zero_iff] at h0
    subst h0
    simp [radix4Quads]
  | succ q ih =>
    match a0, a1, a2, a3, h0, h1, h2, h3 with
    | x0 :: a0, x1 :: a1, x2 :: a2, x3 :: a3, h0, h1, h2, h3 =>
      simp only [List.length_cons, Nat.add_right_cancel_iff] at h0 h1 h2 h3
      have := ih (mulmod w1 c1 m) (mulmod w2 c2 m) (mulmod w3 c3 m) a0 a1 a2 a3 h0 h1 h2 h3
      simp only [radix4Quads, List.length_cons, this, and_self]

@[simp] theorem radix4Stage_length (m j : Nat) (w : Word × Word × Word) (t : Nat) (a : List Nat) :
    (radix4Stage m j w t a).length = a.length := by
  refine mapBlocks_length _ _ _ _ (fun x hx => ?_) (Nat.div_mul_le_self _ _)
  rw [Nat.pow_succ] at hx
  have := radix4Quads_length m w.1.toNat w.2.1.toNat w.2.2.toNat j 1 1 1 (4 ^ t)
    (x.take (4 ^ t)) ((x.drop (4 ^ t)).take (4 ^ t)) ((x.drop (2 * 4 ^ t)).take (4 ^ t)) (x.drop (3 * 4 ^ t))
    (by simp only [List.length_take]; omega) (by simp only [List.length_take, List.length_drop]; omega)
    (by simp only [List.length_take, List.length_drop]; omega) (by simp only [List.length_drop]; omega)
  simp only [radix4Block, List.length_append, this, Nat.pow_succ]
  omega

/-- The radix-4 network keeps the length. -/
@[simp] theorem radix4Network_length (m b : Nat) (tw : List (Word × Word × Word)) (j : Nat) (a : List Nat) :
    (radix4Network m b tw j a).length = a.length := by
  unfold radix4Network
  have : ∀ (is : List Nat) (x : List Nat),
      (is.foldl (fun x t => radix4Stage m j (tw.getD t (0, 0, 0)) t x) x).length = x.length := by
    intro is
    induction is with
    | nil => intro x; rfl
    | cons i is ih => intro x; rw [List.foldl_cons, ih, radix4Stage_length]
  rw [this, brperm_length]

@[simp] theorem scaleBy_length (m ninv : Nat) (a : List Nat) : (scaleBy m ninv a).length = a.length := by
  simp [scaleBy]

@[simp] theorem forward2_length (c : TransformContext) (a : List Nat) : (forward2 c a).length = a.length := by
  simp [forward2]

@[simp] theorem inverse2_length (c : TransformContext) (a : List Nat) : (inverse2 c a).length = a.length := by
  simp [inverse2]

@[simp] theorem forward4_length (c : TransformContext) (a : List Nat) : (forward4 c a).length = a.length := by
  simp [forward4]

@[simp] theorem inverse4_length (c : TransformContext) (a : List Nat) : (inverse4 c a).length = a.length := by
  simp [inverse4]

@[simp] theorem bufNats_length (s : State) (d : Buf) (n : Nat) : (s.bufNats d n).length = n := by
  simp [State.bufNats, State.bufWords]

end Sys2Proof.Laws
end

