-- ==== Sys2Proof/Laws/PerInstr.lean ====
section
/-! SUPPORT. The family EncodeMatchesRow: the encoding of a command matches its own row of the opcode map under the row's
mask (R106), and its value written to CMD is a legal command (R104, R107). -/

namespace Sys2Proof.Laws.EncodeMatchesRow

/-- The encoding matches the row, and the value is legal. -/
def Statement (i : Instr) : Prop :=
  encode i &&& i.maskWord = i.matchWord ∧ legalCommand (commandValue i) = true

theorem nop : Statement .nop := by unfold Statement; decide
theorem madd : Statement .madd := by unfold Statement; decide
theorem msub : Statement .msub := by unfold Statement; decide
theorem mmul : Statement .mmul := by unfold Statement; decide
theorem mpow : Statement .mpow := by unfold Statement; decide
theorem minvf : Statement .minvf := by unfold Statement; decide
theorem minve : Statement .minve := by unfold Statement; decide
theorem montInit : Statement .montInit := by unfold Statement; decide
theorem montMul : Statement .montMul := by unfold Statement; decide
theorem montTo : Statement .montTo := by unfold Statement; decide
theorem montFrom : Statement .montFrom := by unfold Statement; decide
theorem ctAdd : Statement .ctAdd := by unfold Statement; decide
theorem ctSub : Statement .ctSub := by unfold Statement; decide
theorem ctxBuild : Statement .ctxBuild := by unfold Statement; decide
theorem rootCheck : Statement .rootCheck := by unfold Statement; decide
theorem bitrev (d : Buf) : Statement (.bitrev d) := by cases d <;> (unfold Statement; decide)
theorem bfly2 : Statement .bfly2 := by unfold Statement; decide
theorem bfly4 : Statement .bfly4 := by unfold Statement; decide
theorem nttFwd2 (d : Buf) : Statement (.nttFwd2 d) := by cases d <;> (unfold Statement; decide)
theorem nttInv2 (d : Buf) : Statement (.nttInv2 d) := by cases d <;> (unfold Statement; decide)
theorem nttFwd4 (d : Buf) : Statement (.nttFwd4 d) := by cases d <;> (unfold Statement; decide)
theorem nttInv4 (d : Buf) : Statement (.nttInv4 d) := by cases d <;> (unfold Statement; decide)
theorem rnsInit : Statement .rnsInit := by unfold Statement; decide
theorem toRns (d : Vec) : Statement (.toRns d) := by cases d <;> (unfold Statement; decide)
theorem fromRns (d : Vec) : Statement (.fromRns d) := by cases d <;> (unfold Statement; decide)
theorem radd (d src : Vec) : Statement (.radd d src) := by
  cases d <;> cases src <;> (unfold Statement; decide)
theorem rmul (d src : Vec) : Statement (.rmul d src) := by
  cases d <;> cases src <;> (unfold Statement; decide)
theorem padd (d src : Buf) : Statement (.padd d src) := by
  cases d <;> cases src <;> (unfold Statement; decide)
theorem psub (d src : Buf) : Statement (.psub d src) := by
  cases d <;> cases src <;> (unfold Statement; decide)
theorem pmul (d src : Buf) : Statement (.pmul d src) := by
  cases d <;> cases src <;> (unfold Statement; decide)

end Sys2Proof.Laws.EncodeMatchesRow
end

