-- ==== Sys2Proof/Laws/Step.lean ====
section
/-! SUPPORT. What one step can do: one turn, of the host, the unit or the power. -/

namespace Sys2Proof.Laws

open Sys2Proof.Machine

/-- Everything the unit's turn can do (R360). -/
theorem unitTurn_cases {s t : State} (h : unitTurn s = .next t) :
    (s.latch = none ∧ t = s) ∨
      (∃ v e, s.latch = some v ∧ decode v = .error e ∧ t = { s with code := .illegalCommand, latch := none }) ∨
      ∃ v i, s.latch = some v ∧ decode v = .ok i ∧ exec i s = .next t := by
  unfold unitTurn at h
  cases hl : s.latch with
  | none =>
    rw [hl] at h
    exact .inl ⟨rfl, by cases h; rfl⟩
  | some v =>
    rw [hl] at h
    simp only [runCommand] at h
    cases hd : decode v with
    | error e =>
      rw [hd] at h
      exact .inr (.inl ⟨v, e, rfl, hd, by cases h; rfl⟩)
    | ok i =>
      rw [hd] at h
      exact .inr (.inr ⟨v, i, rfl, hd, h⟩)

/-- Everything one step can do: the unit's turn once the agenda is empty, else the agenda's first turn. -/
theorem step_cases {s t : State} (h : step s = .next t) :
    (s.agenda = [] ∧ unitTurn s = .next t) ∨
      (∃ rest, s.agenda = .unit :: rest ∧ unitTurn { s with agenda := rest } = .next t) ∨
      (∃ a rest, s.agenda = .host a :: rest ∧ hostAccess a { s with agenda := rest } = .next t) ∨
      ∃ rest, s.agenda = .powerOn :: rest ∧ t = ({ s with agenda := rest } : State).powerCycle := by
  simp only [step, nextTurn] at h
  cases ha : s.agenda with
  | nil =>
    rw [ha] at h
    exact .inl ⟨rfl, h⟩
  | cons x rest =>
    rw [ha] at h
    cases x with
    | host a => exact .inr (.inr (.inl ⟨a, rest, rfl, h⟩))
    | unit => exact .inr (.inl ⟨rest, rfl, h⟩)
    | powerOn => exact .inr (.inr (.inr ⟨rest, rfl, by cases h; rfl⟩))

end Sys2Proof.Laws
end

