-- ==== Sys2Proof/Tests/Slice0.lean ====
section
/-! SUPPORT. Tests. Expected values come from the spec: the encoding tables of 30_encoding.md and the vectors of
95_test_vectors.md, whose table or example each test names. The witnesses at the end show, for each statement with
hypotheses, concrete states and operands that meet them. -/

namespace Sys2Proof.Tests

set_option Elab.async false

open Sys2Proof Sys2Proof.Machine Sys2Proof.Safety

/-! ### Helpers -/

/-- p64 = 2^64 - 59, a prime (95_test_vectors.md). -/
def p64 : Word := 18446744073709551557

/-- The power-on state with KMOD = m and the given OP0 … OP7. -/
def withOps (m : Word) (o : Vector Word 8) : State := { State.powerOn Config.params with kmod := m, op := o }

/-- The power-on state with KMOD = m, OP0 = a, OP1 = b. -/
def kern (m a b : Word) : State := withOps m #v[a, b, 0, 0, 0, 0, 0, 0]

/-- `s` with BUF[d] = xs from word 0, BUF_LEN[d] their number, and the tag. -/
def withBuf (s : State) (d : Buf) (xs : List Word) (tag : Domain) : State :=
  ((s.writeBuf d xs).setBufLen d (Word.ofNat xs.length)).setBufDom d tag

/-- The next state of an answer, if it is one. -/
def nextOf : Result → Option State
  | .next t => some t
  | _ => none

/-- The state after the command of word `w`, run as the next step. -/
def after (s : State) (w : Nat) : State := (nextOf (step (s.withFetchWord 32 w))).getD s

/-- The state after the host's access. -/
def access (s : State) (a : Access) : State := (nextOf (hostAccess a s)).getD s

/-- The state in which a command's meaning ends. -/
def result (i : Instr) (s : State) : State := (nextOf (exec i s)).getD s

/-- The state after one step. -/
def stepped (s : State) : State := (nextOf (step s)).getD s

theorem eq_next {r : Result} {s : State} (h : (nextOf r).isSome = true) : r = .next ((nextOf r).getD s) := by
  cases r <;> first | rfl | cases h

/-- The legal transform context (17, 9, 4) of example E4. -/
def ctx4 : TransformContext := transformContext 17 4 9

/-- The legal Montgomery context for 97 (2.3). -/
def mont97 : MontgomeryContext := montgomeryContext 97

/-- The legal base [3, 5, 7] of example E3. -/
def base357 : RnsBase := rnsBase [3, 5, 7]

/-- A state with the three contexts, KMOD = 97, OP0 = a, OP1 = b. -/
def full (a b : Word) : State := { kern 97 a b with tc := some ctx4, mont := some mont97, rns := some base357 }

/-- `full` with RV0 and RV1. -/
def withRv (x0 x1 x2 y0 y1 y2 : Word) : State :=
  { full 52 0 with
    rv0 := (((Vector.replicate 16 0).set 0 x0).set 1 x1).set 2 x2
    rv1 := (((Vector.replicate 16 0).set 0 y0).set 1 y1).set 2 y2 }

/-- `full` with BUF0 = xs and its tag, and KMOD = 17. -/
def poly (xs : List Word) (tag : Domain) : State := withBuf { full 9 4 with kmod := 17 } .b0 xs tag

/-- BASE_IN = ms and BASE_K_IN = k (2.6). -/
def proposed (k : Word) (m0 m1 m2 : Word) : State :=
  { full 0 0 with baseKIn := k, baseIn := (((Vector.replicate 16 0).set 0 m0).set 1 m1).set 2 m2 }

/-! ### Well-formedness refuses an ill-formed term, one test for each check -/

theorem test_params_logNMax_low : ({ logNMax := 1, kMax := 4, unitBase := 0 } : Params).wellFormed = false := by decide
theorem test_params_logNMax_high :
    ({ logNMax := 14, kMax := 4, unitBase := 0 } : Params).wellFormed = false := by decide
theorem test_params_kMax_low : ({ logNMax := 4, kMax := 2, unitBase := 0 } : Params).wellFormed = false := by decide
theorem test_params_kMax_high : ({ logNMax := 4, kMax := 17, unitBase := 0 } : Params).wellFormed = false := by decide
theorem test_params_ok : ({ logNMax := 13, kMax := 16, unitBase := 5 } : Params).wellFormed = true := by decide

/-- UNIT_BASE = 0x1000 here. -/
theorem test_access_below :
    (Access.read 0xFF8 8).wellFormed { logNMax := 4, kMax := 4, unitBase := 0x1000 } = false := by decide
theorem test_access_above :
    (Access.read 0x31000 8).wellFormed { logNMax := 4, kMax := 4, unitBase := 0x1000 } = false := by decide
theorem test_access_width : (Access.read 0x20 4).wellFormed Config.params = false := by decide
theorem test_access_misaligned : (Access.write 0x24 8 1).wellFormed Config.params = false := by decide
theorem test_access_ok :
    (Access.read 0x30FF8 8).wellFormed { logNMax := 4, kMax := 4, unitBase := 0x1000 } = true := by decide

theorem test_legal_upper : legalCommand 0x100000000 = false := by decide
theorem test_legal_rsvd : legalCommand 0x400 = false := by decide
theorem test_legal_opcode : legalCommand 0x35 = false := by decide
theorem test_legal_unused_d : legalCommand 0x110 = false := by decide
theorem test_legal_unused_s : legalCommand 0x210 = false := by decide
theorem test_legal_unused_s_of_d : legalCommand 0x238 = false := by decide
theorem test_legal_ok : legalCommand 0x343 = true := by decide

/-! ### Decoding: words written out from R101 (OPC 7:0, D 8, S 9) and the opcode map R105 -/

theorem test_decode_nop : decode 0b00000000 = .ok .nop := by decide
theorem test_decode_madd : decode 0b00010000 = .ok .madd := by decide
theorem test_decode_msub : decode 0b00010001 = .ok .msub := by decide
theorem test_decode_mmul : decode 0b00010010 = .ok .mmul := by decide
theorem test_decode_mpow : decode 0b00010011 = .ok .mpow := by decide
theorem test_decode_minvf : decode 0b00010100 = .ok .minvf := by decide
theorem test_decode_minve : decode 0b00010101 = .ok .minve := by decide
theorem test_decode_montInit : decode 0b00100000 = .ok .montInit := by decide
theorem test_decode_montMul : decode 0b00100001 = .ok .montMul := by decide
theorem test_decode_montTo : decode 0b00100010 = .ok .montTo := by decide
theorem test_decode_montFrom : decode 0b00100011 = .ok .montFrom := by decide
theorem test_decode_ctAdd : decode 0b00100100 = .ok .ctAdd := by decide
theorem test_decode_ctSub : decode 0b00100101 = .ok .ctSub := by decide
theorem test_decode_ctxBuild : decode 0b00110000 = .ok .ctxBuild := by decide
theorem test_decode_rootCheck : decode 0b00110001 = .ok .rootCheck := by decide
theorem test_decode_bitrev : decode 0b0_00110010 = .ok (.bitrev .b0) ∧ decode 0b1_00110010 = .ok (.bitrev .b1) := by
  decide
theorem test_decode_bfly2 : decode 0b00110011 = .ok .bfly2 := by decide
theorem test_decode_bfly4 : decode 0b00110100 = .ok .bfly4 := by decide
theorem test_decode_nttFwd2 : decode 0b0_00111000 = .ok (.nttFwd2 .b0) ∧ decode 0b1_00111000 = .ok (.nttFwd2 .b1) := by
  decide
theorem test_decode_nttInv2 : decode 0b0_00111001 = .ok (.nttInv2 .b0) ∧ decode 0b1_00111001 = .ok (.nttInv2 .b1) := by
  decide
theorem test_decode_nttFwd4 : decode 0b0_00111010 = .ok (.nttFwd4 .b0) ∧ decode 0b1_00111010 = .ok (.nttFwd4 .b1) := by
  decide
theorem test_decode_nttInv4 : decode 0b0_00111011 = .ok (.nttInv4 .b0) ∧ decode 0b1_00111011 = .ok (.nttInv4 .b1) := by
  decide
theorem test_decode_rnsInit : decode 0b01000000 = .ok .rnsInit := by decide
theorem test_decode_toRns : decode 0b0_01000001 = .ok (.toRns .v0) ∧ decode 0b1_01000001 = .ok (.toRns .v1) := by decide
theorem test_decode_fromRns : decode 0b0_01000010 = .ok (.fromRns .v0) ∧ decode 0b1_01000010 = .ok (.fromRns .v1) := by
  decide
theorem test_decode_radd : decode 0b01_01000011 = .ok (.radd .v1 .v0) ∧ decode 0b10_01000011 = .ok (.radd .v0 .v1) := by
  decide
theorem test_decode_rmul : decode 0b01_01000100 = .ok (.rmul .v1 .v0) ∧ decode 0b10_01000100 = .ok (.rmul .v0 .v1) := by
  decide
theorem test_decode_padd : decode 0b01_01010000 = .ok (.padd .b1 .b0) ∧ decode 0b10_01010000 = .ok (.padd .b0 .b1) := by
  decide
theorem test_decode_psub : decode 0b01_01010001 = .ok (.psub .b1 .b0) ∧ decode 0b10_01010001 = .ok (.psub .b0 .b1) := by
  decide
theorem test_decode_pmul : decode 0b01_01010010 = .ok (.pmul .b1 .b0) ∧ decode 0b11_01010010 = .ok (.pmul .b1 .b1) := by
  decide

/-- The illegal words of 2.1. -/
theorem test_decode_illegal :
    decode 0x01 = .error .opcode ∧ decode 0x35 = .error .opcode ∧ decode 0xFF = .error .opcode ∧
      decode 0x110 = .error .unusedField ∧ decode 0x238 = .error .unusedField ∧ decode 0x400 = .error .reservedBits ∧
      decode 0x80000050 = .error .reservedBits ∧ decode 0x100000000 = .error .upperHalf := by decide

/-- The ends of every reserved range of R107. -/
theorem test_decode_reserved_ends :
    [0x01, 0x0F, 0x16, 0x1F, 0x26, 0x2F, 0x35, 0x37, 0x3C, 0x3F, 0x45, 0x4F, 0x53, 0xFF].map decode =
      List.replicate 14 (.error .opcode) := by decide

/-! ### One command each (2.2 to 2.7, E1 to E11) -/

theorem test_nop : (after { full 3 4 with code := .noContext } 0x00).code = .ok := by decide +kernel
theorem test_madd : (after (kern 17 10 12) 0x10).rs[0] = 5 := by decide +kernel
theorem test_madd_65_bits :
    (after (kern 0xFFFFFFFFFFFFFFFF 0xFFFFFFFFFFFFFFFE 0xFFFFFFFFFFFFFFFE) 0x10).rs[0] = 18446744073709551613 := by
  decide +kernel
theorem test_msub : (after (kern 17 3 5) 0x11).rs[0] = 15 := by decide +kernel
theorem test_msub_range : (after (kern 17 17 5) 0x11).code = .operandRange := by decide +kernel
theorem test_mmul : (after (kern 17 16 16) 0x12).rs[0] = 1 := by decide +kernel
theorem test_mmul_128_bits : (after (kern p64 (p64 - 2) (p64 - 3)) 0x12).rs[0] = 6 := by decide +kernel
theorem test_mpow_full_exponent : (after (kern 17 3 0xFFFFFFFFFFFFFFFF) 0x13).rs[0] = 6 := by decide +kernel
theorem test_mpow_zero_zero : (after (kern 17 0 0) 0x13).rs[0] = 1 := by decide +kernel
theorem test_minvf_composite : (after (kern 15 2 0) 0x14).rs[0] = 2 := by decide +kernel
theorem test_minvf_zero : (after (kern 17 0 0) 0x14).code = .notInvertible := by decide +kernel
theorem test_minve_composite : (after (kern 15 2 0) 0x15).rs[0] = 8 := by decide +kernel
theorem test_minve_not_coprime : (after (kern 9 3 0) 0x15).code = .notInvertible := by decide +kernel
theorem test_montInit : (after (kern 97 0 0) 0x20).mont = some ⟨97, 35, 0x5C5F02A3A0FD5C5F, 35⟩ := by decide +kernel
theorem test_montInit_even :
    (after { full 0 0 with kmod := 96 } 0x20).mont = none ∧ (after { full 0 0 with kmod := 96 } 0x20).code = .invalidModulus := by
  decide +kernel
theorem test_montMul : (after (full 5 7) 0x21).rs[0] = 61 := by decide +kernel
theorem test_montMul_no_context : (after (kern 97 1 1) 0x21).code = .noContext := by decide +kernel
theorem test_montTo : (after (full 5 0) 0x22).rs[0] = 14 := by decide +kernel
theorem test_montFrom : (after (full 5 0) 0x23).rs[0] = 78 := by decide +kernel
theorem test_montFrom_range : (after (full 97 0) 0x23).code = .operandRange := by decide +kernel
theorem test_ctAdd : (after (full 90 10) 0x24).rs[0] = 3 := by decide +kernel
theorem test_ctSub : (after (full 3 10) 0x25).rs[0] = 90 := by decide +kernel
theorem test_ctxBuild : (after (kern 17 9 4) 0x30).tc.map (·.twiddles) =
    some ⟨[16, 13], [16, 4], [(13, 16, 4)], [(4, 16, 13)], some 13, some 4, 13⟩ := by decide +kernel
theorem test_ctxBuild_wrong_root :
    (after { full 13 4 with kmod := 17 } 0x30).tc = none ∧
      (after { full 13 4 with kmod := 17 } 0x30).code = .invalidRoot := by decide +kernel
theorem test_rootCheck : (after (kern 17 2 4) 0x31).rs[0] = 1 := by decide +kernel
theorem test_rootCheck_invalid : (after { kern 17 13 4 with rs := #v[9, 9, 9, 9] } 0x31).rs[0] = 0 := by decide +kernel
theorem test_bitrev :
    (after (poly [0, 1, 2, 3, 4, 5, 6, 7] .evaluation) 0x32).bufWords .b0 8 = [0, 4, 2, 6, 1, 5, 3, 7] := by
  decide +kernel
theorem test_bitrev_size : (after { kern 17 0 0 with bufLen0 := 6 } 0x32).code = .invalidSize := by decide +kernel
theorem test_bfly2 : (after (withOps 17 #v[1, 3, 16, 0, 0, 0, 0, 0]) 0x33).rs = #v[15, 4, 0, 0] := by decide +kernel
theorem test_bfly4 : (after (withOps 17 #v[1, 3, 2, 4, 1, 1, 1, 13]) 0x34).rs = #v[10, 6, 15, 7] := by decide +kernel
theorem test_bfly4_ones :
    (after (withOps 17 #v[1, 2, 3, 4, 1, 1, 1, 1]) 0x34).rs = #v[10, 15, 13, 0] := by decide +kernel
theorem test_nttFwd2 :
    (after (poly [1, 2, 3, 4] .coefficient) 0x38).bufWords .b0 4 = [10, 6, 15, 7] := by decide +kernel
theorem test_nttFwd2_tag : (after (poly [1, 2, 3, 4] .coefficient) 0x38).bufDom0 = .evaluation := by decide +kernel
theorem test_nttInv2 : (after (poly [10, 6, 15, 7] .evaluation) 0x39).bufWords .b0 4 = [1, 2, 3, 4] := by decide +kernel
theorem test_nttInv2_range : (after (poly [10, 6, 17, 7] .evaluation) 0x39).code = .operandRange := by decide +kernel
theorem test_nttFwd4 :
    (after (poly [0, 1, 0, 0] .coefficient) 0x3A).bufWords .b0 4 = [1, 13, 16, 4] := by decide +kernel
theorem test_nttFwd4_tag : (after (poly [1, 2, 3, 4] .evaluation) 0x3A).code = .domainMismatch := by decide +kernel
theorem test_nttInv4 : (after (poly [10, 6, 15, 7] .evaluation) 0x3B).bufWords .b0 4 = [1, 2, 3, 4] := by decide +kernel
theorem test_nttInv4_odd_log :
    (after { withBuf (kern 17 0 0) .b0 [1, 2] .evaluation with tc := some (transformContext 17 2 4) } 0x3B).code =
      .invalidSize := by decide +kernel
theorem test_rnsInit :
    (after (proposed 3 3 5 7) 0x40).rns.map (fun r => (r.rnsMProd, r.rnsMi.toList.take 4, r.rnsMiInv.toList.take 4)) =
    some (105, [35, 21, 15, 0], [2, 1, 1, 0]) := by decide +kernel
theorem test_rnsInit_not_coprime : (after (proposed 2 6 4 0) 0x40).code = .notInvertible := by decide +kernel
theorem test_toRns : (after (full 52 0) 0x41).rv0.toList.take 4 = [1, 2, 3, 0] := by decide +kernel
theorem test_toRns_v1 : (after (full 83 0) 0x141).rv1.toList.take 4 = [2, 3, 6, 0] := by decide +kernel
theorem test_fromRns : (after (withRv 1 2 3 2 3 6) 0x42).rs[0] = 52 := by decide +kernel
theorem test_fromRns_range : (after (withRv 3 0 0 0 0 0) 0x42).code = .operandRange := by decide +kernel
theorem test_radd : (after (withRv 1 2 3 2 3 6) 0x243).rv0.toList.take 4 = [0, 0, 2, 0] := by decide +kernel
theorem test_radd_self : (after (withRv 1 2 3 2 3 6) 0x343).rv1.toList.take 4 = [1, 1, 5, 0] := by decide +kernel
theorem test_rmul : (after (withRv 1 2 3 2 3 6) 0x244).rv0.toList.take 4 = [2, 1, 4, 0] := by decide +kernel
theorem test_rmul_range : (after (withRv 1 2 3 2 5 6) 0x244).code = .operandRange := by decide +kernel

/-- KMOD = 11, BUF0 = [3, 4], BUF1 = [7, 8], both tags 0 (2.7). -/
def pair : State := withBuf (withBuf (kern 11 0 0) .b0 [3, 4] .coefficient) .b1 [7, 8] .coefficient

theorem test_padd : (after pair 0x250).bufWords .b0 2 = [10, 1] := by decide +kernel
theorem test_padd_self : (after pair 0x350).bufWords .b1 2 = [3, 5] := by decide +kernel
theorem test_psub : (after pair 0x251).bufWords .b0 2 = [7, 7] := by decide +kernel
theorem test_psub_length : (after { pair with bufLen1 := 3 } 0x251).code = .sizeMismatch := by decide +kernel
theorem test_pmul : (after pair 0x252).bufWords .b0 2 = [10, 10] := by decide +kernel
theorem test_pmul_tag : (after { pair with bufDom1 := .evaluation } 0x252).code = .domainMismatch := by decide +kernel

/-! ### The protocol (2.8) -/

/-- MINVF issued with KMOD = 17, OP0 = 3, its completion still to come. -/
def issued : State := access (kern 17 3 0) (.write 0x010 8 0x14)

theorem test_busy : (access issued (.read 0x018 8)).readData = 0x100 := by decide
theorem test_overrun : (stepped (access issued (.write 0x040 8 5))).statusWord = 0x200 := by decide
theorem test_overrun_result : (stepped (access issued (.write 0x040 8 5))).rs[0] = 6 := by decide
theorem test_overrun_cleared :
    (access { kern 17 3 0 with ovr := true } (.write 0x018 8 0x200)).statusWord = 0 := by decide
theorem test_busy_cmd_dropped : (access issued (.write 0x010 8 0x10)).latch = some 0x14 := by decide
theorem test_caps : (access issued (.read 0x000 8)).readData = 0x0404 := by decide
theorem test_soft_reset : (access (full 9 4) (.write 0x008 8 1)).statusWord = 0 := by decide
theorem test_soft_reset_busy : (access issued (.write 0x008 8 1)).latch = none := by decide
theorem test_illegal_command : (after (full 1 1) 0x110).statusWord = 0x1C08 := by decide
/-- P6's error code 3 (InvalidRoot), as STATUS reads it. -/
theorem test_status_invalidRoot : (after (kern 17 13 4) 0x30).statusWord = 0x003 := by decide +kernel

/-- The Montgomery registers of 97 at the offsets of R46 (values of 2.3). -/
theorem test_read_mont :
    [0x0B8, 0x0C0, 0x0C8, 0x0D0].map (fun a => (access (full 9 4) (.read a 8)).readData) =
      [97, 35, 0x5C5F02A3A0FD5C5F, 35] := by decide +kernel

theorem test_unmapped_reads_zero : (access (full 9 4) (.read 0x030 8)).readData = 0 := by decide

/-! ### Witnesses: the hypotheses of the statements, met clause by clause -/

/-- 3 is no power of two. -/
theorem three_not_legal (p : Params) : ¬ legalSize p 3 := by
  rintro ⟨⟨k, hk⟩, _⟩
  match k, hk with
  | 0, h => simp at h
  | 1, h => simp at h
  | k + 2, h => rw [Nat.pow_add] at h; omega

theorem zero_not_legal (p : Params) : ¬ legalSize p 0 := by
  rintro ⟨⟨k, hk⟩, _⟩
  exact absurd hk.symm (Nat.two_pow_pos k).ne'

theorem ctx4_legal : TransformLegal Config.params ctx4 where
  odd := by decide
  three_le := by decide
  congruent := by decide
  size := ⟨⟨2, rfl⟩, by decide⟩
  root_lt := by decide
  half := by decide
  order := by decide
  least := by
    intro k h0 h1
    have h2 : k < 8 := h1
    interval_cases k <;> decide
  table := rfl

/-- The legal contexts (17, 4, 2) and (17, 16, 1), of odd log2 n and of one coefficient. -/
def ctx2 : TransformContext := transformContext 17 2 4

def ctx1 : TransformContext := transformContext 17 1 16

theorem ctx2_legal : TransformLegal Config.params ctx2 where
  odd := by decide
  three_le := by decide
  congruent := by decide
  size := ⟨⟨1, rfl⟩, by decide⟩
  root_lt := by decide
  half := by decide
  order := by decide
  least := by
    intro k h0 h1
    have h2 : k < 4 := h1
    interval_cases k <;> decide
  table := rfl

theorem ctx1_legal : TransformLegal Config.params ctx1 where
  odd := by decide
  three_le := by decide
  congruent := by decide
  size := ⟨⟨0, rfl⟩, by decide⟩
  root_lt := by decide
  half := by decide
  order := by decide
  least := by
    intro k h0 h1
    have h2 : k < 2 := h1
    interval_cases k
    decide
  table := rfl

theorem mont97_legal : MontgomeryLegal mont97 where
  odd := by decide
  three_le := by decide
  r2 := by decide
  mp := by decide +kernel
  rInv_lt := by decide +kernel
  rInv := by decide +kernel

theorem slot_out {v : Vector Word 16} {i : Nat} (h : 16 ≤ i) : slot v i = 0 := by
  simp [slot, Vector.getElem?_eq_none h]

theorem base357_legal : RnsLegal Config.params base357 where
  one_le := by decide
  le_kMax := by decide
  two_le := by decide +kernel
  coprime := by decide +kernel
  product := by decide +kernel
  mi := by decide +kernel
  miInv_lt := by decide +kernel
  miInv := by decide +kernel
  spare := by
    intro i hi
    by_cases h : i < 16
    · have h3 : 3 ≤ i := hi
      interval_cases i <;> decide +kernel
    · rw [slot_out (by omega), slot_out (by omega), slot_out (by omega)]
      exact ⟨rfl, rfl, rfl⟩

/-- Any state with the parameters of `Config.params` and these three contexts has legal contexts. -/
theorem contexts_legal (s : State) (hp : s.params = Config.params) (ht : s.tc = some ctx4) (hm : s.mont = some mont97)
    (hr : s.rns = some base357) : contextsLegal s := by
  refine ⟨by rw [hp]; decide, ?_, ?_, ?_⟩
  · intro c hc
    rw [ht] at hc
    cases hc
    rw [hp]
    exact ctx4_legal
  · intro c hc
    rw [hm] at hc
    cases hc
    exact mont97_legal
  · intro c hc
    rw [hr] at hc
    cases hc
    rw [hp]
    exact base357_legal

theorem exec_result (i : Instr) (s : State) (h : (nextOf (exec i s)).isSome = true) : exec i s = .next (result i s) :=
  eq_next h

theorem step_stepped (s : State) (h : (nextOf (step s)).isSome = true) : step s = .next (stepped s) := eq_next h

theorem access_next (s : State) (a : Access) (h : (nextOf (hostAccess a s)).isSome = true) :
    hostAccess a s = .next (access s a) := eq_next h

/-! #### Encoding and the step -/

theorem witness_IllegalCommandsAsListed :
    ∀ v ∈ [(0x01 : Word), 0x53, 0xFF, 0x100, 0x200, 0x238, 0x400, 0x80000000, 0x100000000],
      (∃ e, decode v = .error e) ∧ ({ kern 17 1 1 with latch := some v } : State).latch = some v := by
  intro v hv
  fin_cases hv <;> exact ⟨⟨_, rfl⟩, rfl⟩

theorem witness_MaskAndMatchSelectTheRow :
    (0x138 : CommandWord) &&& (Instr.nttFwd2 .b0).maskWord = (Instr.nttFwd2 .b0).matchWord ∧
      (0x138 : CommandWord) &&& (Instr.nttFwd2 .b1).maskWord = (Instr.nttFwd2 .b1).matchWord := by decide

theorem witness_StepRunsTheLatchedCommand :
    (let s : State := { kern 17 1 1 with latch := some 0x10 }
     s.latch = some 0x10 ∧ decode 0x10 = .ok .madd ∧ s.agenda = []) ∧
    (let s : State := { kern 17 1 1 with latch := some 0x10, agenda := [.unit, .powerOn] }
     s.latch = some 0x10 ∧ decode 0x10 = .ok .madd ∧ s.agenda = .unit :: [.powerOn]) ∧
    decodeTableWord 32 0x352 = some (.pmul .b1 .b1) := by decide

theorem witness_StepTakesTheNextTurn :
    (let s : State := { kern 17 1 1 with agenda := [.host (.read 0 8), .unit] }
     s.agenda = .host (.read 0 8) :: [.unit]) ∧
    (let s : State := { kern 17 1 1 with agenda := [.powerOn] }
     s.agenda = .powerOn :: []) ∧
    (let s : State := { kern 17 1 1 with agenda := [.unit] }
     s.agenda = .unit :: [] ∧ s.latch = none) ∧
    (let s : State := kern 17 1 1
     s.agenda = [] ∧ s.latch = none) := by decide

theorem witness_RunEndsWithNoCommandInProgress :
    let s : State :=
      { issued with agenda := [.host (.read 0 8), .unit, .host (.write 0x2FFF8 8 1), .host (.write 0x010 8 0x15)] }
    ∀ a, Turn.host a ∈ s.agenda → a.wellFormed s.params = true := by
  intro s a ha
  simp only [s, List.mem_cons, Turn.host.injEq, reduceCtorEq, List.not_mem_nil, false_or, or_false] at ha
  rcases ha with rfl | rfl | rfl <;> decide

/-! #### All commands -/

theorem witness_FailedCommandChangesOnlyCode :
    ∀ i ∈ [Instr.madd, .montInit, .ctxBuild, .rnsInit, .padd .b0 .b1],
      let s := { full 97 3 with kmod := 96, bufLen0 := 17 }
      exec i s = .next (result i s) ∧ (result i s).code ≠ .ok := by
  intro i hi
  fin_cases hi <;> exact ⟨exec_result _ _ (by decide +kernel), by decide +kernel⟩

theorem witness_CommandsLeaveTheirInputs :
    exec .nop (full 1 2) = .next (result .nop (full 1 2)) ∧
      exec .madd (full 1 2) = .next (result .madd (full 1 2)) := ⟨rfl, rfl⟩

theorem witness_CommandsStoreOnlyInTheirBuffer :
    (let s := poly [1, 2, 3, 4] .coefficient
     exec (.nttFwd2 .b0) s = .next (result (.nttFwd2 .b0) s) ∧ destBuf (.nttFwd2 .b0) = some .b0 ∧
       ¬ inBuf .b0 (s.bufLen .b0).toNat 0x10020 ∧ ¬ inBuf .b0 (s.bufLen .b0).toNat 0xFFFF) ∧
    destBuf .madd = none := by
  refine ⟨⟨exec_result _ _ (by decide +kernel), rfl, ?_, ?_⟩, rfl⟩ <;> (unfold inBuf; decide +kernel)

theorem witness_ContextsChangeOnlyByTheirBuild :
    (∀ w ∈ [(0x30 : Word), 0x20, 0x40], let s : State := { full 9 4 with kmod := 96, latch := some w }
      step s = .next (stepped s)) ∧
    (stepped { full 9 4 with kmod := 96, latch := some 0x30 }).tc ≠ (full 9 4).tc ∧
    (stepped { full 9 4 with kmod := 96, latch := some 0x20 }).mont ≠ (full 9 4).mont ∧
    (stepped { full 9 4 with kmod := 96, latch := some 0x40 }).rns ≠ (full 9 4).rns ∧
    (let s : State := { full 9 4 with kmod := 96, latch := some 0x30, agenda := [.unit] }
     step s = .next (stepped s) ∧ (stepped s).tc ≠ s.tc) ∧
    (let s : State := { full 9 4 with agenda := [.host (.write 0x008 8 1)] }
     step s = .next (stepped s) ∧ (stepped s).tc ≠ s.tc ∧ (stepped s).mont ≠ s.mont ∧ (stepped s).rns ≠ s.rns) := by
  refine ⟨?_, by decide +kernel, by decide +kernel, by decide +kernel,
    ⟨step_stepped _ (by decide +kernel), by decide +kernel⟩, step_stepped _ (by decide +kernel), by decide +kernel,
    by decide +kernel, by decide +kernel⟩
  intro w hw
  fin_cases hw <;> exact step_stepped _ (by decide +kernel)

/-! #### The modular kernel: the least modulus, the largest, and each failing check at its edge -/

/-- KMOD = m, OP0 = a, OP1 = b, as numbers. -/
abbrev KernIs (s : State) (m a b : Nat) : Prop := s.kmod.toNat = m ∧ s.op[0].toNat = a ∧ s.op[1].toNat = b

/-- The hypotheses of MaddRule, MsubRule and MmulRule, clause by clause. -/
theorem witness_TwoOperandRules :
    (KernIs (kern 2 1 1) 2 1 1 ∧ 2 ≤ 2 ∧ 1 < 2 ∧ 1 < 2) ∧
    (KernIs (kern 1 0 0) 1 0 0 ∧ 1 < 2) ∧
    (KernIs (kern 17 17 0) 17 17 0 ∧ 2 ≤ 17 ∧ (17 ≤ 17 ∨ 17 ≤ 0)) := by decide

theorem witness_MaddRule :
    KernIs (kern p64 (p64 - 1) (p64 - 1)) 18446744073709551557 18446744073709551556 18446744073709551556 ∧
    2 ≤ 18446744073709551557 ∧ 18446744073709551556 < 18446744073709551557 := by decide

theorem witness_MsubRule : KernIs (kern p64 0 1) 18446744073709551557 0 1 ∧ 2 ≤ 18446744073709551557 := by decide

theorem witness_MmulRule :
    KernIs (kern p64 (p64 - 1) (p64 - 1)) 18446744073709551557 18446744073709551556 18446744073709551556 ∧
    2 ≤ 18446744073709551557 ∧ 18446744073709551556 < 18446744073709551557 := by decide

theorem witness_MpowRule :
    (KernIs (kern 2 1 0) 2 1 0 ∧ 2 ≤ 2 ∧ 1 < 2) ∧
    (KernIs (kern 17 16 0xFFFFFFFFFFFFFFFF) 17 16 18446744073709551615 ∧ 2 ≤ 17 ∧ 16 < 17) ∧
    (KernIs (kern 1 0 0) 1 0 0 ∧ 1 < 2) ∧
    (KernIs (kern 17 17 1) 17 17 1 ∧ 2 ≤ 17 ∧ 17 ≤ 17) := by decide

theorem witness_MinvfRule :
    (KernIs (kern 2 1 0) 2 1 0 ∧ 2 ≤ 2 ∧ 1 < 2 ∧ 1 ≠ 0) ∧
    (KernIs (kern 1 0 0) 1 0 0 ∧ 1 < 2) ∧
    (KernIs (kern 17 17 0) 17 17 0 ∧ 2 ≤ 17 ∧ 17 ≤ 17) ∧
    (KernIs (kern 17 0 0) 17 0 0 ∧ 2 ≤ 17 ∧ 0 = 0) := by decide

theorem witness_MinveRule :
    (KernIs (kern 2 1 0) 2 1 0 ∧ 2 ≤ 2 ∧ 1 < 2 ∧ Nat.gcd 1 2 = 1) ∧
    (KernIs (kern 1 0 0) 1 0 0 ∧ 1 < 2) ∧
    (KernIs (kern 17 17 0) 17 17 0 ∧ 2 ≤ 17 ∧ 17 ≤ 17) ∧
    (KernIs (kern 9 3 0) 9 3 0 ∧ 2 ≤ 9 ∧ 3 < 9 ∧ Nat.gcd 3 9 ≠ 1) ∧
    (KernIs (kern 17 0 0) 17 0 0 ∧ 2 ≤ 17 ∧ 0 < 17 ∧ Nat.gcd 0 17 ≠ 1) := by decide

theorem witness_InversePoliciesAgreeOnPrimes : Nat.Prime (kern 17 3 0).kmod.toNat ∧ Nat.Prime (kern 2 1 0).kmod.toNat :=
  ⟨show Nat.Prime 17 by norm_num, show Nat.Prime 2 by norm_num⟩

/-! #### The Montgomery multiplier -/

theorem witness_MontInitRule :
    (KernIs (kern 3 0 0) 3 0 0 ∧ 2 ≤ 3 ∧ 3 % 2 = 1) ∧ (KernIs (kern 1 0 0) 1 0 0 ∧ (1 < 2 ∨ 1 % 2 = 0)) ∧
      (KernIs (kern 96 0 0) 96 0 0 ∧ (96 < 2 ∨ 96 % 2 = 0)) := by decide

theorem witness_MontgomeryReductionIsExact :
    MontgomeryLegal mont97 ∧ (96 : Word).toNat < mont97.montM.toNat ∧ (0 : Word).toNat < mont97.montM.toNat :=
  ⟨mont97_legal, by decide, by decide⟩

theorem witness_MontgomeryCommandsRule :
    MontgomeryLegal mont97 ∧
    ((full 96 96).mont = some mont97 ∧ mont97.montM.toNat = 97 ∧ KernIs (full 96 96) 97 96 96 ∧ 96 < 97 ∧ 96 < 97) ∧
    ((full 97 0).mont = some mont97 ∧ KernIs (full 97 0) 97 97 0 ∧ (97 ≤ 97 ∨ 97 ≤ 0) ∧ 97 ≤ 97) ∧
    (KernIs (kern 97 1 1) 97 1 1 ∧ (kern 97 1 1).mont = none) := by
  refine ⟨mont97_legal, ⟨rfl, ?_⟩, ⟨rfl, ?_⟩, ?_⟩ <;> decide

theorem witness_BranchFreeRule :
    ((full 0 96).mont = some mont97 ∧ mont97.montM.toNat = 97 ∧ KernIs (full 0 96) 97 0 96 ∧ 0 < 97 ∧ 96 < 97) ∧
    ((full 97 0).mont = some mont97 ∧ KernIs (full 97 0) 97 97 0 ∧ (97 ≤ 97 ∨ 97 ≤ 0)) ∧
    (KernIs (kern 97 0 0) 97 0 0 ∧ (kern 97 0 0).mont = none) := by
  refine ⟨⟨rfl, ?_⟩, ⟨rfl, ?_⟩, ?_⟩ <;> decide

theorem witness_MontgomeryDomainMultiplies :
    MontgomeryLegal mont97 ∧ (5 : Word).toNat < mont97.montM.toNat ∧ (96 : Word).toNat < mont97.montM.toNat :=
  ⟨mont97_legal, by decide, by decide⟩

/-! #### The transform context -/

theorem witness_ValidatorNeedsOneCheck : (2 ≤ 17 ∧ 4 = 2 ^ 2 ∧ 2 ≤ 62) ∧ (2 ≤ 2 ∧ 1 = 2 ^ 0 ∧ 0 ≤ 62) := by decide

theorem witness_RootCheckRule :
    (KernIs (kern 17 9 4) 17 9 4 ∧ (kern 17 9 4).params.wellFormed = true ∧ 2 ≤ 17 ∧ legalSize (kern 17 9 4).params 4 ∧
      9 < 17) ∧
    (KernIs (kern 2 1 16) 2 1 16 ∧ 2 ≤ 2 ∧ legalSize (kern 2 1 16).params 16 ∧ 1 < 2) ∧
    (KernIs (kern 1 0 1) 1 0 1 ∧ 1 < 2) ∧
    (KernIs (kern 17 9 0) 17 9 0 ∧ 2 ≤ 17 ∧ ¬ legalSize (kern 17 9 0).params 0) ∧
    (KernIs (kern 17 9 3) 17 9 3 ∧ 2 ≤ 17 ∧ ¬ legalSize (kern 17 9 3).params 3) ∧
    (KernIs (kern 17 9 32) 17 9 32 ∧ 2 ≤ 17 ∧ ¬ legalSize (kern 17 9 32).params 32) ∧
    (KernIs (kern 17 17 4) 17 17 4 ∧ 2 ≤ 17 ∧ legalSize (kern 17 17 4).params 4 ∧ 17 ≤ 17) :=
  ⟨⟨by decide, by decide, by decide, ⟨⟨2, rfl⟩, by decide⟩, by decide⟩,
   ⟨by decide, by decide, ⟨⟨4, rfl⟩, by decide⟩, by decide⟩,
   by decide,
   ⟨by decide, by decide, zero_not_legal _⟩,
   ⟨by decide, by decide, three_not_legal _⟩,
   ⟨by decide, by decide, fun h => absurd h.2 (by decide)⟩,
   ⟨by decide, by decide, ⟨⟨2, rfl⟩, by decide⟩, by decide⟩⟩

theorem witness_CtxBuildRule :
    (KernIs (kern 17 9 4) 17 9 4 ∧ (kern 17 9 4).params.wellFormed = true ∧ 2 ≤ 17 ∧ legalSize (kern 17 9 4).params 4 ∧
      (17 - 1) % (2 * 4) = 0 ∧ 9 < 17 ∧ 9 ^ 4 % 17 = 17 - 1) ∧
    (KernIs (kern 17 16 1) 17 16 1 ∧ legalSize (kern 17 16 1).params 1 ∧ (17 - 1) % (2 * 1) = 0 ∧ 16 ^ 1 % 17 = 17 - 1) ∧
    (KernIs (kern 1 0 1) 1 0 1 ∧ (kern 1 0 1).params.wellFormed = true ∧ 1 < 2) ∧
    (KernIs (kern 17 9 32) 17 9 32 ∧ 2 ≤ 17 ∧ ¬ legalSize (kern 17 9 32).params 32) ∧
    (KernIs (kern 16 9 4) 16 9 4 ∧ 2 ≤ 16 ∧ legalSize (kern 16 9 4).params 4 ∧ (16 - 1) % (2 * 4) ≠ 0) ∧
    (KernIs (kern 17 17 4) 17 17 4 ∧ 2 ≤ 17 ∧ legalSize (kern 17 17 4).params 4 ∧ (17 - 1) % (2 * 4) = 0 ∧ 17 ≤ 17) ∧
    (KernIs (kern 17 13 4) 17 13 4 ∧ 2 ≤ 17 ∧ legalSize (kern 17 13 4).params 4 ∧ (17 - 1) % (2 * 4) = 0 ∧ 13 < 17 ∧
      13 ^ 4 % 17 ≠ 17 - 1) :=
  ⟨⟨by decide, by decide, by decide, ⟨⟨2, rfl⟩, by decide⟩, by decide⟩,
   ⟨by decide, ⟨⟨0, rfl⟩, by decide⟩, by decide⟩,
   by decide,
   ⟨by decide, by decide, fun h => absurd h.2 (by decide)⟩,
   ⟨by decide, by decide, ⟨⟨2, rfl⟩, by decide⟩, by decide⟩,
   ⟨by decide, by decide, ⟨⟨2, rfl⟩, by decide⟩, by decide⟩,
   ⟨by decide, by decide, ⟨⟨2, rfl⟩, by decide⟩, by decide⟩⟩

/-- b = 2 is even and at least 2, and stage numbers 1 and 2 and t = 1 are the ends of their ranges. -/
theorem witness_TwiddleTableFacts :
    Config.params.wellFormed = true ∧ TransformLegal Config.params ctx4 ∧ ctx4.tcM.toNat = 17 ∧ ctx4.tcN.toNat = 4 ∧
      4 = 2 ^ 2 ∧ 2 % 2 = 0 ∧ 2 ≤ 2 ∧ 1 ≤ 2 / 2 :=
  ⟨by decide, ctx4_legal, by decide, by decide, by decide⟩

/-- b = 1 is odd and below 2, and b = 0 is even and below 2. -/
theorem witness_TwiddleTableFacts_small :
    (TransformLegal Config.params ctx2 ∧ ctx2.tcM.toNat = 17 ∧ ctx2.tcN.toNat = 2 ∧ 2 = 2 ^ 1 ∧ 1 % 2 = 1 ∧ 1 < 2 ∧
      1 ≤ 1) ∧
    (TransformLegal Config.params ctx1 ∧ ctx1.tcM.toNat = 17 ∧ ctx1.tcN.toNat = 1 ∧ 1 = 2 ^ 0 ∧ 0 % 2 = 0 ∧ 0 < 2) :=
  ⟨⟨ctx2_legal, by decide, by decide, by decide⟩, ctx1_legal, by decide, by decide, by decide⟩

theorem witness_BitrevRule :
    (let s := poly [0, 1, 2, 3, 4, 5, 6, 7] .evaluation
     (s.bufLen .b0).toNat = 8 ∧ 8 = 2 ^ 3 ∧ 8 ≤ s.params.nMax) ∧
    (let s : State := { kern 17 0 0 with bufLen1 := 16 }
     (s.bufLen .b1).toNat = 16 ∧ 16 = 2 ^ 4 ∧ 16 ≤ s.params.nMax) ∧
    (let s : State := { kern 17 0 0 with bufLen1 := 32 }
     (s.bufLen .b1).toNat = 32 ∧ ¬ legalSize s.params 32) ∧
    ((kern 17 0 0).bufLen .b0).toNat = 0 ∧ ¬ legalSize (kern 17 0 0).params 0 :=
  ⟨by decide +kernel, by decide, ⟨by decide, fun h => absurd h.2 (by decide)⟩, by decide, zero_not_legal _⟩

theorem witness_BitrevTwiceRestores :
    let s := poly [0, 1, 2, 3] .coefficient
    exec (.bitrev .b0) s = .next (result (.bitrev .b0) s) ∧
      exec (.bitrev .b0) (result (.bitrev .b0) s) = .next (result (.bitrev .b0) (result (.bitrev .b0) s)) :=
  ⟨exec_result _ _ (by decide +kernel), exec_result _ _ (by decide +kernel)⟩

/-! #### Butterflies and transforms -/

theorem witness_Bfly2Rule :
    (let s := withOps 17 #v[16, 16, 16, 0, 0, 0, 0, 0]
     KernIs s 17 16 16 ∧ s.op[2].toNat = 16 ∧ 2 ≤ 17 ∧ 16 < 17) ∧
    (KernIs (kern 1 0 0) 1 0 0 ∧ (kern 1 0 0).op[2].toNat = 0 ∧ 1 < 2) ∧
    (let s := withOps 17 #v[0, 0, 17, 0, 0, 0, 0, 0]
     KernIs s 17 0 0 ∧ s.op[2].toNat = 17 ∧ 2 ≤ 17 ∧ (17 ≤ 0 ∨ 17 ≤ 0 ∨ 17 ≤ 17)) := by decide +kernel

/-- The five integers are named by equations that every state meets. -/
theorem witness_Bfly4Rule :
    (let s := withOps 17 #v[1, 3, 2, 4, 1, 1, 1, 16]
     s.kmod.toNat = 17 ∧ 2 ≤ 17 ∧ ∀ x ∈ s.op.toList, x.toNat < 17) ∧
    ((kern 1 0 0).kmod.toNat = 1 ∧ 1 < 2) ∧
    (let s := withOps 17 #v[1, 3, 2, 4, 1, 1, 1, 17]
     s.kmod.toNat = 17 ∧ 2 ≤ 17 ∧ ∃ x ∈ s.op.toList, 17 ≤ x.toNat) := by
  refine ⟨⟨rfl, by decide, fun x hx => ?_⟩, ⟨rfl, by decide⟩, rfl, by decide, 17, by decide, by decide⟩
  have h : x ∈ [(1 : Word), 3, 2, 4, 1, 1, 1, 16] := hx
  fin_cases h <;> decide

theorem witness_TransformsComplete :
    (let s := poly [16, 0, 3, 4] .coefficient
     s.tc = some ctx4 ∧ ctx4.tcN.toNat = 4 ∧ s.bufLen .b0 = ctx4.tcN ∧ (∀ x ∈ s.bufNats .b0 4, x < ctx4.tcM.toNat) ∧
       s.bufDom .b0 = .coefficient ∧ Nat.log2 4 % 2 = 0) ∧
    (let s := poly [10, 6, 15, 7] .evaluation
     s.tc = some ctx4 ∧ s.bufLen .b0 = ctx4.tcN ∧ (∀ x ∈ s.bufNats .b0 4, x < ctx4.tcM.toNat) ∧
       s.bufDom .b0 = .evaluation ∧ Nat.log2 4 % 2 = 0) := by
  decide +kernel

theorem witness_TransformChecksInOrder :
    (kern 17 0 0).tc = none ∧
    (let c := transformContext 17 2 4
     ({ poly [1, 2] .evaluation with tc := some c } : State).tc = some c ∧ c.tcN.toNat = 2 ∧ true = true ∧ Nat.log2 2 % 2 = 1) ∧
    (let s := poly [1, 2, 3] .coefficient
     s.tc = some ctx4 ∧ ctx4.tcN.toNat = 4 ∧ s.bufLen .b0 ≠ ctx4.tcN) ∧
    (let s := poly [1, 2, 3, 4] .coefficient
     s.tc = some ctx4 ∧ ¬ (true = true ∧ Nat.log2 4 % 2 = 1) ∧ s.bufLen .b0 = ctx4.tcN ∧ s.bufDom .b0 ≠ .evaluation) ∧
    (let s := poly [1, 2, 17, 4] .coefficient
     s.tc = some ctx4 ∧ ¬ (false = true ∧ Nat.log2 4 % 2 = 1) ∧ s.bufLen .b0 = ctx4.tcN ∧ s.bufDom .b0 = .coefficient ∧
       ∃ x ∈ s.bufNats .b0 4, ctx4.tcM.toNat ≤ x) := by
  decide +kernel

theorem poly_legal (xs : List Word) (tag : Domain) : contextsLegal (poly xs tag) := contexts_legal _ rfl rfl rfl rfl

theorem witness_Radix4EqualsRadix2 :
    let s := poly [1, 2, 3, 4] .coefficient
    contextsLegal s ∧ ∀ c, s.tc = some c → Nat.log2 c.tcN.toNat % 2 = 0 := by
  refine ⟨poly_legal _ _, ?_⟩
  intro c hc
  cases hc
  decide

theorem witness_ForwardTransformClosedForm :
    let s := poly [1, 2, 3, 4] .coefficient
    contextsLegal s ∧ s.tc = some ctx4 ∧ exec (.nttFwd2 .b0) s = .next (result (.nttFwd2 .b0) s) ∧
      (result (.nttFwd2 .b0) s).code = .ok ∧ 0 < ctx4.tcN.toNat ∧ 3 < ctx4.tcN.toNat :=
  ⟨poly_legal _ _, rfl, exec_result _ _ (by decide +kernel), by decide +kernel, by decide, by decide⟩

theorem witness_InverseTransformClosedForm :
    let s := poly [10, 6, 15, 7] .evaluation
    contextsLegal s ∧ s.tc = some ctx4 ∧ exec (.nttInv2 .b0) s = .next (result (.nttInv2 .b0) s) ∧
      (result (.nttInv2 .b0) s).code = .ok ∧ 0 < ctx4.tcN.toNat ∧ 3 < ctx4.tcN.toNat :=
  ⟨poly_legal _ _, rfl, exec_result _ _ (by decide +kernel), by decide +kernel, by decide, by decide⟩

theorem witness_TransformRoundTrip :
    let s := poly [1, 2, 3, 4] .coefficient
    contextsLegal s ∧ s.tc = some ctx4 ∧ Nat.log2 ctx4.tcN.toNat % 2 = 0 ∧
    ∀ f ∈ [Instr.nttFwd2 .b0, Instr.nttFwd4 .b0], exec f s = .next (result f s) ∧ (result f s).code = .ok := by
  refine ⟨poly_legal _ _, rfl, by decide, fun f hf => ?_⟩
  fin_cases hf <;> exact ⟨exec_result _ _ (by decide +kernel), by decide +kernel⟩

/-! #### RNS -/

theorem witness_RnsInitRule :
    (let s := proposed 3 3 5 7
     s.params.wellFormed = true ∧ s.baseKIn.toNat = 3 ∧ 105 = ∏ i ∈ Finset.range 3, (slot s.baseIn i).toNat ∧ 1 ≤ 3 ∧
       3 ≤ s.params.kMax ∧ (∀ i < 3, 2 ≤ (slot s.baseIn i).toNat) ∧ 105 < 2 ^ 64 ∧
       ∀ i < 3, ∀ j < 3, i ≠ j → Nat.gcd (slot s.baseIn i).toNat (slot s.baseIn j).toNat = 1) ∧
    ((proposed 0 0 0 0).baseKIn.toNat = 0 ∧ 1 = ∏ i ∈ Finset.range 0, (slot (proposed 0 0 0 0).baseIn i).toNat) ∧
    ((proposed 5 0 0 0).baseKIn.toNat = 5 ∧ (proposed 5 0 0 0).params.kMax < 5) ∧
    (let s := proposed 2 1 5 0
     s.baseKIn.toNat = 2 ∧ 2 ≤ s.params.kMax ∧ ∃ i < 2, (slot s.baseIn i).toNat < 2) ∧
    (let s := proposed 2 4294967296 4294967296 0
     s.baseKIn.toNat = 2 ∧ 2 ^ 64 = ∏ i ∈ Finset.range 2, (slot s.baseIn i).toNat ∧
       ∀ i < 2, 2 ≤ (slot s.baseIn i).toNat) ∧
    (let s := proposed 2 6 4 0
     s.baseKIn.toNat = 2 ∧ 24 = ∏ i ∈ Finset.range 2, (slot s.baseIn i).toNat ∧
       (∀ i < 2, 2 ≤ (slot s.baseIn i).toNat) ∧ 24 < 2 ^ 64 ∧
       ¬ ∀ i < 2, ∀ j < 2, i ≠ j → Nat.gcd (slot s.baseIn i).toNat (slot s.baseIn j).toNat = 1) := by
  decide +kernel

theorem witness_ToRnsRule : (kern 97 0 0).rns = none ∧ (full 52 0).rns = some base357 := ⟨rfl, rfl⟩

theorem witness_FromRnsRule :
    (kern 97 0 0).rns = none ∧
    (let s := withRv 2 4 6 0 0 0
     s.rns = some base357 ∧ ∀ i < base357.rnsK.toNat, (slot (s.rv .v0) i).toNat < (slot base357.rnsMod i).toNat) ∧
    (let s := withRv 3 0 0 0 0 0
     s.rns = some base357 ∧ ∃ i < base357.rnsK.toNat, (slot base357.rnsMod i).toNat ≤ (slot (s.rv .v0) i).toNat) := by
  decide +kernel

theorem witness_SlotwiseRule :
    (kern 97 0 0).rns = none ∧
    (let s := withRv 1 2 3 2 4 6
     s.rns = some base357 ∧ ∀ j < base357.rnsK.toNat, (slot (s.rv .v0) j).toNat < (slot base357.rnsMod j).toNat ∧
       (slot (s.rv .v1) j).toNat < (slot base357.rnsMod j).toNat) ∧
    (let s := withRv 1 2 3 2 5 6
     s.rns = some base357 ∧ ∃ j < base357.rnsK.toNat, (slot base357.rnsMod j).toNat ≤ (slot (s.rv .v0) j).toNat ∨
       (slot base357.rnsMod j).toNat ≤ (slot (s.rv .v1) j).toNat) := by
  decide +kernel

theorem withRv_legal (x0 x1 x2 y0 y1 y2 : Word) : contextsLegal (withRv x0 x1 x2 y0 y1 y2) :=
  contexts_legal _ rfl rfl rfl rfl

/-- The residues of x = 52 are in RV0, those of y = 83 in RV1. -/
theorem witness_RnsLaws :
    let s := withRv 1 2 3 2 3 6
    contextsLegal s ∧ s.rns = some base357 ∧
    (∀ i < base357.rnsK.toNat, (slot (s.rv .v0) i).toNat = 52 % (slot base357.rnsMod i).toNat ∧
      (slot (s.rv .v1) i).toNat = 83 % (slot base357.rnsMod i).toNat) ∧
    ∀ i ∈ [Instr.toRns .v0, .radd .v0 .v1, .rmul .v0 .v1],
      exec i s = .next (result i s) ∧ exec (.fromRns .v0) (result i s) = .next (result (.fromRns .v0) (result i s)) := by
  refine ⟨withRv_legal _ _ _ _ _ _, rfl, by decide +kernel, ?_⟩
  intro i hi
  fin_cases hi <;> exact ⟨exec_result _ _ (by decide +kernel), exec_result _ _ (by decide +kernel)⟩

/-! #### Pointwise commands -/

theorem witness_PointwiseRule :
    (let s := pair
     s.kmod.toNat = 11 ∧ (s.bufLen .b0).toNat = 2 ∧ 2 ≤ 11 ∧ 2 ≤ s.params.nMax ∧ s.bufLen .b1 = s.bufLen .b0 ∧
       s.bufDom .b1 = s.bufDom .b0 ∧ ∀ j < 2, (s.bufWord .b0 j).toNat < 11 ∧ (s.bufWord .b1 j).toNat < 11) ∧
    (let s := kern 2 0 0
     s.kmod.toNat = 2 ∧ (s.bufLen .b0).toNat = 0 ∧ 2 ≤ 2 ∧ 0 ≤ s.params.nMax ∧ s.bufLen .b1 = s.bufLen .b0 ∧
       s.bufDom .b1 = s.bufDom .b0 ∧ ∀ j < 0, (s.bufWord .b0 j).toNat < 2 ∧ (s.bufWord .b1 j).toNat < 2) := by
  decide +kernel

theorem witness_PointwiseChecksInOrder :
    ((kern 1 0 0).kmod.toNat = 1 ∧ 1 < 2) ∧
    (let s : State := { pair with bufLen1 := 17 }
     s.kmod.toNat = 11 ∧ 2 ≤ 11 ∧ (s.params.nMax < (s.bufLen .b0).toNat ∨ s.params.nMax < (s.bufLen .b1).toNat)) ∧
    (let s : State := { pair with bufLen1 := 3 }
     s.kmod.toNat = 11 ∧ (s.bufLen .b0).toNat ≤ s.params.nMax ∧ (s.bufLen .b1).toNat ≤ s.params.nMax ∧
       s.bufLen .b0 ≠ s.bufLen .b1) ∧
    (let s : State := { pair with bufDom1 := .evaluation }
     s.kmod.toNat = 11 ∧ (s.bufLen .b0).toNat ≤ s.params.nMax ∧ s.bufLen .b0 = s.bufLen .b1 ∧
       s.bufDom .b0 ≠ s.bufDom .b1) ∧
    (let s := withBuf pair .b1 [11, 8] .coefficient
     s.kmod.toNat = 11 ∧ (s.bufLen .b0).toNat ≤ s.params.nMax ∧ s.bufLen .b0 = s.bufLen .b1 ∧
       s.bufDom .b0 = s.bufDom .b1 ∧
       ∃ j < (s.bufLen .b0).toNat, 11 ≤ (s.bufWord .b0 j).toNat ∨ 11 ≤ (s.bufWord .b1 j).toNat) := by
  decide +kernel

/-! #### Host accesses, reset and the invariants -/

theorem witness_PowerOnState :
    Config.params.wellFormed = true ∧ slotAt Config.params 0x0F8 ≠ .caps ∧
      ∀ d i, slotAt Config.params 0x0F8 ≠ .bufWord d i := by
  refine ⟨by decide, by decide, fun d i h => ?_⟩
  rw [show slotAt Config.params 0x0F8 = .unmapped by decide] at h
  cases h

/-- Power fails while a command is in progress, with contexts held. -/
theorem witness_PowerOnState_turn :
    let s : State := { full 9 4 with latch := some 0x10, agenda := [.powerOn, .unit] }
    s.params.wellFormed = true ∧ s.agenda = .powerOn :: [.unit] := by decide

/-- UNIT_BASE = 0x1000 here. -/
theorem witness_HostAccessStops :
    let s := State.powerOn { logNMax := 4, kMax := 4, unitBase := 0x1000 }
    ((Access.read 0xFFF 1).addr < s.params.unitBase) ∧ (s.params.unitBase + 0x30000 ≤ (Access.read 0x31000 8).addr) ∧
    ((Access.read 0x1000 4).addr = s.params.unitBase + 0 ∧ 0 < 0x30000 ∧ (Access.read 0x1000 4).width ≠ 8) ∧
    ((Access.write 0x30FFF 8 0).addr = s.params.unitBase + 0x2FFFF ∧ 0x2FFFF < 0x30000 ∧ 0x2FFFF % 8 ≠ 0) ∧
    ((Access.write 0x30FF8 8 0).addr = s.params.unitBase + 0x2FFF8 ∧ 0x2FFF8 < 0x30000 ∧ (Access.write 0x30FF8 8 0).width = 8 ∧
      0x2FFF8 % 8 = 0) := by decide

theorem witness_ReadsHaveNoSideEffect :
    (let s := full 9 4
     hostAccess (.read (s.params.unitBase + 0x040) 8) s = .next (access s (.read (s.params.unitBase + 0x040) 8)) ∧
       s.latch = none) ∧
    (let s := issued
     hostAccess (.read (s.params.unitBase + 0x080) 8) s = .next (access s (.read (s.params.unitBase + 0x080) 8)) ∧
       s.latch ≠ none) :=
  ⟨⟨access_next _ _ rfl, rfl⟩, access_next _ _ rfl, by decide⟩

/-- With every context held and with none, the last index of each array, and the ends of the unmapped gaps for KMAX = 4 and
NMAX = 16. -/
theorem witness_IdleReadsFollowTheMap :
    (let s := full 9 4
     s.params.wellFormed = true ∧ s.latch = none ∧ s.tc = some ctx4 ∧ s.mont = some mont97 ∧ s.rns = some base357 ∧
       3 < s.params.kMax ∧ 15 < s.params.nMax) ∧
    (let s := kern 17 9 4
     s.params.wellFormed = true ∧ s.latch = none ∧ s.tc = none ∧ s.mont = none ∧ s.rns = none) ∧
    [0x028, 0x038, 0x0E8, 0x0F8, 0x120, 0x1F8, 0x220, 0x278, 0x288, 0x2F8, 0x320, 0x378, 0x3A0, 0x3F8, 0x420, 0x4A0,
      0x520, 0xFFF8, 0x10080, 0x1FFF8, 0x20080, 0x2FFF8].all (fun off =>
        decide (off < 0x30000 ∧ off % 8 = 0)) = true ∧
    unmappedAt (full 9 4).params 0x220 ∧ unmappedAt (full 9 4).params 0x10080 ∧
    unmappedAt (full 9 4).params 0x2FFF8 := by
  refine ⟨⟨by decide, rfl, rfl, rfl, rfl, by decide, by decide⟩, ⟨by decide, rfl, rfl, rfl, rfl⟩, by decide, ?_, ?_, ?_⟩
  all_goals (unfold unmappedAt; decide)

/-- The first and the last register that can be written, the last buffer word, a domain tag, a read-only register, and
an offset beyond the arrays. -/
theorem witness_WritesLandWhereTheyAreRead :
    let s := full 9 4
    s.params.wellFormed = true ∧ s.latch = none ∧
    (∀ off ∈ [0x020, 0x398, 0x10000, 0x20078, 0x110, 0x0A0, 0x2FFF8], off % 8 = 0 ∧ off ≠ 0x008 ∧ off ≠ 0x010 ∧
      (nextOf (hostAccess (.write (s.params.unitBase + off) 8 3) s)).isSome = true) ∧
    (∀ off ∈ [0x020, 0x398, 0x10000, 0x20078], readWrite (slotAt s.params off) = true) ∧
    slotAt s.params 0x110 = .bufDom .b0 ∧
    (∀ off ∈ [0x000, 0x0A0, 0x2FFF8], readOnly (slotAt s.params off) = true) ∧
    (0x2FFF8 % 8 = 0 ∧ 0x2FFF8 ≠ 0x020 ∧ 0x2FFF8 < 0x30000) := by
  decide +kernel

theorem witness_CmdWriteIssues : (full 9 4).latch = none := rfl

theorem witness_BusyLockout :
    issued.latch ≠ none ∧ ∀ off ∈ [0x000, 0x008, 0x010, 0x018, 0x2FFF8], off < 0x30000 ∧ off % 8 = 0 := by decide

/-- An abandoned transform of BUF0: word 3 is abandoned, word 4 is not. -/
theorem witness_SoftResetRule :
    let s : State := { poly [1, 2, 3, 4] .coefficient with latch := some 0x38 }
    s.params.wellFormed = true ∧ (1 : Word).getLsbD 0 = true ∧ 4 < s.params.nMax ∧
      s.latch = some (commandValue (.nttFwd2 .b0)) ∧ destBuf (.nttFwd2 .b0) = some .b0 ∧ 3 < (s.bufLen .b0).toNat ∧
      ¬ 4 < (s.bufLen .b0).toNat ∧ (0xFFFFFFFFFFFFFFFE : Word).getLsbD 0 = false := by
  decide +kernel

theorem pair_canonical : pair.mem.wf ∧ ∀ c ∈ pair.mem, inBuf .b0 16 c.1 ∨ inBuf .b1 16 c.1 := by
  unfold inBuf Memory.wf
  decide +kernel

/-- `pair` with the three contexts and a pointwise command in progress. -/
def running : State := { pair with tc := some ctx4, mont := some mont97, rns := some base357, latch := some 0x250 }

theorem running_legal : contextsLegal running := contexts_legal _ rfl rfl rfl rfl

theorem running_steps : step running = .next (stepped running) := step_stepped _ (by decide +kernel)

theorem witness_ContextsStayLegal : contextsLegal running ∧ step running = .next (stepped running) :=
  ⟨running_legal, running_steps⟩

theorem witness_MemoryStaysCanonical :
    contextsLegal running ∧ memoryCanonical running ∧ step running = .next (stepped running) := by
  refine ⟨running_legal, ⟨pair_canonical.1, fun c hc => ?_⟩, running_steps⟩
  rcases pair_canonical.2 c hc with h | h
  · exact ⟨.b0, h⟩
  · exact ⟨.b1, h⟩

theorem witness_SpareSlotsStayZero :
    contextsLegal running ∧ spareSlotsZero running ∧ step running = .next (stepped running) := by
  refine ⟨running_legal, fun i _ => ?_, running_steps⟩
  by_cases h : i < 16
  · interval_cases i <;> exact ⟨rfl, rfl, rfl⟩
  · exact ⟨slot_out (by omega), slot_out (by omega), slot_out (by omega)⟩

theorem witness_PowerOnMeetsTheInvariants :
    ({ logNMax := 13, kMax := 16, unitBase := 0x1000 } : Params).wellFormed = true := by
  decide

end Sys2Proof.Tests
end

section
/-! PROOFS. 00_scope.md: the bit reversal of R13 as BITREV runs it (R198, R199), and the invariants at power-on (R7,
R350). First the facts that other commands share: the legal sizes, the end of a command, and a command's store in a
buffer. -/

namespace Sys2Proof.Proofs

open Sys2Proof.Machine Sys2Proof.Safety Sys2Proof.Laws

/-! ### Legal sizes -/

/-- The size test of R191, R194 and R199 passes exactly for the legal sizes of R190. -/
theorem badSize_eq_false_iff (p : Params) (n : Nat) : badSize p.nMax n = false ↔ legalSize p n := by
  by_cases hn : n = 0
  · subst hn
    have h0 : ∀ k, ¬ 0 = 2 ^ k := fun k h => (Nat.two_pow_pos k).ne h
    simp [badSize, legalSize, h0]
  · have hpow : n &&& (n - 1) = 0 ↔ ∃ k, n = 2 ^ k := Nat.and_sub_one_eq_zero_iff_isPowerOfTwo hn
    simp [badSize, legalSize, hn, hpow, and_comm]

theorem badSize_eq_true_iff (p : Params) (n : Nat) : badSize p.nMax n = true ↔ ¬ legalSize p n := by
  rw [← badSize_eq_false_iff, Bool.not_eq_false]

/-! ### The end of a command, and its store in a buffer -/

@[simp] theorem byteAt_ended (s : State) (c : Code) (a : Nat) : (ended s c).byteAt a = s.byteAt a := rfl

@[simp] theorem bufWord_ended (s : State) (c : Code) (d : Buf) (i : Nat) : (ended s c).bufWord d i = s.bufWord d i := rfl

@[simp] theorem setBufDom_bufDom (s : State) (d : Buf) : s.setBufDom d (s.bufDom d) = s := by cases d <;> rfl

/-- A command that stores words from word 0 of a buffer and sets its tag changes nothing else (R40, R41). -/
theorem storedIn_writeBuf_setBufDom (s : State) (d : Buf) (ws : List Word) (tag : Domain) :
    storedIn s (ended ((s.writeBuf d ws).setBufDom d tag) .ok) d ws.length tag := by
  refine ⟨by cases d <;> rfl, fun a ha => ?_⟩
  rw [byteAt_ended, byteAt_setBufDom]
  exact byteAt_writeBuf_outside s d ws a (by unfold inBuf at ha; omega)

/-- A command that stores words from word 0 of a buffer and keeps its tag changes nothing else (R40, R41). -/
theorem storedIn_writeBuf (s : State) (d : Buf) (ws : List Word) :
    storedIn s (ended (s.writeBuf d ws) .ok) d ws.length (s.bufDom d) := by
  have htag : (s.writeBuf d ws).setBufDom d (s.bufDom d) = s.writeBuf d ws := by
    rw [← bufDom_writeBuf s d d ws, setBufDom_bufDom]
  simpa only [htag] using storedIn_writeBuf_setBufDom s d ws (s.bufDom d)

/-! ### BITREV -/

/-- The complete step of BITREV is its rule's (R199, R360). -/
theorem exec_bitrev (d : Buf) (s : State) : exec (.bitrev d) s = execBitrev d s := rfl

/-- With a legal length BITREV stores the permuted words (R199). -/
theorem exec_bitrev_legal {s : State} {d : Buf} {b : Nat} (hlen : (s.bufLen d).toNat = 2 ^ b)
    (hmax : 2 ^ b ≤ s.params.nMax) :
    exec (.bitrev d) s = .next (ended (s.writeBuf d (brperm b (s.bufWords d (2 ^ b)))) .ok) := by
  have hsize : badSize s.params.nMax (2 ^ b) = false := (badSize_eq_false_iff _ _).mpr ⟨⟨b, rfl⟩, hmax⟩
  simp only [exec_bitrev, execBitrev, hlen, Nat.log2_two_pow]
  exact conclude_passed _ _ (by simp [hsize])

/-- With any other length BITREV raises InvalidSize (R199). -/
theorem exec_bitrev_illegal {s : State} {d : Buf} (h : ¬ legalSize s.params (s.bufLen d).toNat) :
    exec (.bitrev d) s = .next (ended s .invalidSize) := by
  have hsize : badSize s.params.nMax (s.bufLen d).toNat = true := (badSize_eq_true_iff _ _).mpr h
  rw [exec_bitrev, execBitrev]
  exact conclude_failed _ _ (by simp [hsize])

/-- A stored permutation of 2^b words has the old word i at the reversed index (R198). -/
theorem bufWord_writeBuf_brperm (s : State) (d : Buf) {b i : Nat} (hi : i < 2 ^ b) :
    (s.writeBuf d (brperm b (s.bufWords d (2 ^ b)))).bufWord d (bitrev b i) = s.bufWord d i := by
  have hr : bitrev b i < (brperm b (s.bufWords d (2 ^ b))).length := by simpa using bitrev_lt b i
  have hat := brperm_getElem? b (s.bufWords d (2 ^ b)) (bufWords_length s d _) _ (bitrev_lt b i)
  rw [bitrev_bitrev b i hi, List.getElem?_eq_getElem hr, List.getElem?_eq_getElem (by simpa using hi),
    bufWords_getElem] at hat
  exact (bufWord_writeBuf s d _ _ hr).trans (Option.some.inj hat)

/-- Settles O30, by the law of the permutation and the frame of a buffer store. -/
theorem bitrevRule : Obligations.BitrevRule := by
  refine ⟨by decide, bitrev_testBit, fun s d len hlen => ⟨?_, ?_⟩⟩
  · rintro b rfl hmax
    have hstored := storedIn_writeBuf s d (brperm b (s.bufWords d (2 ^ b)))
    rw [brperm_length, bufWords_length] at hstored
    exact ⟨_, exec_bitrev_legal hlen hmax, hstored, fun i hi => bufWord_writeBuf_brperm s d hi⟩
  · exact fun hsize => exec_bitrev_illegal (hlen ▸ hsize)

/-! ### Power-on -/

theorem slot_replicate_zero (n i : Nat) : slot (Vector.replicate n 0) i = 0 := by
  by_cases h : i < n <;> simp [slot, h]

theorem powerOn_contextsLegal {p : Params} (hp : p.wellFormed = true) : contextsLegal (State.powerOn p) := by
  simp [contextsLegal, hp]

theorem powerOn_memoryCanonical (p : Params) : memoryCanonical (State.powerOn p) := by
  simp [memoryCanonical]

/-- Every slot of the three writable arrays is 0 at power-on (R46), the spare ones too. -/
theorem powerOn_spareSlotsZero (p : Params) : spareSlotsZero (State.powerOn p) :=
  fun i _ => ⟨slot_replicate_zero 16 i, slot_replicate_zero 16 i, slot_replicate_zero 16 i⟩

/-- Settles O58: at power-on no context is held, no byte is listed, and every slot is 0. -/
theorem powerOnMeetsTheInvariants : Obligations.PowerOnMeetsTheInvariants := by
  have hreset : Config.params.wellFormed = true := by decide
  exact ⟨fun p hp => ⟨powerOn_contextsLegal hp, powerOn_memoryCanonical p, powerOn_spareSlotsZero p⟩,
    powerOn_contextsLegal hreset, powerOn_memoryCanonical _, powerOn_spareSlotsZero _⟩

end Sys2Proof.Proofs
end

section
/-! PROOFS. 10_state.md: what each command may change and that a build holds only a legal context (R22 to R42), the
register window (R26, R46, R72), and the invariants of every step (R30 to R34, R40, R42). The legal contexts come first,
then what a command can do (`exec_effect`), what a host access can do (`hostAccess_effect`) and what a step keeps
(`step_keeps`), then the twiddle table, STATUS and CAPS, power-on, and the idle reads and writes. -/

namespace Sys2Proof.Proofs

open Sys2Proof.Machine Sys2Proof.Safety Sys2Proof.Laws

/-! ### The contexts that the builds hold -/

theorem toNat_ofNat_of_lt {n : Nat} (h : n < 2 ^ 64) : (Word.ofNat n).toNat = n := by
  rw [BitVec.toNat_ofNat, Nat.mod_eq_of_lt h]

/-- The validator's three checks are the three facts about the root (R192). -/
theorem validRoot_iff {m n root : Nat} (hn : 2 * n < 2 ^ 64) :
    validRoot m n root = true ↔ root ^ n % m = m - 1 ∧ root ^ (2 * n) % m = 1 % m ∧
      ∀ k, 0 < k → k < 2 * n → root ^ k % m ≠ 1 % m := by
  have hleast : (∀ k < 2 * n, k = 0 ∨ powmod root k m ≠ 1 % m) ↔
      ∀ k, 0 < k → k < 2 * n → root ^ k % m ≠ 1 % m := by
    refine forall_congr' fun k => ⟨fun h hk hlt => ?_, fun h hlt => ?_⟩
    · rw [← powmod_eq root k m (by omega)]
      exact (h hlt).resolve_left (by omega)
    · rw [powmod_eq root k m (by omega)]
      exact (Nat.eq_zero_or_pos k).imp_right fun hk => h hk hlt
  simp only [validRoot, Bool.and_eq_true, beq_iff_eq, List.all_eq_true, List.mem_range, Bool.or_eq_true, bne_iff_ne,
    powmod_eq root n m (by omega), powmod_eq root (2 * n) m hn, hleast, and_assoc]

/-- The context of CTX_BUILD's three numbers is legal when its five checks pass (R31, R191). -/
theorem transformContext_legal {p : Params} {m n root : Word} (hp : p.wellFormed = true) (hm : 2 ≤ m.toNat)
    (hsize : legalSize p n.toNat) (hcong : (m.toNat - 1) % (2 * n.toNat) = 0) (hroot : root.toNat < m.toNat)
    (hvalid : validRoot m.toNat n.toNat root.toNat = true) : TransformLegal p (transformContext m n root) := by
  have hn : 2 * n.toNat < 2 ^ 64 := by
    have := hsize.2
    have := (wellFormed_bounds hp).2
    omega
  have hodd : m.toNat % 2 = 1 := by
    have : 2 ∣ m.toNat - 1 := (Nat.dvd_mul_right 2 _).trans (Nat.dvd_of_mod_eq_zero hcong)
    omega
  have hone : 1 % m.toNat = 1 := Nat.mod_eq_of_lt hm
  obtain ⟨hhalf, horder, hleast⟩ := (validRoot_iff hn).mp hvalid
  rw [hone] at horder hleast
  exact ⟨hodd, show 3 ≤ m.toNat by omega, hcong, hsize, hroot, hhalf, horder, hleast, rfl⟩

/-- The constants of R160 make a legal context for every odd modulus of at least 2 (R33). -/
theorem montgomeryContext_legal {m : Word} (hm : 2 ≤ m.toNat) (hodd : m.toNat % 2 = 1) :
    MontgomeryLegal (montgomeryContext m) := by
  have hlt : m.toNat < 2 ^ 64 := m.isLt
  have hcop : Nat.Coprime (2 ^ 64) m.toNat := Nat.Coprime.pow_left 64 (Nat.coprime_two_left.mpr (Nat.odd_iff.mpr hodd))
  have hsmall (x : Nat) : x % m.toNat < 2 ^ 64 := (Nat.mod_lt x (by omega)).trans hlt
  obtain ⟨hinvLt, hinv⟩ := invmod_spec m.toNat (2 ^ 64) hlt (by decide) hcop.symm
  obtain ⟨hrLt, hr⟩ := invmod_spec (2 ^ 64 % m.toNat) m.toNat (hsmall _) hm
    (by rw [← Nat.gcd_rec, Nat.gcd_comm]; exact hcop)
  have hrInv : (montgomeryContext m).montRInv.toNat = invmod (2 ^ 64 % m.toNat) m.toNat :=
    toNat_ofNat_of_lt (hrLt.trans hlt)
  have hmp : (montgomeryContext m).montMP.toNat = 2 ^ 64 - invmod m.toNat (2 ^ 64) := by
    have hpos : 0 < invmod m.toNat (2 ^ 64) := by
      refine Nat.pos_of_ne_zero fun h => ?_
      rw [h, Nat.mul_zero] at hinv
      exact absurd hinv (by decide)
    have hneg : (2 ^ 64 - invmod m.toNat (2 ^ 64)) % 2 ^ 64 = 2 ^ 64 - invmod m.toNat (2 ^ 64) :=
      Nat.mod_eq_of_lt (by omega)
    rw [← hneg]
    exact toNat_ofNat_of_lt (Nat.mod_lt _ (by decide))
  refine ⟨hodd, show 3 ≤ m.toNat by omega, toNat_ofNat_of_lt (hsmall _), ?_, hrInv ▸ hrLt, ?_⟩
  · rw [hmp]
    show ((2 ^ 64 - invmod m.toNat (2 ^ 64)) * m.toNat + 1) % 2 ^ 64 = 0
    have hdiv := Nat.div_add_mod (m.toNat * invmod m.toNat (2 ^ 64)) (2 ^ 64)
    rw [hinv] at hdiv
    have hle : m.toNat * invmod m.toNat (2 ^ 64) ≤ m.toNat * 2 ^ 64 := Nat.mul_le_mul_left _ hinvLt.le
    rw [Nat.sub_mul, Nat.mul_comm (invmod _ _)]
    omega
  · rw [hrInv]
    rw [Nat.mod_mul_mod] at hr
    exact hr

/-! ### The RNS base -/

theorem slot_eq_zero {n : Nat} (v : Vector Word n) {i : Nat} (hi : n ≤ i) : slot v i = 0 := by
  simp [slot, hi]

/-- What `slotsOf` leaves in a slot, for a list of at most 16 numbers (R34). -/
theorem slot_slotsOf {xs : List Nat} (hlen : xs.length ≤ 16) (i : Nat) :
    slot (slotsOf xs) i = Word.ofNat (xs.getD i 0) := by
  by_cases hi : i < 16
  · simp [slot, slotsOf, hi]
  · rw [slot_eq_zero _ (by omega), List.getD_eq_default _ _ (by omega)]
    rfl

/-- The proposed moduli are the first BASE_K_IN slots of BASE_IN, in order (R271). -/
theorem proposedModuli_eq {s : State} (hk : s.baseKIn.toNat ≤ 16) :
    s.proposedModuli = (List.range s.baseKIn.toNat).map fun i => (slot s.baseIn i).toNat := by
  refine List.ext_getElem (by simp [State.proposedModuli, hk]) fun i h1 h2 => ?_
  have hi : i < 16 := by simp [State.proposedModuli] at h1; omega
  simp [State.proposedModuli, slot, hi]

/-- The moduli's product is the product over the slots (R271). -/
theorem moduliProduct_eq_prod (k : Nat) (x : Nat → Nat) :
    moduliProduct ((List.range k).map x) = ∏ i ∈ Finset.range k, x i := by
  rw [moduliProduct, ← List.prod_eq_foldl]
  rfl

/-- The product over the other slots is the product divided by one factor (R271: `Mi = M div mi`). -/
theorem prod_div_eq_prod_erase {k i : Nat} {x : Nat → Nat} (hi : i < k) (hpos : 0 < x i) :
    (∏ j ∈ Finset.range k, x j) / x i = ∏ j ∈ (Finset.range k).erase i, x j := by
  rw [← Finset.mul_prod_erase _ x (Finset.mem_range.mpr hi), Nat.mul_div_cancel_left _ hpos]

/-- R271's gcd test of one slot passes exactly when its modulus is coprime to every other (R270). -/
theorem gcd_quotient_eq_one_iff {k i : Nat} {x : Nat → Nat} (hi : i < k) (hpos : 0 < x i) :
    Nat.gcd ((∏ j ∈ Finset.range k, x j) / x i % x i) (x i) = 1 ↔ ∀ j < k, j ≠ i → Nat.gcd (x j) (x i) = 1 := by
  rw [prod_div_eq_prod_erase hi hpos, ← Nat.gcd_rec, Nat.gcd_comm, ← Nat.coprime_iff_gcd_eq_one,
    Nat.coprime_prod_left_iff]
  simp only [Finset.mem_erase, Finset.mem_range, Nat.coprime_iff_gcd_eq_one]
  exact ⟨fun h j hj hne => h j ⟨hne, hj⟩, fun h j hj => h j hj.2 hj.1⟩

/-- What `slotsOf` leaves in a slot, for `k` numbers given by their index (R34). -/
theorem slot_slotsOf_range {k : Nat} (hk : k ≤ 16) (f : Nat → Nat) (i : Nat) :
    slot (slotsOf ((List.range k).map f)) i = if i < k then Word.ofNat (f i) else 0 := by
  rw [slot_slotsOf (by simpa using hk)]
  by_cases hi : i < k <;> simp [hi]

theorem slot_slotsOf_range_toNat {k i : Nat} (hk : k ≤ 16) (hi : i < k) {f : Nat → Nat} (hf : f i < 2 ^ 64) :
    (slot (slotsOf ((List.range k).map f)) i).toNat = f i := by
  rw [slot_slotsOf_range hk, if_pos hi, toNat_ofNat_of_lt hf]

theorem slot_slotsOf_range_spare {k i : Nat} (hk : k ≤ 16) (hi : k ≤ i) (f : Nat → Nat) :
    slot (slotsOf ((List.range k).map f)) i = 0 := by
  rw [slot_slotsOf_range hk, if_neg (by omega)]

/-- The base that RNS_INIT holds, slot by slot (R271). -/
theorem rnsBase_range (k : Nat) (x : Nat → Nat) :
    rnsBase ((List.range k).map x) =
      { rnsK := Word.ofNat k
        rnsMod := slotsOf ((List.range k).map x)
        rnsMProd := Word.ofNat (∏ j ∈ Finset.range k, x j)
        rnsMi := slotsOf ((List.range k).map fun i => (∏ j ∈ Finset.range k, x j) / x i)
        rnsMiInv := slotsOf ((List.range k).map fun i =>
          invmod ((∏ j ∈ Finset.range k, x j) / x i % x i) (x i)) } := by
  simp only [rnsBase, moduliProduct_eq_prod, List.map_map, List.length_map, List.length_range, Function.comp_def]

/-- The base of moduli that pass R271's checks is legal (R34). -/
theorem rnsBase_legal {p : Params} {k : Nat} {x : Nat → Nat} (hp : p.wellFormed = true) (hk : 1 ≤ k) (hmax : k ≤ p.kMax)
    (htwo : ∀ i < k, 2 ≤ x i) (hprod : ∏ i ∈ Finset.range k, x i < 2 ^ 64)
    (hgcd : ∀ i < k, Nat.gcd ((∏ j ∈ Finset.range k, x j) / x i % x i) (x i) = 1) :
    RnsLegal p (rnsBase ((List.range k).map x)) := by
  have hk16 : k ≤ 16 := hmax.trans (wellFormed_bounds hp).1
  have hK : (Word.ofNat k).toNat = k := toNat_ofNat_of_lt (by omega)
  rw [rnsBase_range]
  set prod := ∏ j ∈ Finset.range k, x j
  have hM : (Word.ofNat prod).toNat = prod := toNat_ofNat_of_lt hprod
  have hpos {i} (hi : i < k) : 0 < x i := Nat.zero_lt_of_lt (htwo i hi)
  have hlt {i} (hi : i < k) : x i < 2 ^ 64 :=
    (Nat.le_of_dvd (Finset.prod_pos fun j hj => hpos (Finset.mem_range.mp hj))
      (Finset.dvd_prod_of_mem x (Finset.mem_range.mpr hi))).trans_lt hprod
  have hinv {i} (hi : i < k) := invmod_spec (prod / x i % x i) (x i)
    ((Nat.mod_lt _ (hpos hi)).trans (hlt hi)) (htwo i hi) (hgcd i hi)
  have hmod {i} (hi : i < k) := slot_slotsOf_range_toNat hk16 hi (hlt hi)
  have hmi {i} (hi : i < k) := slot_slotsOf_range_toNat (f := fun i => prod / x i) hk16 hi
    ((Nat.div_le_self _ _).trans_lt hprod)
  have hmiInv {i} (hi : i < k) := slot_slotsOf_range_toNat (f := fun i => invmod (prod / x i % x i) (x i)) hk16 hi
    ((hinv hi).1.trans (hlt hi))
  constructor <;> simp only [hK, hM]
  case one_le => exact hk
  case le_kMax => exact hmax
  case two_le => exact fun i hi => (hmod hi).symm ▸ htwo i hi
  case coprime =>
    intro i hi j hj hne
    rw [hmod hi, hmod hj]
    exact (gcd_quotient_eq_one_iff hj (hpos hj)).mp (hgcd j hj) i hi hne
  case product => exact Finset.prod_congr rfl fun i hi => (hmod (Finset.mem_range.mp hi)).symm
  case mi => exact fun i hi => by rw [hmi hi, hmod hi]
  case miInv_lt => exact fun i hi => by rw [hmiInv hi, hmod hi]; exact (hinv hi).1
  case miInv => exact fun i hi => by rw [hmi hi, hmiInv hi, hmod hi, ← Nat.mod_mul_mod]; exact (hinv hi).2
  case spare =>
    exact fun i hi => ⟨slot_slotsOf_range_spare hk16 hi _, slot_slotsOf_range_spare hk16 hi _,
      slot_slotsOf_range_spare hk16 hi _⟩

/-! ### RNS_INIT -/

/-- A test of some number among `k` given by their index. -/
theorem any_range_map (k : Nat) (x : Nat → Nat) (q : Nat → Bool) :
    ((List.range k).map x).any q = decide (∃ i < k, q (x i) = true) := by
  rw [Bool.eq_iff_iff]
  simp

/-- RNS_INIT with its checks and its base in terms of the slots of BASE_IN (R271). -/
theorem exec_rnsInit {s : State} {k prod : Nat} (hk : s.baseKIn.toNat = k) (h16 : k ≤ 16)
    (hprod : prod = ∏ i ∈ Finset.range k, (slot s.baseIn i).toNat) :
    exec .rnsInit s = conclude
      [⟨decide (k = 0) || decide (s.params.kMax < k), .invalidSize⟩,
       ⟨decide (∃ i < k, (slot s.baseIn i).toNat < 2), .invalidModulus⟩,
       ⟨decide (2 ^ 64 ≤ prod), .invalidModulus⟩,
       ⟨decide (∃ i < k,
          Nat.gcd (prod / (slot s.baseIn i).toNat % (slot s.baseIn i).toNat) (slot s.baseIn i).toNat ≠ 1),
        .notInvertible⟩]
      { s with rns := some (rnsBase ((List.range k).map fun i => (slot s.baseIn i).toNat)) }
      { s with rns := none } := by
  subst hk hprod
  have hexec : exec .rnsInit s = execRnsInit s := rfl
  simp only [hexec, execRnsInit, proposedModuli_eq h16, any_range_map, moduliProduct_eq_prod, decide_eq_true_eq]

/-- With a number of moduli that is no legal one RNS_INIT raises InvalidSize (R271). -/
theorem exec_rnsInit_badCount {s : State} (h : s.baseKIn.toNat = 0 ∨ s.params.kMax < s.baseKIn.toNat) :
    exec .rnsInit s = .next (ended { s with rns := none } .invalidSize) := by
  have hexec : exec .rnsInit s = execRnsInit s := rfl
  rw [hexec, execRnsInit]
  exact conclude_failed _ _ (by rw [firstFailure_cons, if_pos (by simpa using h)])

/-- A check that passes is not reported (R322). -/
theorem firstFailure_pass {b : Bool} {e : Code} {cs : List Check} (h : b = false) :
    firstFailure (⟨b, e⟩ :: cs) = firstFailure cs := by simp [h]

/-- A check that fails, with none failing before it, is the one reported (R322). -/
theorem firstFailure_fail {b : Bool} {e : Code} {cs : List Check} (h : b = true) :
    firstFailure (⟨b, e⟩ :: cs) = some e := by simp [h]

/-- R271's gcd tests pass exactly when the moduli are pairwise coprime (R270). -/
theorem gcd_quotients_iff {k prod : Nat} {x : Nat → Nat} (hprod : prod = ∏ i ∈ Finset.range k, x i)
    (htwo : ∀ i < k, 2 ≤ x i) :
    (∀ i < k, Nat.gcd (prod / x i % x i) (x i) = 1) ↔ ∀ i < k, ∀ j < k, i ≠ j → Nat.gcd (x i) (x j) = 1 := by
  have hone (i) (hi : i < k) := hprod ▸ gcd_quotient_eq_one_iff hi (Nat.zero_lt_of_lt (htwo i hi))
  exact ⟨fun h i hi j hj hne => (hone j hj).mp (h j hj) i hi hne,
    fun h i hi => (hone i hi).mpr fun j hj hne => h j hj i hi hne⟩

/-- Settles O40: the checks in their order, R270's form of the last, and the legal base of moduli that pass. -/
theorem rnsInitRule : Obligations.RnsInitRule := by
  refine ⟨by decide, fun s k prod hp hk hprod => ?_⟩
  intro coprime
  have hexec (hmax : k ≤ s.params.kMax) := exec_rnsInit hk (hmax.trans (wellFormed_bounds hp).1) hprod
  have hcount (h1 : 1 ≤ k) (hmax : k ≤ s.params.kMax) : (decide (k = 0) || decide (s.params.kMax < k)) = false := by
    simp only [Bool.or_eq_false_iff, decide_eq_false_iff_not]
    omega
  have hsmall (htwo : ∀ i < k, 2 ≤ (slot s.baseIn i).toNat) :
      decide (∃ i < k, (slot s.baseIn i).toNat < 2) = false := by
    simp only [decide_eq_false_iff_not, not_exists, not_and, Nat.not_lt]
    exact htwo
  refine ⟨fun h1 hmax htwo hlt hcop => ?_, fun h => exec_rnsInit_badCount (hk.symm ▸ h), fun h1 hmax hlow => ?_,
    fun h1 hmax htwo hbig => ?_, fun h1 hmax htwo hlt hcop => ?_⟩
  · have h16 := hmax.trans (wellFormed_bounds hp).1
    have hgcd := (gcd_quotients_iff hprod htwo).mpr hcop
    refine ⟨_, ?_, fun i hi => ?_, rnsBase_legal hp h1 hmax htwo (hprod ▸ hlt) (hprod ▸ hgcd), ?_⟩
    · simp [rnsBase, ← hk]
    · simp [rnsBase, slot_slotsOf_range h16, hi]
    · rw [hexec hmax]
      refine conclude_passed _ _ ?_
      rw [firstFailure_pass (hcount h1 hmax), firstFailure_pass (hsmall htwo), firstFailure_pass (by simpa using hlt),
        firstFailure_pass (by simpa using hgcd), firstFailure_nil]
  · rw [hexec hmax]
    refine conclude_failed _ _ ?_
    rw [firstFailure_pass (hcount h1 hmax), firstFailure_fail (by simpa using hlow)]
  · rw [hexec hmax]
    refine conclude_failed _ _ ?_
    rw [firstFailure_pass (hcount h1 hmax), firstFailure_pass (hsmall htwo), firstFailure_fail (by simpa using hbig)]
  · have hgcd := mt (gcd_quotients_iff hprod htwo).mp hcop
    rw [hexec hmax]
    refine conclude_failed _ _ ?_
    rw [firstFailure_pass (hcount h1 hmax), firstFailure_pass (hsmall htwo), firstFailure_pass (by simpa using hlt),
      firstFailure_fail (by simpa using hgcd)]

/-! ### What a command can change -/

/-- The commands that write RS (R23). -/
def writesRs : Instr → Bool
  | .madd | .msub | .mmul | .mpow | .minvf | .minve | .montMul | .montTo | .montFrom | .ctAdd | .ctSub => true
  | .rootCheck | .bfly2 | .bfly4 | .fromRns _ => true
  | _ => false

/-- The commands that set the tag of the buffer they write (R41). -/
def writesTag : Instr → Bool
  | .nttFwd2 _ | .nttInv2 _ | .nttFwd4 _ | .nttInv4 _ => true
  | _ => false

/-- The residue vector that a command writes (R42). -/
def destVec : Instr → Option Vec
  | .toRns d | .radd d _ | .rmul d _ => some d
  | _ => none

/-- Everything that command `i` can do to `s` before CODE and BUSY are set: nothing, or one write of its kind, with what
is known of the value written. `exec_effect` says that this is what `exec` does. -/
inductive Effect (s : State) : Instr → State → Prop
  | unchanged (i : Instr) : Effect s i s
  | results {i : Instr} (hi : writesRs i = true) (v : Vector Word 4) : Effect s i { s with rs := v }
  | transformContext (c : Option TransformContext)
      (hc : s.params.wellFormed = true → ∀ x, c = some x → TransformLegal s.params x) :
      Effect s .ctxBuild { s with tc := c }
  | montgomeryContext (c : Option MontgomeryContext) (hc : ∀ x, c = some x → MontgomeryLegal x) :
      Effect s .montInit { s with mont := c }
  | rnsBase (c : Option RnsBase) (hc : s.params.wellFormed = true → ∀ x, c = some x → RnsLegal s.params x) :
      Effect s .rnsInit { s with rns := c }
  | stored {i : Instr} {d : Buf} (hi : destBuf i = some d) (ws : List Word) (tag : Domain)
      (htag : writesTag i = true ∨ tag = s.bufDom d) (hlen : ws.length = (s.bufLen d).toNat)
      (hmax : ws.length ≤ s.params.nMax ∨ ∃ c, s.tc = some c ∧ ws.length = c.tcN.toNat) :
      Effect s i ((s.writeBuf d ws).setBufDom d tag)
  | residues {i : Instr} {d : Vec} (hi : destVec i = some d) (r : RnsBase) (hr : s.rns = some r) (f : Nat → Word) :
      Effect s i (s.setRv d (fillSlots r.rnsK.toNat f (s.rv d)))

/-- A command's answer is an effect of its kind, ended with some code. -/
def EndsIn (s : State) (i : Instr) (r : Result) : Prop := ∃ u c, Effect s i u ∧ r = .next (ended u c)

theorem raise_endsIn (s : State) (i : Instr) (e : Code) : EndsIn s i (s.raise e) := ⟨s, e, .unchanged i, rfl⟩

theorem conclude_endsIn {s done failed : State} {i : Instr} {cs : List Check}
    (hdone : firstFailure cs = none → Effect s i done) (hfailed : Effect s i failed) :
    EndsIn s i (conclude cs done failed) := by
  cases h : firstFailure cs with
  | none => exact ⟨done, .ok, hdone h, conclude_passed done failed h⟩
  | some e => exact ⟨failed, e, hfailed, conclude_failed done failed h⟩

/-- A command that raises with no other effect, or ends in its one write. -/
theorem conclude_endsIn_self {s done : State} {i : Instr} {cs : List Check}
    (hdone : firstFailure cs = none → Effect s i done) : EndsIn s i (conclude cs done s) :=
  conclude_endsIn hdone (.unchanged i)

theorem kernelCommand_endsIn {s : State} {i : Instr} (hi : writesRs i = true) (xs : List Word) (own : List Check)
    (result : Nat) : EndsIn s i (s.kernelCommand xs own result) :=
  conclude_endsIn_self fun _ => .results hi _

theorem montCommand_endsIn {s : State} {i : Instr} (hi : writesRs i = true) (xs : List Word)
    (result : MontgomeryContext → Word) : EndsIn s i (s.montCommand xs result) := by
  unfold State.montCommand
  split
  · exact raise_endsIn s i .noContext
  · exact conclude_endsIn_self fun _ => .results hi _

theorem ctxBuild_endsIn (s : State) : EndsIn s .ctxBuild (execCtxBuild s) := by
  refine conclude_endsIn (fun h => .transformContext _ fun hp c hc => ?_)
    (.transformContext none fun _ _ hc => nomatch hc)
  simp only [firstFailure_eq_none_iff, List.forall_mem_cons, degenerateModulus, notResidue, decide_eq_false_iff_not,
    Bool.not_eq_false'] at h
  obtain ⟨hm, hsize, hcong, hroot, hvalid, -⟩ := h
  obtain rfl := Option.some.inj hc
  exact transformContext_legal hp (Nat.le_of_not_lt hm) ((badSize_eq_false_iff _ _).mp hsize) (not_not.mp hcong)
    (Nat.lt_of_not_le hroot) hvalid

theorem montInit_endsIn (s : State) : EndsIn s .montInit (execMontInit s) := by
  refine conclude_endsIn (fun h => .montgomeryContext _ fun c hc => ?_) (.montgomeryContext none fun _ hc => nomatch hc)
  have hodd : s.kmod.getLsbD 0 = decide (s.kmod.toNat % 2 = 1) := by rw [BitVec.getLsbD, Nat.testBit_zero]
  simp only [firstFailure_eq_none_iff, List.forall_mem_cons, Bool.or_eq_false_iff, decide_eq_false_iff_not,
    Bool.not_eq_false', hodd, decide_eq_true_eq] at h
  obtain rfl := Option.some.inj hc
  exact montgomeryContext_legal (Nat.le_of_not_lt h.1.1) h.1.2

theorem rnsInit_endsIn (s : State) : EndsIn s .rnsInit (execRnsInit s) := by
  refine conclude_endsIn (fun h => .rnsBase _ fun hp c hc => ?_) (.rnsBase none fun _ _ hc => nomatch hc)
  obtain rfl := Option.some.inj hc
  have hcount := (firstFailure_eq_none_iff _).mp h _ List.mem_cons_self
  simp only [Bool.or_eq_false_iff, decide_eq_false_iff_not] at hcount
  have hmax : s.baseKIn.toNat ≤ s.params.kMax := by omega
  rw [proposedModuli_eq (hmax.trans (wellFormed_bounds hp).1)] at h ⊢
  simp only [firstFailure_eq_none_iff, List.forall_mem_cons, any_range_map, moduliProduct_eq_prod, decide_eq_true_eq,
    decide_eq_false_iff_not, not_exists, not_and, not_not, Nat.not_lt, Nat.not_le] at h
  obtain ⟨-, htwo, hprod, hgcd, -⟩ := h
  exact rnsBase_legal hp (by omega) hmax htwo hprod hgcd

/-- Storing the tag that a buffer has leaves both tags. -/
theorem writeBuf_setBufDom_bufDom (s : State) (d : Buf) (ws : List Word) :
    (s.writeBuf d ws).setBufDom d (s.bufDom d) = s.writeBuf d ws := by
  rw [← bufDom_writeBuf s d d ws, setBufDom_bufDom]

theorem bitrev_endsIn (s : State) (d : Buf) : EndsIn s (.bitrev d) (execBitrev d s) := by
  refine conclude_endsIn_self fun h => ?_
  have hsize := (badSize_eq_false_iff s.params _).mp ((firstFailure_eq_none_iff _).mp h _ List.mem_cons_self)
  rw [← writeBuf_setBufDom_bufDom]
  exact .stored rfl _ _ (.inr rfl) (by simp) (.inl (by simpa using hsize.2))

theorem transform_endsIn {s : State} {i : Instr} {d : Buf} (hi : destBuf i = some d) (htag : writesTag i = true)
    (radix4 : Bool) (needs gives : Domain) {network : TransformContext → List Nat → List Nat}
    (hnet : ∀ c a, (network c a).length = a.length) : EndsIn s i (s.transform d radix4 needs gives network) := by
  unfold State.transform
  split
  · exact raise_endsIn s i .noContext
  · rename_i c hc
    refine conclude_endsIn_self fun h => ?_
    simp only [transformChecks, firstFailure_eq_none_iff, List.forall_mem_cons, decide_eq_false_iff_not, not_not] at h
    obtain ⟨-, hlen, -⟩ := h
    exact .stored hi _ _ (.inl htag) (by simp [hnet, hlen]) (.inr ⟨c, hc, by simp [hnet]⟩)

theorem pointwise_endsIn {s : State} {i : Instr} {d : Buf} (hi : destBuf i = some d) (f : Nat → Nat → Nat → Nat)
    (src : Buf) : EndsIn s i (s.pointwise f d src) := by
  refine conclude_endsIn_self fun h => ?_
  simp only [State.pointwiseChecks, firstFailure_eq_none_iff, List.forall_mem_cons, Bool.or_eq_false_iff,
    decide_eq_false_iff_not, Nat.not_lt] at h
  obtain ⟨-, hsize, -⟩ := h
  rw [← writeBuf_setBufDom_bufDom]
  exact .stored hi _ _ (.inr rfl) (by simp) (.inl (by simpa using hsize.1))

theorem toRns_endsIn (s : State) (d : Vec) : EndsIn s (.toRns d) (execToRns d s) := by
  unfold execToRns
  split
  · exact raise_endsIn s _ .noContext
  · rename_i r hr
    exact ⟨_, .ok, .residues rfl r hr _, rfl⟩

theorem fromRns_endsIn (s : State) (d : Vec) : EndsIn s (.fromRns d) (execFromRns d s) := by
  unfold execFromRns
  split
  · exact raise_endsIn s _ .noContext
  · exact conclude_endsIn_self fun _ => .results rfl _

theorem slotwise_endsIn {s : State} {i : Instr} {d : Vec} (hi : destVec i = some d) (f : Nat → Nat → Nat → Nat)
    (src : Vec) : EndsIn s i (s.slotwise f d src) := by
  unfold State.slotwise
  split
  · exact raise_endsIn s i .noContext
  · rename_i r hr
    exact conclude_endsIn_self fun _ => .residues hi r hr _

/-- Every command ends in an effect of its kind: one line for each row of the opcode map (R105). -/
theorem exec_endsIn (i : Instr) (s : State) : EndsIn s i (exec i s) := by
  cases i with
  | nop => exact ⟨s, .ok, .unchanged _, rfl⟩
  | madd => exact kernelCommand_endsIn rfl _ _ _
  | msub => exact kernelCommand_endsIn rfl _ _ _
  | mmul => exact kernelCommand_endsIn rfl _ _ _
  | mpow => exact kernelCommand_endsIn rfl _ _ _
  | minvf => exact kernelCommand_endsIn rfl _ _ _
  | minve => exact kernelCommand_endsIn rfl _ _ _
  | montInit => exact montInit_endsIn s
  | montMul => exact montCommand_endsIn rfl _ _
  | montTo => exact montCommand_endsIn rfl _ _
  | montFrom => exact montCommand_endsIn rfl _ _
  | ctAdd => exact montCommand_endsIn rfl _ _
  | ctSub => exact montCommand_endsIn rfl _ _
  | ctxBuild => exact ctxBuild_endsIn s
  | rootCheck => exact conclude_endsIn_self fun _ => .results rfl _
  | bitrev d => exact bitrev_endsIn s d
  | bfly2 => exact conclude_endsIn_self fun _ => .results rfl _
  | bfly4 => exact conclude_endsIn_self fun _ => .results rfl _
  | nttFwd2 d => exact transform_endsIn rfl rfl _ _ _ forward2_length
  | nttInv2 d => exact transform_endsIn rfl rfl _ _ _ inverse2_length
  | nttFwd4 d => exact transform_endsIn rfl rfl _ _ _ forward4_length
  | nttInv4 d => exact transform_endsIn rfl rfl _ _ _ inverse4_length
  | rnsInit => exact rnsInit_endsIn s
  | toRns d => exact toRns_endsIn s d
  | fromRns d => exact fromRns_endsIn s d
  | radd d src => exact slotwise_endsIn rfl _ src
  | rmul d src => exact slotwise_endsIn rfl _ src
  | padd d src => exact pointwise_endsIn rfl _ src
  | psub d src => exact pointwise_endsIn rfl _ src
  | pmul d src => exact pointwise_endsIn rfl _ src

/-- Everything the complete step of a command can do. -/
theorem exec_effect {i : Instr} {s t : State} (h : exec i s = .next t) : ∃ u c, Effect s i u ∧ t = ended u c := by
  obtain ⟨u, c, hu, hr⟩ := exec_endsIn i s
  rw [h] at hr
  exact ⟨u, c, hu, by cases hr; rfl⟩

/-! ### What every command leaves unchanged -/

/-- Settles O10, by the effects of the commands. -/
theorem commandsLeaveTheirInputs : Obligations.CommandsLeaveTheirInputs := by
  intro i s t h
  obtain ⟨u, c, hu, rfl⟩ := exec_effect h
  cases hu with
  | unchanged => simp [ended]
  | results hi v =>
    refine ⟨by simp [ended], fun hrs => ?_, by simp [ended], by simp [ended]⟩
    cases i <;> first | exact hrs.elim | cases hi
  | transformContext => simp [ended]
  | montgomeryContext => simp [ended]
  | rnsBase => simp [ended]
  | stored hi ws tag htag =>
    refine ⟨by simp [ended], by simp [ended], fun hdom => ?_, by simp [ended]⟩
    rcases htag with htag | rfl
    · cases i <;> first | exact hdom.elim | cases htag
    · simp [ended, writeBuf_setBufDom_bufDom]
  | residues hi r hr f =>
    refine ⟨by simp [ended], by simp [ended], by simp [ended], fun hrv => ?_⟩
    cases i <;> first | exact hrv.elim | cases hi

/-- Settles O11: of all effects only the store touches the memory, in the words of its own buffer. -/
theorem commandsStoreOnlyInTheirBuffer : Obligations.CommandsStoreOnlyInTheirBuffer := by
  intro i s t h a ha
  obtain ⟨u, c, hu, rfl⟩ := exec_effect h
  rw [byteAt_ended]
  cases hu with
  | unchanged => rfl
  | results => rfl
  | transformContext => rfl
  | montgomeryContext => rfl
  | rnsBase => rfl
  | @stored i d hi ws tag htag hlen hmax =>
    have hout := ha d hi
    rw [byteAt_setBufDom]
    exact byteAt_writeBuf_outside s d ws a (by unfold inBuf at hout; omega)
  | residues => exact byteAt_setRv s _ _ a

/-! ### Legal values of CMD -/

theorem plainCommand_eq_ok {i j : Instr} {d s : Bool} (h : plainCommand i d s = .ok j) :
    i = j ∧ d = false ∧ s = false := by
  cases d <;> cases s <;> cases h
  exact ⟨rfl, rfl, rfl⟩

theorem dCommand_eq_ok {i j : Instr} {s : Bool} (h : dCommand i s = .ok j) : i = j ∧ s = false := by
  cases s <;> cases h
  exact ⟨rfl, rfl⟩

@[simp] theorem buf_bit_ofBit (b : Bool) : (Buf.ofBit b).bit = b := by cases b <;> rfl

@[simp] theorem vec_bit_ofBit (b : Bool) : (Vec.ofBit b).bit = b := by cases b <;> rfl

/-- The opcode map answers a command only for that command's opcode and selector bits (R105, R106): the rows without
fields, those with D alone, those with D and S, and the opcodes that are no row. -/
theorem decodeOpcode_eq_ok {opc : Nat} {d s : Bool} {i : Instr} (h : decodeOpcode opc d s = .ok i) :
    i.opcode = opc ∧ i.dBit = d ∧ i.sBit = s := by
  unfold decodeOpcode at h
  split at h
  all_goals first
    | (obtain ⟨rfl, rfl, rfl⟩ := plainCommand_eq_ok h; exact ⟨rfl, rfl, rfl⟩)
    | (obtain ⟨rfl, rfl⟩ := dCommand_eq_ok h; exact ⟨rfl, by simp [Instr.dBit], rfl⟩)
    | (cases h <;> simp [Instr.opcode, Instr.dBit, Instr.sBit])

/-- A 64-bit value with nothing above its ten low bits is put together from OPC and the selector bits (R101, R106). -/
theorem eq_of_fields {v : Word} (hupper : v.extractLsb' 32 32 = 0) (hrsvd : v.extractLsb' 10 22 = 0) :
    v = (BitVec.ofNat 32 (v.extractLsb' 0 8).toNat ||| ((BitVec.ofBool (v.getLsbD 8)).setWidth 32 <<< 8) |||
      ((BitVec.ofBool (v.getLsbD 9)).setWidth 32 <<< 9)).setWidth 64 := by
  refine BitVec.eq_of_getLsbD_eq fun j hj => ?_
  have hu : 32 ≤ j → v.getLsbD j = false := fun h => by
    have := congrArg (fun x => x.getLsbD (j - 32)) hupper
    simpa [show j - 32 < 32 by omega, show 32 + (j - 32) = j by omega] using this
  have hr : 10 ≤ j → j < 32 → v.getLsbD j = false := fun h h' => by
    have := congrArg (fun x => x.getLsbD (j - 10)) hrsvd
    simpa [show j - 10 < 22 by omega, show 10 + (j - 10) = j by omega] using this
  rw [BitVec.ofNat_toNat]
  simp only [BitVec.getLsbD_setWidth, BitVec.getLsbD_or, BitVec.getLsbD_shiftLeft, BitVec.getLsbD_extractLsb',
    BitVec.getLsbD_ofBool, hj, decide_true, Bool.true_and, Nat.zero_add]
  rcases (by omega : j < 8 ∨ j = 8 ∨ j = 9 ∨ (10 ≤ j ∧ j < 32) ∨ 32 ≤ j) with h | rfl | rfl | h | h
  · simp [h, show j < 9 by omega, show j < 32 by omega]
  · simp
  · simp
  · simp [hr h.1 h.2, show ¬ j < 8 by omega, show j - 8 ≠ 0 by omega, show j - 9 ≠ 0 by omega]
  · simp [hu h, show ¬ j < 32 by omega]

/-- A value that decodes is its command's encoding (R101 to R107). -/
theorem eq_commandValue_of_decode {v : Word} {i : Instr} (h : decode v = .ok i) : v = commandValue i := by
  unfold decode at h
  split at h
  · cases h
  · rename_i hupper
    split at h
    · cases h
    · rename_i hrsvd
      obtain ⟨hopc, hd, hs⟩ := decodeOpcode_eq_ok h
      rw [commandValue, encode, hopc, hd, hs]
      exact eq_of_fields (not_not.mp hupper) (not_not.mp hrsvd)

/-! ### What a host access can change -/

/-- Everything that host access `a` can do to `s`: one write of one register or word, at an index that exists, or a soft
reset. `hostAccess_effect` says that this is what `hostAccess` does. -/
inductive HostEffect (s : State) (a : Access) : State → Prop
  | unchanged : HostEffect s a s
  | read (v : Word) (n : Nat) : HostEffect s a { s with readData := v, draws := n }
  | ovr (b : Bool) : HostEffect s a { s with ovr := b }
  | issue (v : Word) : HostEffect s a { s with latch := some v }
  | kmod (v : Word) : HostEffect s a { s with kmod := v }
  | op (v : Vector Word 8) : HostEffect s a { s with op := v }
  | bufLen (d : Buf) (v : Word) : HostEffect s a (s.setBufLen d v)
  | bufDom (d : Buf) (tag : Domain) : HostEffect s a (s.setBufDom d tag)
  | baseIn (i : Nat) (hi : i < s.params.kMax) (v : Word) :
      HostEffect s a { s with baseIn := s.baseIn.setIfInBounds i v }
  | baseKIn (v : Word) : HostEffect s a { s with baseKIn := v }
  | rv (d : Vec) (i : Nat) (hi : i < s.params.kMax) (v : Word) :
      HostEffect s a (s.setRv d ((s.rv d).setIfInBounds i v))
  | bufWord (d : Buf) (i : Nat) (hi : i < s.params.nMax) (v : Word) :
      HostEffect s a { s with mem := s.mem.writeWord (bufBase d + 8 * i) v }
  | reset (v : Word) (ha : a = .write (s.params.unitBase + 0x008) 8 v) (hv : v.getLsbD 0 = true) :
      HostEffect s a s.softReset

theorem hostRead_effect (s : State) (a : Access) (x : Slot) : HostEffect s a (s.hostRead x) := by
  rcases hostRead_cases s x with h | ⟨-, h⟩ <;> rw [h]
  · exact .read _ s.draws
  · exact .read _ _

theorem writeCtrl_effect {s : State} {a : Access} {v : Word} (ha : a = .write (s.params.unitBase + 0x008) 8 v) :
    HostEffect s a (s.writeCtrl v) := by
  rcases writeCtrl_cases s v with ⟨hv, h⟩ | ⟨-, h⟩ <;> rw [h]
  · exact .reset v ha hv
  · exact .unchanged

theorem writeSlot_effect {s : State} {a : Access} {v : Word} {x : Slot} (hx : slotIndexOk s.params x)
    (ha : x = .ctrl → a = .write (s.params.unitBase + 0x008) 8 v) : HostEffect s a (s.writeSlot v x) := by
  cases x with
  | ctrl => exact writeCtrl_effect (ha rfl)
  | cmd => exact .issue v
  | status => exact .ovr _
  | kmod => exact .kmod v
  | op i => exact .op _
  | bufLen d => exact .bufLen d v
  | bufDom d => exact .bufDom d _
  | baseIn i => exact .baseIn i hx v
  | baseKIn => exact .baseKIn v
  | rv d i => exact .rv d i hx v
  | bufWord d i => exact .bufWord d i hx v
  | _ => exact .unchanged

theorem writeBusy_effect {s : State} {a : Access} {v : Word} {x : Slot}
    (ha : x = .ctrl → a = .write (s.params.unitBase + 0x008) 8 v) : HostEffect s a (s.writeBusy v x) := by
  cases x with
  | ctrl => exact writeCtrl_effect (ha rfl)
  | status => exact .ovr _
  | _ => exact .ovr true

theorem wellFormed_access {p : Params} {a : Access} (h : a.wellFormed p = true) :
    p.unitBase ≤ a.addr ∧ a.width = 8 ∧ (a.addr - p.unitBase) % 8 = 0 := by
  simp only [Access.wellFormed, Access.inWindow, Access.aligned64, Bool.and_eq_true, decide_eq_true_eq] at h
  exact ⟨h.1.1, h.2.1, h.2.2⟩

/-- Everything a host access that goes on can do. -/
theorem hostAccess_effect {a : Access} {s t : State} (h : hostAccess a s = .next t) : HostEffect s a t := by
  obtain ⟨hwf, rfl | ⟨v, hv, rfl⟩⟩ := hostAccess_cases h
  · exact hostRead_effect s a _
  · obtain ⟨hbase, hwidth, hoff⟩ := wellFormed_access hwf
    obtain ⟨hindex, hstands⟩ := slotAt_spec s.params _ hoff
    have hctrl (hx : slotAt s.params (a.addr - s.params.unitBase) = .ctrl) :
        a = .write (s.params.unitBase + 0x008) 8 v := by
      have haddr : a.addr = s.params.unitBase + 0x008 := by
        have := hstands 0x008 (by rw [hx]; rfl)
        omega
      rw [hv, haddr, hwidth]
    unfold State.hostWrite
    split
    · exact writeBusy_effect hctrl
    · exact writeSlot_effect hindex hctrl

/-! ### What a step keeps -/

/-- A property that the agenda, CODE and BUSY, every effect of a command, every effect of a host access, and power-on
keep is kept by every step. -/
theorem step_keeps {P : State → Prop} (hagenda : ∀ s rest, P s → P { s with agenda := rest })
    (hend : ∀ s c, P s → P (ended s c)) (hcommand : ∀ s i u, P s → Effect s i u → P u)
    (hhost : ∀ s a t, P s → HostEffect s a t → P t) (hpower : ∀ s, P s → P s.powerCycle) {s t : State} (hs : P s)
    (h : step s = .next t) : P t := by
  have hunit {s t : State} (hs : P s) (h : unitTurn s = .next t) : P t := by
    obtain ⟨-, rfl⟩ | ⟨v, e, -, -, rfl⟩ | ⟨v, i, -, -, h⟩ := unitTurn_cases h
    · exact hs
    · exact hend s .illegalCommand hs
    · obtain ⟨u, c, hu, rfl⟩ := exec_effect h
      exact hend u c (hcommand s i u hs hu)
  obtain ⟨-, h⟩ | ⟨rest, -, h⟩ | ⟨a, rest, -, h⟩ | ⟨rest, -, rfl⟩ := step_cases h
  · exact hunit hs h
  · exact hunit (hagenda s rest hs) h
  · exact hhost _ a t (hagenda s rest hs) (hostAccess_effect h)
  · exact hpower _ (hagenda s rest hs)

/-! ### The contexts -/

/-- `t` has the parameters and the three contexts of `s`. -/
def SameContexts (s t : State) : Prop := t.params = s.params ∧ t.tc = s.tc ∧ t.mont = s.mont ∧ t.rns = s.rns

theorem contextsLegal_of_same {s t : State} (h : SameContexts s t) (hs : contextsLegal s) : contextsLegal t := by
  obtain ⟨hp, htc, hmont, hrns⟩ := h
  simpa only [contextsLegal, hp, htc, hmont, hrns] using hs

/-- A host access leaves the contexts, or is the write to CTRL that resets (R30, R32, R351). -/
theorem hostEffect_contexts {s t : State} {a : Access} (h : HostEffect s a t) :
    SameContexts s t ∨ ∃ v, a = .write (s.params.unitBase + 0x008) 8 v ∧ v.getLsbD 0 = true ∧ t = s.softReset := by
  cases h with
  | reset v ha hv => exact .inr ⟨v, ha, hv, rfl⟩
  | _ => exact .inl (by simp [SameContexts])

theorem softReset_contextsLegal {s : State} (hp : s.params.wellFormed = true) : contextsLegal s.softReset :=
  powerOn_contextsLegal hp

theorem hostEffect_contextsLegal {s t : State} {a : Access} (hs : contextsLegal s) (h : HostEffect s a t) :
    contextsLegal t := by
  rcases hostEffect_contexts h with h | ⟨v, -, -, rfl⟩
  · exact contextsLegal_of_same h hs
  · exact softReset_contextsLegal hs.1

theorem effect_contextsLegal {s u : State} {i : Instr} (hs : contextsLegal s) (h : Effect s i u) : contextsLegal u := by
  obtain ⟨hp, htc, hmont, hrns⟩ := hs
  cases h with
  | transformContext c hc => exact ⟨hp, hc hp, hmont, hrns⟩
  | montgomeryContext c hc => exact ⟨hp, htc, hc, hrns⟩
  | rnsBase c hc => exact ⟨hp, htc, hmont, hc hp⟩
  | _ => exact contextsLegal_of_same (by simp [SameContexts]) ⟨hp, htc, hmont, hrns⟩

/-- Settles O55: only the builds write a context, and what they hold is legal. -/
theorem contextsStayLegal : Obligations.ContextsStayLegal := fun _ _ hs h =>
  step_keeps (fun _ _ h => h) (fun _ _ h => h) (fun _ _ _ h hu => effect_contextsLegal h hu)
    (fun _ _ _ h ha => hostEffect_contextsLegal h ha) (fun _ h => powerOn_contextsLegal h.1) hs h

/-- A property that needs the contexts legal where a command runs is kept together with them. -/
theorem step_keeps_legal {P : State → Prop} (hagenda : ∀ s rest, P s → P { s with agenda := rest })
    (hend : ∀ s c, P s → P (ended s c)) (hcommand : ∀ s i u, contextsLegal s → P s → Effect s i u → P u)
    (hhost : ∀ s a t, P s → HostEffect s a t → P t) (hpower : ∀ s, P s → P s.powerCycle) {s t : State}
    (hc : contextsLegal s) (hs : P s) (h : step s = .next t) : contextsLegal t ∧ P t :=
  step_keeps (P := fun s => contextsLegal s ∧ P s) (fun s rest h => ⟨h.1, hagenda s rest h.2⟩)
    (fun s c h => ⟨h.1, hend s c h.2⟩) (fun s i u h hu => ⟨effect_contextsLegal h.1 hu, hcommand s i u h.1 h.2 hu⟩)
    (fun s a t h ha => ⟨hostEffect_contextsLegal h.1 ha, hhost s a t h.2 ha⟩)
    (fun s h => ⟨powerOn_contextsLegal h.1.1, hpower s h.2⟩) ⟨hc, hs⟩ h

/-! ### The memory -/

theorem memoryCanonical_writeWords {s : State} (hs : memoryCanonical s) (d : Buf) {i : Nat} {ws : List Word}
    (hlen : i + ws.length ≤ s.params.nMax) :
    memoryCanonical { s with mem := s.mem.writeWords (bufBase d + 8 * i) ws } := by
  obtain ⟨hwf, hin⟩ := hs
  refine ⟨writeWords_wf ws hwf _, fun c hc => ?_⟩
  rcases mem_writeWords hc with hc | hc
  · refine ⟨d, ?_⟩
    show bufBase d ≤ c.1 ∧ c.1 < bufBase d + 8 * s.params.nMax
    omega
  · exact hin c hc

theorem memoryCanonical_of_same {s t : State} (hp : t.params = s.params) (hm : t.mem = s.mem) (hs : memoryCanonical s) :
    memoryCanonical t := by
  simpa only [memoryCanonical, hp, hm] using hs

theorem memoryCanonical_writeBuf {s : State} (hs : memoryCanonical s) (d : Buf) {ws : List Word}
    (hlen : ws.length ≤ s.params.nMax) : memoryCanonical (s.writeBuf d ws) :=
  memoryCanonical_writeWords hs d (i := 0) (by omega)

theorem memoryCanonical_softReset {s : State} (hs : memoryCanonical s) : memoryCanonical s.softReset := by
  have habandon : memoryCanonical s.abandon ∧ s.abandon.params = s.params := by
    rcases abandon_cases s with h | ⟨d, ws, -, hlen, h⟩ <;> rw [h]
    · exact ⟨hs, rfl⟩
    · have hmax : ws.length ≤ s.params.nMax := hlen ▸ Nat.min_le_right _ _
      exact ⟨memoryCanonical_of_same rfl rfl (memoryCanonical_writeBuf hs d hmax), rfl⟩
  exact memoryCanonical_of_same habandon.2.symm rfl habandon.1

theorem hostEffect_memoryCanonical {s t : State} {a : Access} (hs : memoryCanonical s) (h : HostEffect s a t) :
    memoryCanonical t := by
  cases h with
  | bufWord d i hi v => exact memoryCanonical_writeWords (ws := [v]) hs d hi
  | reset v => exact memoryCanonical_softReset hs
  | _ => exact memoryCanonical_of_same (by simp) (by simp) hs

/-- The words a command stores fit its buffer: a legal context's size is at most NMAX (R31, R190). -/
theorem effect_memoryCanonical {s u : State} {i : Instr} (hc : contextsLegal s) (hs : memoryCanonical s)
    (h : Effect s i u) : memoryCanonical u := by
  obtain ⟨-, htc, -⟩ := hc
  cases h with
  | @stored _ d hi ws tag htag hlen hmax =>
    have hfit : ws.length ≤ s.params.nMax := by
      rcases hmax with h | ⟨c, hc, h⟩
      · exact h
      · exact h ▸ (htc c hc).size.2
    exact memoryCanonical_of_same (by simp) (by simp) (memoryCanonical_writeBuf hs d hfit)
  | _ => exact memoryCanonical_of_same (by simp) (by simp) hs

/-- Settles O56: every store is in canonical form and in the words of one buffer. -/
theorem memoryStaysCanonical : Obligations.MemoryStaysCanonical := fun _ _ hc hs h =>
  step_keeps_legal (fun _ _ h => h) (fun _ _ h => h) (fun _ _ _ hc h hu => effect_memoryCanonical hc h hu)
    (fun _ _ _ h ha => hostEffect_memoryCanonical h ha) (fun s _ => powerOn_memoryCanonical s.params) hc hs h

/-! ### The spare slots -/

theorem slot_setIfInBounds_ne {n : Nat} (v : Vector Word n) {i j : Nat} (h : i ≠ j) (x : Word) :
    slot (v.setIfInBounds i x) j = slot v j := by
  simp [slot, Vector.getElem?_setIfInBounds_ne h]

/-- A slot at or above `k` keeps its value when the slots below `k` are filled. -/
theorem slot_fillSlots_above {k i : Nat} (h : k ≤ i) (f : Nat → Word) (old : Vector Word 16) :
    slot (fillSlots k f old) i = slot old i := by
  by_cases hi : i < 16
  · rw [slot_fillSlots k f old i hi, if_neg (by omega)]
  · rw [slot_eq_zero _ (by omega), slot_eq_zero _ (by omega)]

theorem spareSlotsZero_of_same {s t : State} (hp : t.params = s.params) (hb : t.baseIn = s.baseIn) (h0 : t.rv0 = s.rv0)
    (h1 : t.rv1 = s.rv1) (hs : spareSlotsZero s) : spareSlotsZero t := by
  simpa only [spareSlotsZero, hp, hb, h0, h1] using hs

/-- A write of a residue vector that leaves its spare slots leaves them 0. -/
theorem spareSlotsZero_setRv {s : State} (hs : spareSlotsZero s) (d : Vec) {v : Vector Word 16}
    (hv : ∀ i, s.params.kMax ≤ i → slot v i = slot (s.rv d) i) : spareSlotsZero (s.setRv d v) := by
  intro i hi
  rw [setRv_params] at hi
  obtain ⟨hb, h0, h1⟩ := hs i hi
  cases d with
  | v0 => exact ⟨hb, (hv i hi).trans h0, h1⟩
  | v1 => exact ⟨hb, h0, (hv i hi).trans h1⟩

theorem hostEffect_spareSlotsZero {s t : State} {a : Access} (hs : spareSlotsZero s) (h : HostEffect s a t) :
    spareSlotsZero t := by
  cases h with
  | baseIn i hi v =>
    intro j hj
    obtain ⟨hb, h0, h1⟩ := hs j hj
    exact ⟨(slot_setIfInBounds_ne s.baseIn (Nat.ne_of_lt (Nat.lt_of_lt_of_le hi hj)) v).trans hb, h0, h1⟩
  | rv d i hi v =>
    exact spareSlotsZero_setRv hs d fun j hj =>
      slot_setIfInBounds_ne _ (Nat.ne_of_lt (Nat.lt_of_lt_of_le hi hj)) v
  | reset v => exact powerOn_spareSlotsZero s.params
  | _ => exact spareSlotsZero_of_same (by simp) (by simp) (by simp) (by simp) hs

/-- A command fills at most the first RNS_K slots, and a legal base has at most KMAX of them (R34, R42). -/
theorem effect_spareSlotsZero {s u : State} {i : Instr} (hc : contextsLegal s) (hs : spareSlotsZero s)
    (h : Effect s i u) : spareSlotsZero u := by
  obtain ⟨-, -, -, hrns⟩ := hc
  cases h with
  | residues hi r hr f =>
    exact spareSlotsZero_setRv hs _ fun j hj => slot_fillSlots_above ((hrns r hr).le_kMax.trans hj) f _
  | _ => exact spareSlotsZero_of_same (by simp) (by simp) (by simp) (by simp) hs

/-- Settles O57: every write of the three arrays is below KMAX. -/
theorem spareSlotsStayZero : Obligations.SpareSlotsStayZero := fun _ _ hc hs h =>
  step_keeps_legal (fun _ _ h => h) (fun _ _ h => h) (fun _ _ _ hc h hu => effect_spareSlotsZero hc h hu)
    (fun _ _ _ h ha => hostEffect_spareSlotsZero h ha) (fun s _ => powerOn_spareSlotsZero s.params) hc hs h

/-! ### Which turn changes a context -/

/-- A command that is not a context's build leaves that context. -/
theorem effect_contexts {s u : State} {i : Instr} (h : Effect s i u) :
    (u.tc ≠ s.tc → i = .ctxBuild) ∧ (u.mont ≠ s.mont → i = .montInit) ∧ (u.rns ≠ s.rns → i = .rnsInit) := by
  cases h with
  | transformContext => exact ⟨fun _ => rfl, fun h => (h rfl).elim, fun h => (h rfl).elim⟩
  | montgomeryContext => exact ⟨fun h => (h rfl).elim, fun _ => rfl, fun h => (h rfl).elim⟩
  | rnsBase => exact ⟨fun h => (h rfl).elim, fun h => (h rfl).elim, fun _ => rfl⟩
  | _ => simp

/-- The unit's turn changes a context only when the latch holds that context's build. -/
theorem unitTurn_contexts {s t : State} (h : unitTurn s = .next t) :
    (t.tc ≠ s.tc → s.latch = some (commandValue .ctxBuild)) ∧
      (t.mont ≠ s.mont → s.latch = some (commandValue .montInit)) ∧
      (t.rns ≠ s.rns → s.latch = some (commandValue .rnsInit)) := by
  obtain ⟨-, rfl⟩ | ⟨v, e, -, -, rfl⟩ | ⟨v, i, hl, hd, h⟩ := unitTurn_cases h
  · simp
  · simp
  · obtain ⟨u, c, hu, rfl⟩ := exec_effect h
    obtain ⟨htc, hmont, hrns⟩ := effect_contexts hu
    rw [hl, eq_commandValue_of_decode hd]
    exact ⟨fun h => by rw [htc h], fun h => by rw [hmont h], fun h => by rw [hrns h]⟩

/-- Settles O12: the unit's turn changes a context by its build alone, the host's by a soft reset alone. -/
theorem contextsChangeOnlyByTheirBuild : Obligations.ContextsChangeOnlyByTheirBuild := by
  intro s t h resets unitNext
  obtain ⟨ha, h⟩ | ⟨rest, ha, h⟩ | ⟨a, rest, ha, h⟩ | ⟨rest, ha, -⟩ := step_cases h
  · obtain ⟨htc, hmont, hrns⟩ := unitTurn_contexts h
    exact ⟨fun h => .inr ⟨.inl ha, htc h⟩, fun h => .inr ⟨.inl ha, hmont h⟩, fun h => .inr ⟨.inl ha, hrns h⟩⟩
  · obtain ⟨htc, hmont, hrns⟩ := unitTurn_contexts h
    have hnext : unitNext := .inr ⟨rest, ha⟩
    exact ⟨fun h => .inr ⟨hnext, htc h⟩, fun h => .inr ⟨hnext, hmont h⟩, fun h => .inr ⟨hnext, hrns h⟩⟩
  · rcases hostEffect_contexts (hostAccess_effect h) with ⟨-, htc, hmont, hrns⟩ | ⟨v, rfl, hv, -⟩
    · exact ⟨fun h => (h htc).elim, fun h => (h hmont).elim, fun h => (h hrns).elim⟩
    · have hreset : resets := .inr ⟨v, rest, ha, hv⟩
      exact ⟨fun _ => .inl hreset, fun _ => .inl hreset, fun _ => .inl hreset⟩
  · have hreset : resets := .inl ⟨rest, ha⟩
    exact ⟨fun _ => .inl hreset, fun _ => .inl hreset, fun _ => .inl hreset⟩

/-! ### The twiddle table -/

/-- Powers reduced at each step agree with the power reduced once. -/
theorem pow_mod_pow_mod (x a e m : Nat) : (x ^ a % m) ^ e % m = x ^ (a * e) % m := by
  rw [← Nat.pow_mod, ← Nat.pow_mul]

theorem getD_map_range {α : Type} (f : Nat → α) {k i : Nat} (hi : i < k) (x : α) :
    ((List.range k).map f).getD i x = f i := by
  simp [List.getD_eq_getElem?_getD, hi]

@[simp] theorem stageScalars_length (m n w : Nat) : (stageScalars m n w).length = Nat.log2 n := by
  simp [stageScalars]

section StageScalars

variable {m n b w : Nat} (hn : n = 2 ^ b) (hn64 : n < 2 ^ 64)

include hn hn64

/-- Stage scalar `s` of a power `w` of the root (R196). -/
theorem stageScalars_getD {s : Nat} (h1 : 1 ≤ s) (hs : s ≤ b) :
    (stageScalars m n w).getD (s - 1) 0 = Word.ofNat (w ^ (n / 2 ^ s) % m) := by
  have hlog : Nat.log2 n = b := by rw [hn, Nat.log2_two_pow]
  rw [stageScalars, hlog, getD_map_range _ (by omega), Nat.sub_add_cancel h1,
    powmod_eq _ _ _ ((Nat.div_le_self n _).trans_lt hn64)]

theorem stageScalars_getD_toNat (hm : 0 < m) (hm64 : m < 2 ^ 64) {s : Nat} (h1 : 1 ≤ s) (hs : s ≤ b) :
    ((stageScalars m n w).getD (s - 1) 0).toNat = w ^ (n / 2 ^ s) % m := by
  rw [stageScalars_getD hn hn64 h1 hs, toNat_ofNat_of_lt ((Nat.mod_lt _ hm).trans hm64)]

/-- The radix-4 triple `t` is made of the radix-2 scalars 2t and 2t - 1 (R196). -/
theorem stageTriples_getD (hm : 0 < m) (hm64 : m < 2 ^ 64) (heven : b % 2 = 0) {t : Nat} (h1 : 1 ≤ t) (ht : t ≤ b / 2) :
    (stageTriples m n w).getD (t - 1) (0, 0, 0) =
      ((stageScalars m n w).getD (2 * t - 1) 0, (stageScalars m n w).getD (2 * t - 2) 0,
        Word.ofNat (((stageScalars m n w).getD (2 * t - 1) 0).toNat ^ 3 % m)) := by
  have hlog : Nat.log2 n = b := by rw [hn, Nat.log2_two_pow]
  have hfour : 4 ^ t = 2 ^ (2 * t) := by rw [Nat.pow_mul]
  have hdouble : n / 2 ^ (2 * t - 1) = n / 4 ^ t * 2 := by
    rw [hfour, hn, Nat.pow_div (by omega) (by decide), Nat.pow_div (by omega) (by decide), ← Nat.pow_succ]
    congr 1
    omega
  have hx : (stageScalars m n w).getD (2 * t - 1) 0 = Word.ofNat (w ^ (n / 4 ^ t) % m) := by
    rw [hfour]
    exact stageScalars_getD hn hn64 (by omega) (by omega)
  have hsq : (stageScalars m n w).getD (2 * t - 2) 0 = Word.ofNat (w ^ (n / 4 ^ t * 2) % m) := by
    rw [← hdouble]
    exact stageScalars_getD hn hn64 (s := 2 * t - 1) (by omega) (by omega)
  rw [stageTriples, hlog, if_pos heven, getD_map_range _ (by omega), Nat.sub_add_cancel h1,
    powmod_eq _ _ _ ((Nat.div_le_self n _).trans_lt hn64)]
  dsimp only
  rw [powmod_eq _ 3 _ (by decide), hx, hsq, toNat_ofNat_of_lt ((Nat.mod_lt _ hm).trans hm64), mulmod, ← Nat.pow_two,
    pow_mod_pow_mod]

/-- The fourth root is the scalar of stage 2 (R196). -/
theorem fourthRoot_eq (hb : 2 ≤ b) : fourthRoot m n w = some ((stageScalars m n w).getD 1 0) := by
  have hfour : 4 ≤ n := hn ▸ Nat.pow_le_pow_right (n := 2) (by decide) hb
  rw [fourthRoot, if_pos hfour, powmod_eq _ _ _ ((Nat.div_le_self n _).trans_lt hn64)]
  exact congrArg some (stageScalars_getD hn hn64 (s := 2) (by decide) hb).symm

end StageScalars

theorem stageTriples_length {m n b w : Nat} (hn : n = 2 ^ b) (heven : b % 2 = 0) :
    (stageTriples m n w).length = b / 2 := by
  simp [stageTriples, hn, heven]

theorem stageTriples_odd {m n b w : Nat} (hn : n = 2 ^ b) (hodd : b % 2 = 1) : stageTriples m n w = [] := by
  simp [stageTriples, hn, hodd]

theorem fourthRoot_small {m n b w : Nat} (hn : n = 2 ^ b) (hb : b < 2) : fourthRoot m n w = none := by
  have : n ≤ 2 ^ 1 := hn ▸ Nat.pow_le_pow_right (by decide) (by omega)
  rw [fourthRoot, if_neg (by omega)]

/-- omega as a power of the root (R195). -/
theorem omegaOf_eq (m root : Nat) : omegaOf m root = root ^ 2 % m := by rw [omegaOf, mulmod, Nat.pow_two]

/-- omega's inverse as a power of the root (R195). -/
theorem omegaInvOf_eq {m n root : Nat} (hn : 2 * n < 2 ^ 64) :
    omegaInvOf m n root = root ^ ((2 * n - 1) * 2) % m := by
  rw [omegaInvOf, mulmod, powmod_eq _ _ _ (by omega), ← Nat.pow_two, pow_mod_pow_mod]

/-- For a root of order 2n, omega and the square of root^(2n-1) are inverse to each other, power by power. -/
theorem omega_pow_mul_inverse {root m n : Nat} (hm : 2 ≤ m) (hn : 1 ≤ n) (horder : root ^ (2 * n) % m = 1) (e : Nat) :
    (root ^ 2 % m) ^ e % m * ((root ^ ((2 * n - 1) * 2) % m) ^ e % m) % m = 1 := by
  have hexp : 2 * e + (2 * n - 1) * 2 * e = 2 * n * (2 * e) := by
    obtain ⟨n, rfl⟩ : ∃ j, n = j + 1 := ⟨n - 1, by omega⟩
    have : 2 * (n + 1) - 1 = 2 * n + 1 := by omega
    rw [this]
    ring
  rw [pow_mod_pow_mod, pow_mod_pow_mod, ← Nat.mul_mod, ← Nat.pow_add, hexp, Nat.pow_mul, Nat.pow_mod, horder,
    Nat.one_pow, Nat.mod_eq_of_lt hm]

/-- The inverse of n where n divides m - 1 (R196). -/
theorem invmod_size {m n : Nat} (hn : 1 ≤ n) (hm : 2 ≤ m) (hn64 : n < 2 ^ 64) (hdvd : n ∣ m - 1) :
    invmod n m = m - (m - 1) / n := by
  obtain ⟨q, hq⟩ := hdvd
  have hdiv : (m - 1) / n = q := by rw [hq, Nat.mul_div_cancel_left q hn]
  have hqpos : 0 < q := Nat.pos_of_ne_zero fun h => by rw [h, Nat.mul_zero] at hq; omega
  have hqle : q ≤ n * q := Nat.le_mul_of_pos_left q hn
  have hcop : Nat.gcd m n = 1 := by
    have hm1 : m = n * q + 1 := by omega
    simp [hm1]
  obtain ⟨hlt, hinv⟩ := invmod_spec n m hn64 hm (Nat.gcd_comm n m ▸ hcop)
  have hother : n * (m - q) % m = 1 := by
    have hmul : n * (m - q) = 1 + m * (n - 1) := by
      obtain ⟨n, rfl⟩ : ∃ j, n = j + 1 := ⟨n - 1, by omega⟩
      rw [Nat.mul_sub, ← hq, Nat.add_sub_cancel, Nat.succ_mul, Nat.mul_comm n m]
      omega
    rw [hmul, Nat.add_mul_mod_self_left, Nat.mod_eq_of_lt hm]
  have hcancel : invmod n m ≡ m - q [MOD m] := Nat.ModEq.cancel_left_of_coprime hcop (hinv.trans hother.symm)
  rw [hdiv, ← Nat.mod_eq_of_lt hlt, hcancel, Nat.mod_eq_of_lt (by omega)]

/-- The twiddle table with omega and its inverse as powers of the root (R195, R196). -/
theorem twiddleTable_eq {m n root : Nat} (hn : 2 * n < 2 ^ 64) :
    twiddleTable m n root =
      { twf2 := stageScalars m n (root ^ 2 % m)
        twi2 := stageScalars m n (root ^ ((2 * n - 1) * 2) % m)
        twf4 := stageTriples m n (root ^ 2 % m)
        twi4 := stageTriples m n (root ^ ((2 * n - 1) * 2) % m)
        jf := fourthRoot m n (root ^ 2 % m)
        ji := fourthRoot m n (root ^ ((2 * n - 1) * 2) % m)
        ninv := Word.ofNat (invmod n m) } := by
  rw [twiddleTable, omegaOf_eq, omegaInvOf_eq hn]

/-- Settles O29: the table's entries are powers of the root, whose order is 2n. -/
theorem twiddleTableFacts : Obligations.TwiddleTableFacts := by
  intro p c m n b hp hc hcm hcn hn tw omega
  obtain ⟨-, hm3, hcong, hsize, -, hhalf, horder, -, htable⟩ := hc
  rw [hcm] at hm3 hcong hhalf horder htable
  rw [hcn] at hcong hsize hhalf horder htable
  have hn1 : 1 ≤ n := hn ▸ Nat.two_pow_pos b
  have hn64 : 2 * n < 2 ^ 64 := by
    have := hsize.2
    have := (wellFormed_bounds hp).2
    omega
  have hnlt : n < 2 ^ 64 := by omega
  have hm64 : m < 2 ^ 64 := hcm ▸ c.tcM.isLt
  have hm0 : 0 < m := by omega
  have hlog : Nat.log2 n = b := by rw [hn, Nat.log2_two_pow]
  have hforward {s : Nat} (h1 : 1 ≤ s) (hs : s ≤ b) := stageScalars_getD_toNat (w := omega) hn hnlt hm0 hm64 h1 hs
  have htw : tw = _ := htable.trans (twiddleTable_eq hn64)
  rw [htw]
  refine ⟨by simp [hlog], by simp [hlog], fun s h1 hs => ?_, fun hb => ⟨?_, ?_⟩, fun heven => ?_, fun hodd => ?_,
    fun hb => ?_, fun hb => ?_, ?_⟩
  · rw [hforward h1 hs, stageScalars_getD_toNat hn hnlt hm0 hm64 h1 hs]
    exact ⟨rfl, Nat.mod_lt _ hm0, omega_pow_mul_inverse (by omega) hn1 horder _⟩
  · have hstage : 2 * (n / 2 ^ 1) = n := by
      rw [hn]
      exact Nat.mul_div_cancel' (dvd_pow_self 2 (by omega))
    rw [hforward (s := 1) (by decide) hb, pow_mod_pow_mod, hstage, hhalf]
  · rw [hforward hb (Nat.le_refl b), hn, Nat.div_self (Nat.two_pow_pos b), Nat.pow_one, Nat.mod_mod]
  · exact ⟨stageTriples_length hn heven, stageTriples_length hn heven, fun t h1 ht =>
      ⟨stageTriples_getD hn hnlt hm0 hm64 heven h1 ht, stageTriples_getD hn hnlt hm0 hm64 heven h1 ht⟩⟩
  · exact ⟨stageTriples_odd hn hodd, stageTriples_odd hn hodd⟩
  · exact ⟨fourthRoot_eq hn hnlt hb, fourthRoot_eq hn hnlt hb⟩
  · exact ⟨fourthRoot_small hn hb, fourthRoot_small hn hb⟩
  · have hdvd : n ∣ m - 1 := (Nat.dvd_mul_left n 2).trans (Nat.dvd_of_mod_eq_zero hcong)
    show (Word.ofNat (invmod n m)).toNat = _
    rw [invmod_size hn1 (by omega) hnlt hdvd]
    exact toNat_ofNat_of_lt ((Nat.sub_le _ _).trans_lt hm64)

/-! ### STATUS and CAPS -/

theorem ofBool_getLsbD (b : Bool) (j : Nat) : (Word.ofBool b).getLsbD j = (decide (j = 0) && b) := by
  cases b <;> simp [Word.ofBool]

/-- Every bit of STATUS (R26). -/
theorem statusWord_getLsbD (s : State) {j : Nat} (hj : j < 64) :
    s.statusWord.getLsbD j = (s.code.number.testBit j || (decide (j = 8) && s.latch.isSome) ||
      (decide (j = 9) && s.ovr) || (decide (j = 10) && s.tc.isSome) || (decide (j = 11) && s.mont.isSome) ||
      (decide (j = 12) && s.rns.isSome)) := by
  have hshift (b : Bool) (n : Nat) : (Word.ofBool b <<< n).getLsbD j = (decide (j = n) && b) := by
    rw [BitVec.getLsbD_shiftLeft, ofBool_getLsbD]
    rcases Nat.lt_trichotomy j n with h | rfl | h
    · simp [h, Nat.ne_of_lt h]
    · simp [hj]
    · simp [Nat.ne_of_gt h, show j - n ≠ 0 by omega]
  simp only [State.statusWord, State.busy, BitVec.getLsbD_or, hshift, BitVec.getLsbD_ofNat, hj, decide_true,
    Bool.true_and]

theorem code_number_lt (c : Code) : c.number < 2 ^ 4 := by cases c <;> decide

theorem code_number_testBit (c : Code) {j : Nat} (hj : 4 ≤ j) : c.number.testBit j = false :=
  Nat.testBit_lt_two_pow ((code_number_lt c).trans_le (Nat.pow_le_pow_right (by decide) hj))

/-- Bits 3:0 of STATUS are the code's number (R26). -/
theorem statusWord_code (s : State) : (s.statusWord.extractLsb' 0 4).toNat = s.code.number := by
  refine Nat.eq_of_testBit_eq fun j => ?_
  rw [← BitVec.getLsbD, BitVec.getLsbD_extractLsb', Nat.zero_add]
  by_cases hj : j < 4
  · rw [statusWord_getLsbD s (by omega)]
    obtain ⟨h8, h9, h10, h11, h12⟩ : j ≠ 8 ∧ j ≠ 9 ∧ j ≠ 10 ∧ j ≠ 11 ∧ j ≠ 12 := by omega
    simp [hj, h8, h9, h10, h11, h12]
  · simp [hj, code_number_testBit s.code (Nat.le_of_not_lt hj)]

/-- A field of STATUS away from its code and its five flags reads 0 (R26). -/
theorem statusWord_zero (s : State) {lo n : Nat} (hn : lo + n ≤ 64) (h : (4 ≤ lo ∧ lo + n ≤ 8) ∨ 13 ≤ lo) :
    s.statusWord.extractLsb' lo n = 0 := by
  refine BitVec.eq_of_getLsbD_eq fun j hj => ?_
  rw [BitVec.getLsbD_extractLsb', statusWord_getLsbD s (by omega), code_number_testBit s.code (by omega)]
  obtain ⟨h8, h9, h10, h11, h12⟩ : lo + j ≠ 8 ∧ lo + j ≠ 9 ∧ lo + j ≠ 10 ∧ lo + j ≠ 11 ∧ lo + j ≠ 12 := by omega
  simp [h8, h9, h10, h11, h12]

/-- Settles O47, bit by bit. -/
theorem statusFields : Obligations.StatusFields := by
  intro s
  have hflag {j : Nat} (hj : 4 ≤ j) := code_number_testBit s.code hj
  refine ⟨?_, statusWord_zero s (by decide) (.inl (by decide)), ?_, ?_, ?_, ?_, ?_,
    statusWord_zero s (by decide) (.inr (by decide)), rfl, fun v => ?_⟩
  · rw [statusWord_code]
    cases s.code <;> rfl
  iterate 5
    · rw [statusWord_getLsbD s (by decide), hflag (by decide)]
      simp
  · unfold State.hostWrite
    split <;> rfl

/-- CAPS as a number (R29). -/
theorem capsWord_toNat {p : Params} (hp : p.wellFormed = true) : (capsWord p).toNat = p.logNMax + 256 * p.kMax := by
  simp only [Params.wellFormed, Bool.and_eq_true, decide_eq_true_eq] at hp
  have hlog : p.logNMax < 2 ^ 8 := by omega
  have hk : p.kMax < 2 ^ 8 := by omega
  rw [capsWord, BitVec.toNat_or, BitVec.toNat_shiftLeft, BitVec.toNat_setWidth, BitVec.toNat_setWidth,
    BitVec.toNat_ofNat, BitVec.toNat_ofNat, Nat.mod_eq_of_lt hlog, Nat.mod_eq_of_lt hk, Nat.mod_eq_of_lt (by omega),
    Nat.mod_eq_of_lt (a := p.kMax) (by omega), Nat.mod_eq_of_lt (by rw [Nat.shiftLeft_eq]; omega), Nat.lor_comm,
    ← Nat.shiftLeft_add_eq_or_of_lt hlog, Nat.shiftLeft_eq]
  omega

/-! ### Power-on -/

/-- Every slot but CAPS and the buffer words reads 0 at power-on (R46, R350). -/
theorem readSlot_powerOn (p : Params) {x : Slot} (hcaps : x ≠ .caps) (hbuf : ∀ d i, x ≠ .bufWord d i) :
    (State.powerOn p).readSlot x = 0 := by
  cases x with
  | caps => exact (hcaps rfl).elim
  | bufWord d i => exact (hbuf d i rfl).elim
  | op i => exact slot_replicate_zero 8 i
  | rs i => exact slot_replicate_zero 4 i
  | baseIn i => exact slot_replicate_zero 16 i
  | rv d i => cases d <;> exact slot_replicate_zero 16 i
  | bufLen d => cases d <;> rfl
  | bufDom d => cases d <;> rfl
  | status => simp [State.readSlot, State.statusWord, State.busy, Word.ofBool, Code.number]
  | _ => rfl

/-- A power cycle shows the registers of power-on (R350). -/
theorem readSlot_powerCycle (s : State) {x : Slot} (hbuf : ∀ d i, x ≠ .bufWord d i) :
    s.powerCycle.readSlot x = (State.powerOn s.params).readSlot x := by
  cases x with
  | bufWord d i => exact (hbuf d i rfl).elim
  | bufLen d => cases d <;> rfl
  | bufDom d => cases d <;> rfl
  | rv d i => cases d <;> rfl
  | _ => rfl

/-- Settles O48: every register slot at power-on, and the power cycle as a turn. -/
theorem powerOnState : Obligations.PowerOnState := by
  refine ⟨fun p hp => ⟨rfl, fun off => readSlot_powerOn p, capsWord_toNat hp, fun a => rfl⟩, fun s rest hp ha => ?_⟩
  refine ⟨({ s with agenda := rest } : State).powerCycle, by simp only [step, nextTurn, ha, takeTurn], rfl, rfl,
    fun off hcaps hbuf => ?_, capsWord_toNat hp, fun a => rfl, fun a => rfl, rfl, rfl, rfl, rfl⟩
  exact (readSlot_powerCycle _ hbuf).trans (readSlot_powerOn _ hcaps hbuf)

/-! ### The bytes of a word -/

/-- Byte `k` of the number that a list of lanes makes (R73). -/
theorem ofLanes_lane (bs : List Byte) (k : Nat) : ofLanes bs >>> (8 * k) % 2 ^ 8 = (bs.getD k 0).toNat := by
  induction bs generalizing k with
  | nil => simp [ofLanes]
  | cons b bs ih =>
    have hb := b.isLt
    cases k with
    | zero =>
      simp only [ofLanes, Nat.mul_zero, Nat.shiftRight_zero, List.getD_cons_zero]
      omega
    | succ k =>
      have htail : (b.toNat + 256 * ofLanes bs) >>> 8 = ofLanes bs := by
        rw [Nat.shiftRight_eq_div_pow]
        omega
      rw [ofLanes, Nat.mul_succ, Nat.add_comm (8 * k), Nat.shiftRight_add, htail, List.getD_cons_succ, ih]

/-- A word carries the byte at its offset plus `k` in lane `k` (R73). -/
theorem wordAt_lane (s : State) (a : Nat) {k : Nat} (hk : k < 8) :
    (s.wordAt a).extractLsb' (8 * k) 8 = s.byteAt (a + k) := by
  refine BitVec.eq_of_toNat_eq ?_
  have hlane := ofLanes_lane ((List.range 8).map fun k => s.byteAt (a + k)) k
  rw [getD_map_range _ hk] at hlane
  rw [BitVec.extractLsb'_toNat, ← hlane, State.wordAt, BitVec.toNat_ofNat]
  refine Nat.eq_of_testBit_eq fun j => ?_
  simp only [Nat.testBit_mod_two_pow, Nat.testBit_shiftRight]
  by_cases hj : j < 8
  · simp [hj, show 8 * k + j < 64 by omega]
  · simp [hj]

/-! ### Idle reads and writes -/

theorem slot_eq_getElem {n : Nat} (v : Vector Word n) {i : Nat} (hi : i < n) : slot v i = v[i] := by
  simp [slot, hi]

/-- An aligned 64-bit access in the window is admitted (R70, R71). -/
theorem wellFormed_of_offset {p : Params} {a : Access} {off : Nat} (ha : a.addr = p.unitBase + off) (hw : a.width = 8)
    (hoff : off < 0x30000) (h8 : off % 8 = 0) : a.wellFormed p = true := by
  simp only [Access.wellFormed, Access.inWindow, Access.aligned64, Bool.and_eq_true, decide_eq_true_eq]
  refine ⟨⟨by omega, ?_⟩, hw, by omega⟩
  rw [ha]
  exact Nat.add_lt_add_left hoff _

/-- The idle read of an offset answers what its slot holds, and sets only the value read (R75). -/
theorem idle_read {s : State} (hl : s.latch = none) {off : Nat} (hoff : off < 0x30000) (h8 : off % 8 = 0) {x : Slot}
    {v : Word} (hx : slotAt s.params off = x) (hv : s.readSlot x = v) :
    hostAccess (.read (s.params.unitBase + off) 8) s = .next { s with readData := v } := by
  refine (hostAccess_admitted _ s (wellFormed_of_offset rfl rfl hoff h8)).trans (congrArg Host.Outcome.next ?_)
  show s.hostRead (slotAt s.params (s.params.unitBase + off - s.params.unitBase)) = _
  rw [Nat.add_sub_cancel_left, hx]
  simp [State.hostRead, State.busy, hl, hv]

/-- The registers of the transform context as they read (R31). -/
theorem readSlot_tc (s : State) :
    (∀ c, s.tc = some c → s.readSlot .tcM = c.tcM ∧ s.readSlot .tcN = c.tcN ∧ s.readSlot .tcRoot = c.tcRoot) ∧
      (s.tc = none → s.readSlot .tcM = 0 ∧ s.readSlot .tcN = 0 ∧ s.readSlot .tcRoot = 0) :=
  ⟨fun _ hc => by simp [State.readSlot, hc], fun hc => by simp [State.readSlot, hc]⟩

/-- The registers of the Montgomery context as they read (R33). -/
theorem readSlot_mont (s : State) :
    (∀ c, s.mont = some c → s.readSlot .montM = c.montM ∧ s.readSlot .montR2 = c.montR2 ∧
        s.readSlot .montMP = c.montMP ∧ s.readSlot .montRInv = c.montRInv) ∧
      (s.mont = none → s.readSlot .montM = 0 ∧ s.readSlot .montR2 = 0 ∧ s.readSlot .montMP = 0 ∧
        s.readSlot .montRInv = 0) :=
  ⟨fun _ hc => by simp [State.readSlot, hc], fun hc => by simp [State.readSlot, hc]⟩

/-- The registers of the RNS base as they read (R34). -/
theorem readSlot_rns (s : State) :
    (∀ r, s.rns = some r → s.readSlot .rnsK = r.rnsK ∧ s.readSlot .rnsMProd = r.rnsMProd ∧
        ∀ i, s.readSlot (.rnsMod i) = slot r.rnsMod i ∧ s.readSlot (.rnsMi i) = slot r.rnsMi i ∧
          s.readSlot (.rnsMiInv i) = slot r.rnsMiInv i) ∧
      (s.rns = none → s.readSlot .rnsK = 0 ∧ s.readSlot .rnsMProd = 0 ∧
        ∀ i, s.readSlot (.rnsMod i) = 0 ∧ s.readSlot (.rnsMi i) = 0 ∧ s.readSlot (.rnsMiInv i) = 0) :=
  ⟨fun _ hr => by simp [State.readSlot, hr], fun hr => by simp [State.readSlot, hr]⟩

theorem domain_word (x : Domain) : x.word = if x = .evaluation then 1 else 0 := by cases x <;> rfl

/-- Settles O59: the map read forwards, and what each slot holds. -/
theorem idleReadsFollowTheMap : Obligations.IdleReadsFollowTheMap := by
  intro s hp hl reads
  obtain ⟨hk, hn⟩ := wellFormed_bounds hp
  have hreg {off : Nat} (hoff : off < 0x30000 ∧ off % 8 = 0) {x : Slot} {v : Word} (hx : slotAt s.params off = x)
      (hv : s.readSlot x = v) : reads off v := idle_read hl hoff.1 hoff.2 hx hv
  have hword {base count i : Nat} (hi : i < count) (hbase : base + 8 * count ≤ 0x30000 ∧ base % 8 = 0) {x : Slot}
      {v : Word} (hx : slotAt s.params (base + 8 * i) = x) (hv : s.readSlot x = v) : reads (base + 8 * i) v :=
    idle_read hl (by omega) (by omega) hx hv
  have hslot {base i : Nat} (hi : i < s.params.kMax) (hbase : base ≤ 0x500 ∧ base % 8 = 0) {x : Slot}
      {v : Word} (hx : slotAt s.params (base + 8 * i) = x) (hv : s.readSlot x = v) : reads (base + 8 * i) v :=
    hword (Nat.lt_of_lt_of_le hi hk) (by omega) hx hv
  have hrns {i : Nat} (hi : i < s.params.kMax) {x y z : Word}
      (h : s.readSlot (.rnsMod i) = x ∧ s.readSlot (.rnsMi i) = y ∧ s.readSlot (.rnsMiInv i) = z) :
      reads (0x400 + 8 * i) x ∧ reads (0x480 + 8 * i) y ∧ reads (0x500 + 8 * i) z :=
    ⟨hslot hi (by decide) (slotAt_rnsMod hp hi) h.1, hslot hi (by decide) (slotAt_rnsMi hp hi) h.2.1,
      hslot hi (by decide) (slotAt_rnsMiInv hp hi) h.2.2⟩
  have htc {x y z : Word} (h : s.readSlot .tcM = x ∧ s.readSlot .tcN = y ∧ s.readSlot .tcRoot = z) :
      reads 0x0A0 x ∧ reads 0x0A8 y ∧ reads 0x0B0 z :=
    ⟨hreg (by decide) rfl h.1, hreg (by decide) rfl h.2.1, hreg (by decide) rfl h.2.2⟩
  have hmont {x y z w : Word} (h : s.readSlot .montM = x ∧ s.readSlot .montR2 = y ∧ s.readSlot .montMP = z ∧
      s.readSlot .montRInv = w) : reads 0x0B8 x ∧ reads 0x0C0 y ∧ reads 0x0C8 z ∧ reads 0x0D0 w := by
    obtain ⟨hm, hr2, hmp, hinv⟩ := h
    exact ⟨hreg (by decide) rfl hm, hreg (by decide) rfl hr2, hreg (by decide) rfl hmp, hreg (by decide) rfl hinv⟩
  refine ⟨?fixed, ⟨?op, ?rs⟩, ⟨fun c hc => htc ((readSlot_tc s).1 c hc), fun hc => htc ((readSlot_tc s).2 hc)⟩,
    ⟨fun c hc => hmont ((readSlot_mont s).1 c hc), fun hc => hmont ((readSlot_mont s).2 hc)⟩, ⟨?base, ?noBase⟩,
    ?lengths, ⟨hreg (by decide) rfl rfl, ?inputs⟩, ?words, ?unmapped⟩
  case fixed =>
    exact ⟨⟨_, hreg (by decide) rfl rfl, capsWord_toNat hp⟩, hreg (by decide) rfl rfl, hreg (by decide) rfl rfl,
      hreg (by decide) rfl rfl, hreg (by decide) rfl rfl⟩
  case op => exact fun i hi => hword hi (by decide) (slotAt_op hi) (slot_eq_getElem _ hi)
  case rs => exact fun i hi => hword hi (by decide) (slotAt_rs hi) (slot_eq_getElem _ hi)
  case base =>
    intro r hr
    obtain ⟨hK, hM, hslots⟩ := (readSlot_rns s).1 r hr
    exact ⟨hreg (by decide) rfl hK, hreg (by decide) rfl hM, fun i hi => hrns hi (hslots i)⟩
  case noBase =>
    intro hr
    obtain ⟨hK, hM, hslots⟩ := (readSlot_rns s).2 hr
    exact ⟨hreg (by decide) rfl hK, hreg (by decide) rfl hM, fun i hi => hrns hi (hslots i)⟩
  case lengths =>
    exact ⟨hreg (by decide) rfl rfl, hreg (by decide) rfl rfl, hreg (by decide) rfl (domain_word _),
      hreg (by decide) rfl (domain_word _)⟩
  case inputs =>
    exact fun i hi => ⟨hslot hi (by decide) (slotAt_baseIn hp hi) rfl, hslot hi (by decide) (slotAt_rv_v0 hp hi) rfl,
      hslot hi (by decide) (slotAt_rv_v1 hp hi) rfl⟩
  case words =>
    intro base hbase i hi
    simp only [List.mem_cons, List.not_mem_nil, or_false] at hbase
    rcases hbase with rfl | rfl
    · exact ⟨_, hword hi (by omega) (slotAt_bufWord_b0 hp hi) rfl, fun k hk => wordAt_lane s _ hk⟩
    · exact ⟨_, hword hi (by omega) (slotAt_bufWord_b1 hp hi) rfl, fun k hk => wordAt_lane s _ hk⟩
  case unmapped => exact fun off hoff h8 hun => hreg ⟨hoff, h8⟩ (slotAt_unmapped hp hun) rfl

/-- The idle write of an offset writes its slot (R75). -/
theorem idle_write {s t : State} (hl : s.latch = none) {off : Nat} {v : Word}
    (h : hostAccess (.write (s.params.unitBase + off) 8 v) s = .next t) : t = s.writeSlot v (slotAt s.params off) := by
  have hgo := (hostAccess_admitted _ s (hostAccess_cases h).1).symm.trans h
  have ht : s.hostWrite (slotAt s.params (s.params.unitBase + off - s.params.unitBase)) v = t :=
    Host.Outcome.next.inj hgo
  rw [← ht, Nat.add_sub_cancel_left, State.hostWrite, State.busy, hl]
  rfl

theorem slot_setIfInBounds_self {n : Nat} (v : Vector Word n) {i : Nat} (hi : i < n) (x : Word) :
    slot (v.setIfInBounds i x) i = x := by
  simp [slot, hi]

/-- A byte after the store of one word: the word's lane inside it, as before outside it (R73). -/
theorem byteAt_writeWord (s : State) (a x : Nat) (v : Word) :
    ({ s with mem := s.mem.writeWord a v } : State).byteAt x =
      if a ≤ x ∧ x < a + 8 then lane v (x - a) else s.byteAt x := by
  simp only [State.byteAt, lookup_writeWord]
  split <;> rfl

/-- A stored buffer word reads back (R40). -/
theorem wordAt_writeWord (s : State) (a : Nat) (v : Word) :
    ({ s with mem := s.mem.writeWord a v } : State).wordAt a = v :=
  wordAt_of_bytes _ _ _ fun k hk => by rw [byteAt_writeWord, if_pos (by omega), Nat.add_sub_cancel_left]

/-- A word that the store of another does not overlap reads as before. -/
theorem wordAt_writeWord_ne (s : State) {a x : Nat} (h : x + 8 ≤ a ∨ a + 8 ≤ x) (v : Word) :
    ({ s with mem := s.mem.writeWord a v } : State).wordAt x = s.wordAt x :=
  wordAt_congr fun k hk => by rw [byteAt_writeWord, if_neg (by omega)]

/-- Two buffer words that exist do not overlap (R72). -/
theorem bufWords_apart {p : Params} (hp : p.wellFormed = true) {d e : Buf} {i j : Nat} (hi : i < p.nMax)
    (hj : j < p.nMax) (h : Slot.bufWord d i ≠ Slot.bufWord e j) :
    bufBase e + 8 * j + 8 ≤ bufBase d + 8 * i ∨ bufBase d + 8 * i + 8 ≤ bufBase e + 8 * j := by
  have := (wellFormed_bounds hp).2
  cases d <;> cases e <;> simp only [bufBase, ne_eq, Slot.bufWord.injEq, true_and] at h ⊢ <;> omega

/-- A writable register or buffer word reads back as written (R46). -/
theorem readSlot_writeSlot_self {s : State} (hp : s.params.wellFormed = true) {x : Slot} (hx : slotIndexOk s.params x)
    (hrw : readWrite x = true) (v : Word) : (s.writeSlot v x).readSlot x = v := by
  have hk := (wellFormed_bounds hp).1
  cases x with
  | kmod => rfl
  | op i => exact slot_setIfInBounds_self s.op hx v
  | bufLen d => exact bufLen_setBufLen s d v
  | baseIn i => exact slot_setIfInBounds_self s.baseIn (Nat.lt_of_lt_of_le hx hk) v
  | baseKIn => rfl
  | rv d i =>
    refine (congrArg (slot · i) (rv_setRv s d _)).trans ?_
    exact slot_setIfInBounds_self (s.rv d) (Nat.lt_of_lt_of_le hx hk) v
  | bufWord d i => exact wordAt_writeWord s _ v
  | _ => cases hrw

/-- A write of BUF_DOM keeps bit 0 alone (R41). -/
theorem domain_word_ofWord (v : Word) : (Domain.ofWord v).word = v &&& 1 := by
  show (Domain.ofWord v).word = v &&& 1#64
  rw [BitVec.and_one_eq_setWidth_ofBool_getLsbD, Domain.ofWord]
  cases v.getLsbD 0 <;> rfl

/-- A write to a read-only or unmapped slot does nothing (R46, R72). -/
theorem writeSlot_readOnly (s : State) {x : Slot} (h : readOnly x = true) (v : Word) : s.writeSlot v x = s := by
  cases x <;> first | rfl | cases h

/-- A write of one slot leaves every other slot as it reads, CTRL and CMD aside (R75). -/
theorem readSlot_writeSlot_ne {s : State} (hp : s.params.wellFormed = true) {x y : Slot} (hx : slotIndexOk s.params x)
    (hy : slotIndexOk s.params y) (hctrl : x ≠ .ctrl) (hcmd : x ≠ .cmd) (hne : x ≠ y) (v : Word) :
    (s.writeSlot v x).readSlot y = s.readSlot y := by
  cases x with
  | ctrl => exact (hctrl rfl).elim
  | cmd => exact (hcmd rfl).elim
  | status =>
    cases y with
    | status => exact (hne rfl).elim
    | _ => rfl
  | kmod =>
    cases y with
    | kmod => exact (hne rfl).elim
    | _ => rfl
  | op i =>
    cases y with
    | op j => exact slot_setIfInBounds_ne s.op (fun h => hne (congrArg Slot.op h)) v
    | _ => rfl
  | bufLen d =>
    cases y with
    | bufLen e => cases d <;> cases e <;> first | rfl | exact (hne rfl).elim
    | _ => cases d <;> rfl
  | bufDom d =>
    cases y with
    | bufDom e => cases d <;> cases e <;> first | rfl | exact (hne rfl).elim
    | _ => cases d <;> rfl
  | baseIn i =>
    cases y with
    | baseIn j => exact slot_setIfInBounds_ne s.baseIn (fun h => hne (congrArg Slot.baseIn h)) v
    | _ => rfl
  | baseKIn =>
    cases y with
    | baseKIn => exact (hne rfl).elim
    | _ => rfl
  | rv d i =>
    cases y with
    | rv e j =>
      by_cases hde : e = d
      · subst hde
        refine (congrArg (slot · j) (rv_setRv s e _)).trans ?_
        exact slot_setIfInBounds_ne (s.rv e) (fun h => hne (congrArg (Slot.rv e) h)) v
      · exact congrArg (slot · j) (rv_setRv_ne s hde _)
    | _ => cases d <;> rfl
  | bufWord d i =>
    cases y with
    | bufWord e j => exact wordAt_writeWord_ne s (bufWords_apart hp hx hy hne) v
    | _ => rfl
  | _ => rfl

/-- Settles O51: the map sends different offsets to different slots, and a write touches its own slot alone. -/
theorem writesLandWhereTheyAreRead : Obligations.WritesLandWhereTheyAreRead := by
  intro s t off v hp hl h8 hctrl hcmd h
  obtain rfl := idle_write hl h
  obtain ⟨hindex, hstands⟩ := slotAt_spec s.params off h8
  refine ⟨fun hrw => readSlot_writeSlot_self hp hindex hrw v, fun d hd => ?_, fun hro => writeSlot_readOnly s hro v,
    fun off' h8' hne _ => ?_⟩
  · rw [hd]
    exact (congrArg Domain.word (bufDom_setBufDom s d _)).trans (domain_word_ofWord v)
  · by_cases hun : slotAt s.params off = .unmapped
    · rw [hun]
      rfl
    · refine readSlot_writeSlot_ne hp hindex (slotAt_spec s.params off' h8').1 (fun hx => ?_) (fun hx => ?_)
        (fun hx => ?_) v
      · exact hctrl (hstands 0x008 (hx ▸ rfl))
      · exact hcmd (hstands 0x010 (hx ▸ rfl))
      · rcases slotAt_injective s.params h8 h8' hx with h | h
        · exact hne h.symm
        · exact hun h

end Sys2Proof.Proofs
end

section
/-! PROOFS. 20_memory.md: which host accesses stop (R70, R71), that a read has no side effect (R75), and the order in
which steps take their turns (R76). -/

namespace Sys2Proof.Proofs

open Sys2Proof.Machine Sys2Proof.Laws

/-! ### Reads -/

/-- While no command is in progress a read answers what the slot holds (R75, R362). -/
theorem hostRead_idle {s : State} (hl : s.latch = none) (x : Slot) :
    s.hostRead x = { s with readData := s.readSlot x } := by
  rcases hostRead_cases s x with h | ⟨hbusy, -⟩
  · exact h
  · simp [State.busy, hl] at hbusy

/-- A host read changes at most the value read and the count of free draws (R75). -/
theorem hostRead_frame (s : State) (x : Slot) :
    s.hostRead x = { s with readData := (s.hostRead x).readData, draws := (s.hostRead x).draws } := by
  rcases hostRead_cases s x with h | ⟨-, h⟩ <;> rw [h]

/-- A read access that goes on is the read of the slot at its offset (R70). -/
theorem eq_hostRead_of_read {s t : State} {off width : Nat}
    (h : hostAccess (.read (s.params.unitBase + off) width) s = .next t) : t = s.hostRead (slotAt s.params off) := by
  obtain ⟨-, hread | ⟨v, hwrite, -⟩⟩ := hostAccess_cases h
  · rwa [Access.addr, Nat.add_sub_cancel_left] at hread
  · cases hwrite

/-- Settles O50: a read that goes on is the read of one slot, which has a frame and, while idle, a value. -/
theorem readsHaveNoSideEffect : Obligations.ReadsHaveNoSideEffect := by
  intro s t off width h
  obtain rfl := eq_hostRead_of_read h
  exact ⟨hostRead_frame s _, fun hl => hostRead_idle hl _⟩

/-! ### Turns -/

/-- With no command in progress the unit waits (R332). -/
theorem unitTurn_idle {s : State} (hl : s.latch = none) : unitTurn s = .next s := by
  rw [unitTurn, hl]

/-- With an empty agenda it is the unit's turn (R361). -/
theorem step_agenda_nil {s : State} (h : s.agenda = []) : step s = unitTurn s := by
  rw [step, nextTurn, h]

/-- A step takes the first turn of the agenda (R76). -/
theorem step_agenda_cons {s : State} {x : Turn} {rest : List Turn} (h : s.agenda = x :: rest) :
    step s = takeTurn x { s with agenda := rest } := by
  rw [step, nextTurn, h]

/-- Settles O6, turn by turn. -/
theorem stepTakesTheNextTurn : Obligations.StepTakesTheNextTurn := by
  intro s rest
  refine ⟨fun a h => ?host, fun h => ?power, fun h hl => ?unit, fun h hl => ?wait⟩
  case host => exact step_agenda_cons h
  case power => exact step_agenda_cons h
  case unit => exact (step_agenda_cons h).trans (unitTurn_idle hl)
  case wait => exact (step_agenda_nil h).trans (unitTurn_idle hl)

/-! ### Accesses that stop -/

/-- The addresses outside the window (R70). -/
theorem inWindow_eq_false_iff {p : Params} {a : Access} :
    a.inWindow p = false ↔ a.addr < p.unitBase ∨ p.unitBase + 0x30000 ≤ a.addr := by
  rw [Access.inWindow, Bool.and_eq_false_iff, decide_eq_false_iff_not, decide_eq_false_iff_not, Nat.not_le, Nat.not_lt,
    windowBytes]

/-- The accesses at an offset that the interface does not define (R71). -/
theorem aligned64_eq_false_iff {p : Params} {a : Access} {off : Nat} (ha : a.addr = p.unitBase + off) :
    a.aligned64 p = false ↔ a.width ≠ 8 ∨ off % 8 ≠ 0 := by
  rw [Access.aligned64, ha, Nat.add_sub_cancel_left, Bool.and_eq_false_iff, decide_eq_false_iff_not,
    decide_eq_false_iff_not]

/-- An access outside the window faults (A14). -/
theorem hostAccess_outside {a : Access} {s : State} (h : a.inWindow s.params = false) :
    hostAccess a s = .fault .outsideWindow := by
  simp [hostAccess, h]

/-- An access in the window that the interface does not define is refused (R71). -/
theorem hostAccess_unadmitted {a : Access} {s : State} (hin : a.inWindow s.params = true)
    (h : a.aligned64 s.params = false) : hostAccess a s = .refused .unadmittedAccess := by
  simp [hostAccess, hin, h]

/-- Settles O49: the two tests of an access, and the rule of an admitted one. -/
theorem hostAccessStops : Obligations.HostAccessStops := by
  intro s a
  refine ⟨fun hout => ?outside, fun off ha hoff => ⟨fun hbad => ?unadmitted, fun hw h8 => ?admitted⟩⟩
  case outside => exact hostAccess_outside (inWindow_eq_false_iff.mpr hout)
  case unadmitted =>
    have hin : a.inWindow s.params = true := by
      rw [← Bool.not_eq_false, inWindow_eq_false_iff]
      omega
    exact hostAccess_unadmitted hin ((aligned64_eq_false_iff ha).mpr hbad)
  case admitted => exact ⟨_, hostAccess_admitted a s (wellFormed_of_offset ha hw hoff h8)⟩

end Sys2Proof.Proofs
end

section
/-! PROOFS. 30_encoding.md: decode against encode (R101 to R106), the illegal values (R107), the rows' masks and matches
(R106), the issue of a command (R100), and the transforms behind their command words (R105, R232 to R238). What each row
of the opcode map answers comes first; before the transforms, the range of the networks' results. -/

namespace Sys2Proof.Proofs

open Sys2Proof.Machine Sys2Proof.Safety Sys2Proof.Laws

/-! ### The rows of the opcode map -/

/-- A field that a row does not use is set (R102, R107), with the selector bits `d` and `s`. -/
def unusedSet : Fields → (d s : Bool) → Bool
  | .none, d, s => d || s
  | .d, _, s => s
  | .ds, _, _ => false

/-- The command of `i`'s row with the selector bits `d` and `s` in the fields that the row uses (R102, R105). -/
def rowCommand : Instr → (d s : Bool) → Instr
  | .bitrev _, d, _ => .bitrev (.ofBit d)
  | .nttFwd2 _, d, _ => .nttFwd2 (.ofBit d)
  | .nttInv2 _, d, _ => .nttInv2 (.ofBit d)
  | .nttFwd4 _, d, _ => .nttFwd4 (.ofBit d)
  | .nttInv4 _, d, _ => .nttInv4 (.ofBit d)
  | .toRns _, d, _ => .toRns (.ofBit d)
  | .fromRns _, d, _ => .fromRns (.ofBit d)
  | .radd _ _, d, s => .radd (.ofBit d) (.ofBit s)
  | .rmul _ _, d, s => .rmul (.ofBit d) (.ofBit s)
  | .padd _ _, d, s => .padd (.ofBit d) (.ofBit s)
  | .psub _ _, d, s => .psub (.ofBit d) (.ofBit s)
  | .pmul _ _, d, s => .pmul (.ofBit d) (.ofBit s)
  | i, _, _ => i

/-- What the opcode map answers at the opcode of a row (R105, R106). -/
theorem decodeOpcode_opcode (i : Instr) (d s : Bool) :
    decodeOpcode i.opcode d s = if unusedSet i.fields d s then .error .unusedField else .ok (rowCommand i d s) := by
  cases i <;> rfl

/-- The opcode map answers a command exactly at the opcode of a row whose unused fields are 0 (R105, R106). -/
theorem exists_decodeOpcode_eq_ok_iff (i : Instr) (opc : Nat) (d s : Bool) :
    (∃ j, decodeOpcode opc d s = .ok j ∧ j.opcode = i.opcode) ↔
      opc = i.opcode ∧ unusedSet i.fields d s = false := by
  constructor
  · rintro ⟨j, hj, hij⟩
    obtain rfl : opc = i.opcode := (decodeOpcode_eq_ok hj).1.symm.trans hij
    rw [decodeOpcode_opcode] at hj
    cases hu : unusedSet i.fields d s with
    | false => exact ⟨rfl, rfl⟩
    | true => simp [hu] at hj
  · rintro ⟨rfl, hu⟩
    have hrow : decodeOpcode i.opcode d s = .ok (rowCommand i d s) := by simp [decodeOpcode_opcode, hu]
    exact ⟨_, hrow, (decodeOpcode_eq_ok hrow).1⟩

@[simp] theorem buf_ofBit_bit (b : Buf) : Buf.ofBit b.bit = b := by cases b <;> rfl

@[simp] theorem vec_ofBit_bit (v : Vec) : Vec.ofBit v.bit = v := by cases v <;> rfl

/-- A command is its row's at its own selector bits. -/
theorem rowCommand_bits (i : Instr) : rowCommand i i.dBit i.sBit = i := by
  cases i <;> simp [rowCommand, Instr.dBit, Instr.sBit]

/-- A command's selector bits are 0 in the fields its row does not use (R106). -/
theorem unusedSet_bits (i : Instr) : unusedSet i.fields i.dBit i.sBit = false := by cases i <;> rfl

/-- The opcode map reads each command back from its opcode and selector bits (R105). -/
theorem decodeOpcode_bits (i : Instr) : decodeOpcode i.opcode i.dBit i.sBit = .ok i := by
  simp [decodeOpcode_opcode, unusedSet_bits, rowCommand_bits]

/-! ### The fields of an encoding -/

theorem opcode_lt (i : Instr) : i.opcode < 2 ^ 8 := by cases i <;> simp [Instr.opcode]

theorem opcode_testBit {j : Nat} (i : Instr) (hj : 8 ≤ j) : i.opcode.testBit j = false :=
  Nat.testBit_lt_two_pow ((opcode_lt i).trans_le (Nat.pow_le_pow_right (by decide) hj))

/-- Every bit of an encoding: OPC in 7:0, D 8, S 9 (R101, R106). -/
theorem encode_getLsbD (i : Instr) {j : Nat} (hj : j < 32) :
    (encode i).getLsbD j =
      (i.opcode.testBit j || (decide (j = 8) && i.dBit) || (decide (j = 9) && i.sBit)) := by
  have hshift (b : Bool) (n : Nat) : ((BitVec.ofBool b).setWidth 32 <<< n).getLsbD j = (decide (j = n) && b) := by
    simp only [BitVec.getLsbD_shiftLeft, BitVec.getLsbD_setWidth, BitVec.getLsbD_ofBool]
    rcases Nat.lt_trichotomy j n with h | rfl | h
    · simp [h, Nat.ne_of_lt h]
    · simp [hj]
    · simp [Nat.ne_of_gt h, show j - n ≠ 0 by omega]
  simp only [encode, BitVec.getLsbD_or, hshift, BitVec.getLsbD_ofNat, hj, decide_true, Bool.true_and]

/-- The OPC field of a word is an opcode exactly when the eight low bits are that opcode's (R101). -/
theorem opcodeField_eq_iff {n : Nat} (w : BitVec n) (i : Instr) :
    (w.extractLsb' 0 8).toNat = i.opcode ↔ ∀ j < 8, w.getLsbD j = i.opcode.testBit j := by
  have hbit (j : Nat) : (w.extractLsb' 0 8).toNat.testBit j = (decide (j < 8) && w.getLsbD j) := by
    rw [← BitVec.getLsbD, BitVec.getLsbD_extractLsb', Nat.zero_add]
  constructor
  · intro h j hj
    rw [← h, hbit]
    simp [hj]
  · intro h
    refine Nat.eq_of_testBit_eq fun j => ?_
    rw [hbit]
    by_cases hj : j < 8
    · simp [hj, h j hj]
    · simp [hj, opcode_testBit i (Nat.le_of_not_lt hj)]

/-- The reserved bits of a 32-bit word are 0 exactly when each of them is (R101). -/
theorem reservedField_eq_zero_iff (w : CommandWord) :
    w.extractLsb' 10 22 = 0 ↔ ∀ j, 10 ≤ j → j < 32 → w.getLsbD j = false := by
  constructor
  · intro h j hlo hhi
    have := congrArg (fun x => x.getLsbD (j - 10)) h
    simpa [show j - 10 < 22 by omega, show 10 + (j - 10) = j by omega] using this
  · intro h
    refine BitVec.eq_of_getLsbD_eq fun j hj => ?_
    rw [BitVec.getLsbD_extractLsb', h _ (by omega) (by omega)]
    simp

/-- A 32-bit word in CMD, with a zero upper half, is decoded by its own fields (R100, R104). -/
theorem decode_setWidth (w : CommandWord) : decode (w.setWidth 64) =
    if w.extractLsb' 10 22 ≠ 0 then .error .reservedBits
    else decodeOpcode (w.extractLsb' 0 8).toNat (w.getLsbD 8) (w.getLsbD 9) := by
  have hupper : (w.setWidth 64).extractLsb' 32 32 = 0 := by
    refine BitVec.eq_of_getLsbD_eq fun j hj => ?_
    simp [BitVec.getLsbD_extractLsb']
  have hfield (lo n : Nat) (h : lo + n ≤ 32) : (w.setWidth 64).extractLsb' lo n = w.extractLsb' lo n := by
    refine BitVec.eq_of_getLsbD_eq fun j hj => ?_
    simp [BitVec.getLsbD_extractLsb', show lo + j < 64 by omega]
  have hbit (j : Nat) (h : j < 64) : (w.setWidth 64).getLsbD j = w.getLsbD j := by
    simp [h]
  rw [decode, hupper, hfield 10 22 (by decide), hfield 0 8 (by decide), hbit 8 (by decide), hbit 9 (by decide)]
  rfl

/-- Every command's encoding decodes to it (R101 to R106). -/
theorem decode_commandValue (i : Instr) : decode (commandValue i) = .ok i := by
  have hrsvd : (encode i).extractLsb' 10 22 = 0 := (reservedField_eq_zero_iff _).mpr fun j hlo hhi => by
    rw [encode_getLsbD i hhi, opcode_testBit i (by omega)]
    simp [show j ≠ 8 by omega, show j ≠ 9 by omega]
  have hopc : ((encode i).extractLsb' 0 8).toNat = i.opcode := (opcodeField_eq_iff _ i).mpr fun j hj => by
    rw [encode_getLsbD i (by omega)]
    simp [show j ≠ 8 by omega, show j ≠ 9 by omega]
  have hd : (encode i).getLsbD 8 = i.dBit := by
    rw [encode_getLsbD i (by decide), opcode_testBit i (by decide)]
    simp
  have hs : (encode i).getLsbD 9 = i.sBit := by
    rw [encode_getLsbD i (by decide), opcode_testBit i (by decide)]
    simp
  rw [commandValue, decode_setWidth, hrsvd, hopc, hd, hs, decodeOpcode_bits]
  rfl

/-- Settles O1: what decodes is its command's encoding, and each encoding decodes to its command. -/
theorem decodeIsExactlyEncode : Obligations.DecodeIsExactlyEncode :=
  fun _ i => ⟨eq_commandValue_of_decode, fun h => h ▸ decode_commandValue i⟩

/-- Settles O4: each word is its command's encoding. -/
theorem writtenOutWordsDecode : Obligations.WrittenOutWordsDecode := by
  have hdecode {v : Word} {i : Instr} (h : v = commandValue i) : decode v = .ok i := (decodeIsExactlyEncode v i).mpr h
  exact ⟨hdecode rfl, hdecode rfl, hdecode rfl, hdecode rfl, hdecode rfl, hdecode rfl, hdecode rfl, hdecode rfl,
    hdecode rfl⟩

/-! ### Illegal commands -/

/-- The reserved ranges of OPC (R107). -/
def reservedOpcode (opc : Nat) : Prop :=
  (0x01 ≤ opc ∧ opc ≤ 0x0F) ∨ (0x16 ≤ opc ∧ opc ≤ 0x1F) ∨ (0x26 ≤ opc ∧ opc ≤ 0x2F) ∨
    (0x35 ≤ opc ∧ opc ≤ 0x37) ∨ (0x3C ≤ opc ∧ opc ≤ 0x3F) ∨ (0x45 ≤ opc ∧ opc ≤ 0x4F) ∨ 0x53 ≤ opc

/-- No row has a reserved opcode (R105, R107). -/
theorem not_reservedOpcode_opcode (i : Instr) : ¬ reservedOpcode i.opcode := by
  cases i <;> simp [reservedOpcode, Instr.opcode]

/-- An opcode that is not reserved is in the opcode map: with D = S = 0 it gives a command (R105, R107). -/
theorem reservedOpcode_of_decodeOpcode_error {opc : Nat} {e : Illegal}
    (h : decodeOpcode opc false false = .error e) : reservedOpcode opc := by
  unfold decodeOpcode at h
  split at h
  case h_31 =>
    unfold reservedOpcode
    simp only [imp_false] at *
    omega
  all_goals cases h

/-- The opcode map refuses exactly the reserved opcodes and the rows with an unused field set (R107). -/
theorem exists_decodeOpcode_eq_error_iff (opc : Nat) (d s : Bool) :
    (∃ e, decodeOpcode opc d s = .error e) ↔
      reservedOpcode opc ∨ ∃ i : Instr, i.opcode = opc ∧ unusedSet i.fields d s = true := by
  constructor
  · rintro ⟨e, he⟩
    cases hplain : decodeOpcode opc false false with
    | error e' => exact .inl (reservedOpcode_of_decodeOpcode_error hplain)
    | ok i =>
      obtain rfl := (decodeOpcode_eq_ok hplain).1
      refine .inr ⟨i, rfl, Bool.of_not_eq_false fun hu => ?_⟩
      simp [decodeOpcode_opcode, hu] at he
  · rintro (hr | ⟨i, rfl, hu⟩)
    · cases h : decodeOpcode opc d s with
      | error e => exact ⟨e, rfl⟩
      | ok i => exact (not_reservedOpcode_opcode i ((decodeOpcode_eq_ok h).1 ▸ hr)).elim
    · exact ⟨.unusedField, by simp [decodeOpcode_opcode, hu]⟩

/-- The decoder refuses a value for its upper half, its reserved bits, or its opcode and selector bits (R104, R107). -/
theorem exists_decode_eq_error_iff (v : Word) :
    (∃ e, decode v = .error e) ↔ v.extractLsb' 32 32 ≠ 0 ∨ v.extractLsb' 10 22 ≠ 0 ∨
      ∃ e, decodeOpcode (v.extractLsb' 0 8).toNat (v.getLsbD 8) (v.getLsbD 9) = .error e := by
  unfold decode
  split
  · rename_i hupper
    exact ⟨fun _ => .inl hupper, fun _ => ⟨_, rfl⟩⟩
  · rename_i hupper
    split
    · rename_i hrsvd
      exact ⟨fun _ => .inr (.inl hrsvd), fun _ => ⟨_, rfl⟩⟩
    · rename_i hrsvd
      exact ⟨fun h => .inr (.inr h), fun h => (h.resolve_left hupper).resolve_left hrsvd⟩

/-- An unused field is D or S of a command without fields, or S of a command with D alone (R102, R107). -/
theorem unusedSet_iff (f : Fields) (d s : Bool) :
    unusedSet f d s = true ↔ (f = .none ∧ (d = true ∨ s = true)) ∨ (f = .d ∧ s = true) := by
  cases f <;> simp [unusedSet]

/-- The unit's turn with an illegal value in the latch raises IllegalCommand and does nothing else (R107, R360). -/
theorem unitTurn_illegal {v : Word} {e : Illegal} {s : State} (he : decode v = .error e) (hl : s.latch = some v) :
    unitTurn s = .next (ended s .illegalCommand) := by
  simp only [unitTurn, hl, runCommand, he]
  rfl

/-- Settles O2: the decoder's three tests, and what the opcode map refuses. -/
theorem illegalCommandsAsListed : Obligations.IllegalCommandsAsListed := by
  rintro v _ rfl
  refine ⟨?_, fun _ _ => unitTurn_illegal⟩
  simp only [exists_decode_eq_error_iff, exists_decodeOpcode_eq_error_iff, unusedSet_iff]
  exact Iff.rfl

/-! ### Mask and match -/

/-- The word's fields are those of `i`'s row: zero reserved bits, the row's OPC, and 0 in each field that the row does
not use (R101, R106). -/
def inRow (w : CommandWord) (i : Instr) : Prop :=
  w.extractLsb' 10 22 = 0 ∧ (w.extractLsb' 0 8).toNat = i.opcode ∧
    unusedSet i.fields (w.getLsbD 8) (w.getLsbD 9) = false

/-- Every bit of a row's mask: bits 8 and 9 are in it where the row does not use D and S, every other bit is (R106). -/
theorem maskWord_getLsbD (i : Instr) : ∀ j < 32, i.maskWord.getLsbD j =
    ((decide (j ≠ 8) || unusedSet i.fields true false) && (decide (j ≠ 9) || unusedSet i.fields false true)) := by
  unfold Instr.maskWord
  cases i.fields <;> decide

/-- Mask and match test the word's fields, bit by bit (R106). -/
theorem mask_eq_match_iff (w : CommandWord) (i : Instr) : w &&& i.maskWord = i.matchWord ↔ inRow w i := by
  have hfields : unusedSet i.fields (w.getLsbD 8) (w.getLsbD 9) = false ↔
      (w.getLsbD 8 && unusedSet i.fields true false) = false ∧
        (w.getLsbD 9 && unusedSet i.fields false true) = false := by
    cases i.fields <;> simp [unusedSet]
  have hbit {j : Nat} (hj : j < 32) : (w &&& i.maskWord).getLsbD j = i.matchWord.getLsbD j ↔
      (w.getLsbD j && ((decide (j ≠ 8) || unusedSet i.fields true false) &&
        (decide (j ≠ 9) || unusedSet i.fields false true))) = i.opcode.testBit j := by
    rw [BitVec.getLsbD_and, maskWord_getLsbD i j hj, Instr.matchWord, BitVec.getLsbD_ofNat]
    simp [hj]
  rw [inRow, reservedField_eq_zero_iff, opcodeField_eq_iff, hfields]
  constructor
  · intro h
    have hat {j : Nat} (hj : j < 32) := (hbit hj).mp (congrArg (BitVec.getLsbD · j) h)
    refine ⟨fun j hlo hhi => ?_, fun j hj => ?_, ?_, ?_⟩
    · simpa [show j ≠ 8 by omega, show j ≠ 9 by omega, opcode_testBit i (show 8 ≤ j by omega)] using hat hhi
    · simpa [show j ≠ 8 by omega, show j ≠ 9 by omega] using hat (show j < 32 by omega)
    · simpa [opcode_testBit i (Nat.le_refl 8)] using hat (show 8 < 32 by decide)
    · simpa [opcode_testBit i (show 8 ≤ 9 by decide)] using hat (show 9 < 32 by decide)
  · rintro ⟨hrsvd, hopc, hd, hs⟩
    refine BitVec.eq_of_getLsbD_eq fun j hj => (hbit hj).mpr ?_
    rcases (by omega : j < 8 ∨ j = 8 ∨ j = 9 ∨ 10 ≤ j) with h | rfl | rfl | h
    · simp [hopc j h, show j ≠ 8 by omega, show j ≠ 9 by omega]
    · simpa [opcode_testBit i (Nat.le_refl 8)] using hd
    · simpa [opcode_testBit i (show 8 ≤ 9 by decide)] using hs
    · simp [hrsvd j h hj, opcode_testBit i (show 8 ≤ j by omega)]

/-- The decoder tests the word's fields (R104 to R107). -/
theorem exists_decode_setWidth_iff (w : CommandWord) (i : Instr) :
    (∃ j, decode (w.setWidth 64) = .ok j ∧ j.opcode = i.opcode) ↔ inRow w i := by
  rw [inRow, decode_setWidth, ← exists_decodeOpcode_eq_ok_iff]
  by_cases hrsvd : w.extractLsb' 10 22 = 0
  · rw [if_neg (not_not.mpr hrsvd), and_iff_right hrsvd]
  · rw [if_pos hrsvd]
    exact ⟨fun ⟨_, h, _⟩ => (nomatch h), fun h => (hrsvd h.1).elim⟩

/-- Settles O3: mask and match test the fields that the decoder tests, and both fix OPC. -/
theorem maskAndMatchSelectTheRow : Obligations.MaskAndMatchSelectTheRow := by
  intro w i
  refine ⟨(mask_eq_match_iff w i).trans (exists_decode_setWidth_iff w i).symm, fun j hi hj => ?_⟩
  obtain ⟨-, hopci, -⟩ := (mask_eq_match_iff w i).mp hi
  obtain ⟨-, hopcj, -⟩ := (mask_eq_match_iff w j).mp hj
  exact hopci.symm.trans hopcj

/-! ### The issue of a command -/

/-- An admitted write while no command is in progress writes the slot at its offset (R70, R75). -/
theorem hostAccess_write_idle {s : State} (hl : s.latch = none) {off : Nat} (hoff : off < 0x30000) (h8 : off % 8 = 0)
    (v : Word) : hostAccess (.write (s.params.unitBase + off) 8 v) s =
      .next (s.writeSlot v (slotAt s.params off)) := by
  have hgo := hostAccess_admitted (.write (s.params.unitBase + off) 8 v) s (wellFormed_of_offset rfl rfl hoff h8)
  rw [hgo, idle_write hl hgo]

/-- Settles O52: the write of CMD's slot, and BUSY from the full latch (R26). -/
theorem cmdWriteIssues : Obligations.CmdWriteIssues := by
  intro s v hl
  refine ⟨hostAccess_write_idle hl (by decide) (by decide) v, ?_⟩
  rw [statusWord_getLsbD _ (by decide)]
  simp

/-! ### The range of the networks' results -/

theorem addmod_lt {m : Nat} (hm : 0 < m) (a b : Nat) : addmod a b m < m := Nat.mod_lt _ hm

theorem mulmod_lt {m : Nat} (hm : 0 < m) (a b : Nat) : mulmod a b m < m := Nat.mod_lt _ hm

theorem submod_lt {m : Nat} (hm : 0 < m) (a b : Nat) : submod a b m < m := by
  have hpos : (0 : Int) < m := Int.natCast_pos.mpr hm
  have := Int.emod_nonneg ((a : Int) - b) hpos.ne'
  have := Int.emod_lt_of_pos ((a : Int) - b) hpos
  unfold submod
  omega

/-- Every number of the list is below m: with m the modulus, what the last check of R232 asks of the words. -/
def Residues (m : Nat) (a : List Nat) : Prop := ∀ x ∈ a, x < m

theorem residues_nil (m : Nat) : Residues m [] := fun _ h => nomatch h

theorem residues_cons {m x : Nat} {a : List Nat} (hx : x < m) (ha : Residues m a) : Residues m (x :: a) :=
  List.forall_mem_cons.mpr ⟨hx, ha⟩

theorem residues_append {m : Nat} {a b : List Nat} (ha : Residues m a) (hb : Residues m b) : Residues m (a ++ b) :=
  List.forall_mem_append.mpr ⟨ha, hb⟩

theorem residues_drop {m : Nat} {a : List Nat} (n : Nat) (ha : Residues m a) : Residues m (a.drop n) :=
  fun x hx => ha x (List.mem_of_mem_drop hx)

/-- A swap lists only what was there (R198). -/
theorem mem_of_mem_swapAt {α : Type} {a : List α} {i j : Nat} {x : α} (h : x ∈ swapAt a i j) : x ∈ a := by
  unfold swapAt at h
  split at h
  · rename_i y z hy hz
    rcases List.mem_or_eq_of_mem_set h with h | rfl
    · rcases List.mem_or_eq_of_mem_set h with h | rfl
      · exact h
      · exact List.mem_of_getElem? hz
    · exact List.mem_of_getElem? hy
  · exact h

/-- The bit-reversal network keeps residues, whatever the list's length (R198). -/
theorem residues_brperm {m : Nat} (b : Nat) {a : List Nat} (ha : Residues m a) : Residues m (brperm b a) := by
  refine List.foldlRecOn (motive := Residues m) _ _ ha fun y hy i _ => ?_
  split
  · exact fun x hx => hy x (mem_of_mem_swapAt hx)
  · exact hy

theorem residues_mapBlocks {m : Nat} {f : List Nat → List Nat} (hf : ∀ a, Residues m (f a)) (len count : Nat)
    {a : List Nat} (ha : Residues m a) : Residues m (mapBlocks f len count a) := by
  induction count generalizing a with
  | zero => exact ha
  | succ k ih => exact residues_append (hf _) (ih (residues_drop len ha))

theorem residues_radix2Pairs {m : Nat} (hm : 0 < m) (wLen w : Nat) (us vs : List Nat) :
    Residues m (radix2Pairs m wLen w us vs).1 ∧ Residues m (radix2Pairs m wLen w us vs).2 := by
  induction us generalizing w vs with
  | nil => exact ⟨residues_nil m, residues_nil m⟩
  | cons u us ih =>
    cases vs with
    | nil => exact ⟨residues_nil m, residues_nil m⟩
    | cons v vs =>
      obtain ⟨hsum, hdiff⟩ := ih (mulmod w wLen m) vs
      exact ⟨residues_cons (addmod_lt hm _ _) hsum, residues_cons (submod_lt hm _ _) hdiff⟩

theorem residues_radix2Network {m : Nat} (hm : 0 < m) (b : Nat) (tw : List Word) {a : List Nat} (ha : Residues m a) :
    Residues m (radix2Network m b tw a) := by
  refine List.foldlRecOn (motive := Residues m) _ _ (residues_brperm b ha) fun y hy s _ => ?_
  refine residues_mapBlocks (fun x => ?_) _ _ hy
  obtain ⟨hsum, hdiff⟩ := residues_radix2Pairs hm (tw.getD s 0).toNat 1 (x.take (2 ^ s)) (x.drop (2 ^ s))
  exact residues_append hsum hdiff

theorem residues_radix4Quads {m : Nat} (hm : 0 < m) (c1 c2 c3 j w1 w2 w3 : Nat) (a0 a1 a2 a3 : List Nat) :
    Residues m (radix4Quads m c1 c2 c3 j w1 w2 w3 a0 a1 a2 a3).1 ∧
      Residues m (radix4Quads m c1 c2 c3 j w1 w2 w3 a0 a1 a2 a3).2.1 ∧
      Residues m (radix4Quads m c1 c2 c3 j w1 w2 w3 a0 a1 a2 a3).2.2.1 ∧
      Residues m (radix4Quads m c1 c2 c3 j w1 w2 w3 a0 a1 a2 a3).2.2.2 := by
  induction w1, w2, w3, a0, a1, a2, a3 using radix4Quads.induct m c1 c2 c3 j with
  | case1 w1 w2 w3 x0 a0 x1 a1 x2 a2 x3 a3 ih =>
    obtain ⟨h0, h1, h2, h3⟩ := ih
    exact ⟨residues_cons (addmod_lt hm _ _) h0, residues_cons (addmod_lt hm _ _) h1,
      residues_cons (submod_lt hm _ _) h2, residues_cons (submod_lt hm _ _) h3⟩
  | case2 a0 w1 w2 w3 a1 a2 a3 hshort =>
    rw [radix4Quads.eq_2 m c1 c2 c3 j w1 w2 w3 a0 a1 a2 a3 hshort]
    exact ⟨residues_nil m, residues_nil m, residues_nil m, residues_nil m⟩

theorem residues_radix4Network {m : Nat} (hm : 0 < m) (b : Nat) (tw : List (Word × Word × Word)) (j : Nat)
    {a : List Nat} (ha : Residues m a) : Residues m (radix4Network m b tw j a) := by
  refine List.foldlRecOn (motive := Residues m) _ _ (residues_brperm b ha) fun y hy t _ => ?_
  refine residues_mapBlocks (fun x => ?_) _ _ hy
  obtain ⟨h0, h1, h2, h3⟩ := residues_radix4Quads hm (tw.getD t (0, 0, 0)).1.toNat (tw.getD t (0, 0, 0)).2.1.toNat
    (tw.getD t (0, 0, 0)).2.2.toNat j 1 1 1 (x.take (4 ^ t)) ((x.drop (4 ^ t)).take (4 ^ t))
    ((x.drop (2 * 4 ^ t)).take (4 ^ t)) (x.drop (3 * 4 ^ t))
  exact residues_append (residues_append (residues_append h0 h1) h2) h3

theorem residues_scaleBy {m : Nat} (hm : 0 < m) (ninv : Nat) (a : List Nat) : Residues m (scaleBy m ninv a) := by
  intro x hx
  obtain ⟨y, -, rfl⟩ := List.mem_map.mp hx
  exact mulmod_lt hm y ninv

/-- A network that keeps the length of every list, and residues modulo a modulus that is not 0. -/
def KeepsResidues (network : TransformContext → List Nat → List Nat) : Prop :=
  ∀ c a, (network c a).length = a.length ∧
    (0 < c.tcM.toNat → Residues c.tcM.toNat a → Residues c.tcM.toNat (network c a))

theorem forward2_keepsResidues : KeepsResidues forward2 :=
  fun c a => ⟨forward2_length c a, fun hm => residues_radix2Network hm _ _⟩

theorem inverse2_keepsResidues : KeepsResidues inverse2 :=
  fun c a => ⟨inverse2_length c a, fun hm _ => residues_scaleBy hm _ _⟩

theorem forward4_keepsResidues : KeepsResidues forward4 :=
  fun c a => ⟨forward4_length c a, fun hm => residues_radix4Network hm _ _ _⟩

theorem inverse4_keepsResidues : KeepsResidues inverse4 :=
  fun c a => ⟨inverse4_length c a, fun hm _ => residues_scaleBy hm _ _⟩

/-- A network's results on residues fit in words (R6). -/
theorem network_fits_words {network : TransformContext → List Nat → List Nat} (hnet : KeepsResidues network)
    {c : TransformContext} {a : List Nat} (ha : Residues c.tcM.toNat a) : Residues (2 ^ 64) (network c a) := by
  obtain ⟨hlen, hres⟩ := hnet c a
  cases a with
  | nil =>
    rw [List.eq_nil_of_length_eq_zero hlen]
    exact residues_nil _
  | cons x a =>
    have hm : 0 < c.tcM.toNat := Nat.zero_lt_of_lt (ha x List.mem_cons_self)
    exact fun y hy => (hres hm ha y hy).trans c.tcM.isLt

/-! ### The transforms -/

@[simp] theorem bufNats_ended (s : State) (e : Code) (d : Buf) (n : Nat) :
    (ended s e).bufNats d n = s.bufNats d n := rfl

@[simp] theorem bufNats_setBufDom (s : State) (d e : Buf) (tag : Domain) (n : Nat) :
    (s.setBufDom d tag).bufNats e n = s.bufNats e n := by
  cases d <;> rfl

/-- Numbers that fit in words, stored from word 0, read back (R40). -/
theorem bufNats_writeBuf (s : State) (d : Buf) {a : List Nat} (ha : Residues (2 ^ 64) a) :
    (s.writeBuf d (a.map Word.ofNat)).bufNats d a.length = a := by
  have hstored := bufWords_writeBuf s d (a.map Word.ofNat)
  rw [List.length_map] at hstored
  rw [State.bufNats, hstored, List.map_map]
  exact (List.map_congr_left fun x hx => toNat_ofNat_of_lt (ha x hx)).trans (List.map_id a)

/-- A transform whose checks pass stores its network's result and sets the tag (R232 to R238). -/
theorem transform_completes {s : State} {d : Buf} {c : TransformContext} {n : Nat} {radix4 : Bool} {needs : Domain}
    {network : TransformContext → List Nat → List Nat} (hnet : KeepsResidues network) (gives : Domain)
    (hc : s.tc = some c) (hn : c.tcN.toNat = n) (hlen : s.bufLen d = c.tcN)
    (hres : ∀ x ∈ s.bufNats d n, x < c.tcM.toNat) (hdom : s.bufDom d = needs)
    (heven : radix4 = true → Nat.log2 n % 2 = 0) :
    ∃ t, s.transform d radix4 needs gives network = .next t ∧ storedIn s t d n gives ∧
      t.bufNats d n = network c (s.bufNats d n) := by
  subst hn
  have hpass : firstFailure (transformChecks s c d radix4 needs) = none := by
    have hsize : (radix4 && decide (Nat.log2 c.tcN.toNat % 2 = 1)) = false := by
      cases radix4 with
      | false => rfl
      | true => simp [heven rfl]
    simpa [transformChecks, hsize, hlen, hdom] using hres
  have hlength : (network c (s.bufNats d c.tcN.toNat)).length = c.tcN.toNat := by
    rw [(hnet c _).1, bufNats_length]
  have hstored := storedIn_writeBuf_setBufDom s d ((network c (s.bufNats d c.tcN.toNat)).map Word.ofNat) gives
  have hread := bufNats_writeBuf s d (network_fits_words hnet hres)
  rw [List.length_map, hlength] at hstored
  rw [hlength] at hread
  refine ⟨_, ?_, hstored, by rw [bufNats_ended, bufNats_setBufDom, hread]⟩
  rw [State.transform, hc]
  exact conclude_passed _ _ hpass

/-- Settles O34, by what the four networks share: each keeps the buffer's length and its words' range. -/
theorem transformsComplete : Obligations.TransformsComplete := by
  refine ⟨by decide, fun s d c n hc hn hlen hres => ⟨fun hdom => ?fwd2, fun hdom => ?inv2, fun hdom heven => ?fwd4,
    fun hdom heven => ?inv4⟩⟩
  case fwd2 => exact transform_completes forward2_keepsResidues _ hc hn hlen hres hdom (fun h => nomatch h)
  case inv2 => exact transform_completes inverse2_keepsResidues _ hc hn hlen hres hdom (fun h => nomatch h)
  case fwd4 => exact transform_completes forward4_keepsResidues _ hc hn hlen hres hdom (fun _ => heven)
  case inv4 => exact transform_completes inverse4_keepsResidues _ hc hn hlen hres hdom (fun _ => heven)

end Sys2Proof.Proofs
end

section
/-! PROOFS. 40_modular.md: the kernel's commands (R131 to R136) with the checks they share (R130), and the agreement of
the two inverse policies on primes. First the common checks, which the butterflies run too, then what a kernel command
does with them, then the value of each command. -/

namespace Sys2Proof.Proofs

open Sys2Proof.Machine Sys2Proof.Safety Sys2Proof.Laws

/-! ### The common checks -/

/-- Residues pass their checks, and what follows decides (R130). -/
theorem firstFailure_notResidue_pass {m : Word} {xs : List Word} (hxs : ∀ x ∈ xs, x.toNat < m.toNat) (own : List Check) :
    firstFailure (xs.map (notResidue m) ++ own) = firstFailure own := by
  induction xs with
  | nil => rfl
  | cons x xs ih =>
    obtain ⟨hx, hrest⟩ := List.forall_mem_cons.mp hxs
    exact (firstFailure_pass (by simpa using hx)).trans (ih hrest)

/-- An operand that is no residue is reported before anything that follows, whichever operand it is (R130, R322). -/
theorem firstFailure_notResidue_fail {m : Word} {xs : List Word} (hxs : ∃ x ∈ xs, m.toNat ≤ x.toNat)
    (own : List Check) : firstFailure (xs.map (notResidue m) ++ own) = some .operandRange := by
  induction xs with
  | nil => simp at hxs
  | cons x xs ih =>
    rcases Nat.lt_or_ge x.toNat m.toNat with hx | hx
    · have hrest : ∃ y ∈ xs, m.toNat ≤ y.toNat := by simpa [Nat.not_le.mpr hx] using hxs
      exact (firstFailure_pass (by simpa using hx)).trans (ih hrest)
    · exact firstFailure_fail (by simpa using hx)

section ResidueChecks

variable {s : State} {xs : List Word}

theorem firstFailure_residueChecks_degenerate (hm : s.kmod.toNat < 2) (xs : List Word) (own : List Check) :
    firstFailure (s.residueChecks xs ++ own) = some .invalidModulus :=
  firstFailure_fail (by simpa using hm)

theorem firstFailure_residueChecks_range (hm : 2 ≤ s.kmod.toNat) (hxs : ∃ x ∈ xs, s.kmod.toNat ≤ x.toNat)
    (own : List Check) : firstFailure (s.residueChecks xs ++ own) = some .operandRange :=
  (firstFailure_pass (decide_eq_false (Nat.not_lt.mpr hm))).trans (firstFailure_notResidue_fail hxs own)

theorem firstFailure_residueChecks_pass (hm : 2 ≤ s.kmod.toNat) (hxs : ∀ x ∈ xs, x.toNat < s.kmod.toNat)
    (own : List Check) : firstFailure (s.residueChecks xs ++ own) = firstFailure own :=
  (firstFailure_pass (decide_eq_false (Nat.not_lt.mpr hm))).trans (firstFailure_notResidue_pass hxs own)

/-! ### How a kernel command ends -/

theorem kernelCommand_degenerate (hm : s.kmod.toNat < 2) (xs : List Word) (own : List Check) (result : Nat) :
    s.kernelCommand xs own result = .next (ended s .invalidModulus) :=
  conclude_failed _ _ (firstFailure_residueChecks_degenerate hm xs own)

theorem kernelCommand_range (hm : 2 ≤ s.kmod.toNat) (hxs : ∃ x ∈ xs, s.kmod.toNat ≤ x.toNat) (own : List Check)
    (result : Nat) : s.kernelCommand xs own result = .next (ended s .operandRange) :=
  conclude_failed _ _ (firstFailure_residueChecks_range hm hxs own)

/-- With the common checks passed, a command raises what its own checks report. -/
theorem kernelCommand_own_fail (hm : 2 ≤ s.kmod.toNat) (hxs : ∀ x ∈ xs, x.toNat < s.kmod.toNat) {own : List Check}
    {e : Code} (hown : firstFailure own = some e) (result : Nat) :
    s.kernelCommand xs own result = .next (ended s e) :=
  conclude_failed _ _ ((firstFailure_residueChecks_pass hm hxs own).trans hown)

/-- With every check passed, a command stores its result in RS0 and nothing else (R23, R360). -/
theorem kernelCommand_completes (hm : 2 ≤ s.kmod.toNat) (hxs : ∀ x ∈ xs, x.toNat < s.kmod.toNat) {own : List Check}
    (hown : firstFailure own = none) (result : Nat) :
    s.kernelCommand xs own result = .next (ended { s with rs := s.rs.set 0 (Word.ofNat result) } .ok) :=
  conclude_passed _ _ ((firstFailure_residueChecks_pass hm hxs own).trans hown)

end ResidueChecks

/-! ### The values -/

/-- R131's conditional subtraction is the reduction: the sum of two residues is below 2m. -/
theorem maddValue_eq {a b m : Nat} (ha : a < m) (hb : b < m) : maddValue a b m = (a + b) % m := by
  unfold maddValue
  split
  case isTrue h => rw [Nat.mod_eq_sub_mod h, Nat.mod_eq_of_lt (by omega)]
  case isFalse h => rw [Nat.mod_eq_of_lt (by omega)]

theorem submod_cast {m : Nat} (hm : 0 < m) (a b : Nat) : (submod a b m : Int) = ((a : Int) - b) % m :=
  Int.toNat_of_nonneg (Int.emod_nonneg _ (by omega))

/-- R132's conditional addition is the integer difference reduced to [0, m). -/
theorem msubValue_eq {a b m : Nat} (ha : a < m) (hb : b < m) : msubValue a b m = submod a b m :=
  (submod_eq ha hb).symm

/-! ### The commands -/

theorem exec_madd (s : State) : exec .madd s =
    s.kernelCommand [s.op[0], s.op[1]] [] (maddValue s.op[0].toNat s.op[1].toNat s.kmod.toNat) := rfl

theorem exec_msub (s : State) : exec .msub s =
    s.kernelCommand [s.op[0], s.op[1]] [] (msubValue s.op[0].toNat s.op[1].toNat s.kmod.toNat) := rfl

theorem exec_mmul (s : State) : exec .mmul s =
    s.kernelCommand [s.op[0], s.op[1]] [] (s.op[0].toNat * s.op[1].toNat % s.kmod.toNat) := rfl

/-- MPOW's loop computes the power, for every value of OP1 (R134). -/
theorem exec_mpow (s : State) : exec .mpow s =
    s.kernelCommand [s.op[0]] [] (s.op[0].toNat ^ s.op[1].toNat % s.kmod.toNat) := by
  rw [← powmod_eq _ _ _ s.op[1].isLt]
  rfl

/-- MINVF is the power m - 2 behind the check of a = 0 (R135). -/
theorem exec_minvf (s : State) : exec .minvf s =
    s.kernelCommand [s.op[0]] [⟨decide (s.op[0].toNat = 0), .notInvertible⟩]
      (s.op[0].toNat ^ (s.kmod.toNat - 2) % s.kmod.toNat) := by
  rw [← powmod_eq _ _ _ ((Nat.sub_le _ _).trans_lt s.kmod.isLt)]
  rfl

/-- MINVE's check is on the gcd, which its loop computes (R136). -/
theorem exec_minve (s : State) : exec .minve s =
    s.kernelCommand [s.op[0]] [⟨decide (Nat.gcd s.op[0].toNat s.kmod.toNat ≠ 1), .notInvertible⟩]
      (invmod s.op[0].toNat s.kmod.toNat) := by
  have hexec : exec .minve s = execMinve s := rfl
  simp only [hexec, execMinve, (euclid_spec _ s.kmod.toNat s.op[0].isLt).1]

/-- Settles O14, by the common checks and R131's conditional subtraction. -/
theorem maddRule : Obligations.MaddRule := by
  refine ⟨by decide, ?_⟩
  rintro s _ _ _ rfl rfl rfl
  rw [exec_madd]
  refine ⟨fun hm ha hb => ?_, fun hm => kernelCommand_degenerate hm _ _ _,
    fun hm hout => kernelCommand_range hm (by simpa using hout) _ _⟩
  rw [maddValue_eq ha hb]
  exact kernelCommand_completes hm (by simp [ha, hb]) rfl _

/-- Settles O15, by the common checks and R132's conditional addition. -/
theorem msubRule : Obligations.MsubRule := by
  refine ⟨by decide, ?_⟩
  rintro s _ _ _ rfl rfl rfl
  rw [exec_msub]
  refine ⟨fun hm ha hb => ?_, fun hm => kernelCommand_degenerate hm _ _ _,
    fun hm hout => kernelCommand_range hm (by simpa using hout) _ _⟩
  have hpos : 0 < s.kmod.toNat := by omega
  rw [msubValue_eq ha hb]
  refine ⟨_, ?_, kernelCommand_completes hm (by simp [ha, hb]) rfl _⟩
  rw [toNat_ofNat_of_lt ((submod_lt hpos _ _).trans s.kmod.isLt), submod_cast hpos]

/-- Settles O16, by the common checks; the model's product is exact. -/
theorem mmulRule : Obligations.MmulRule := by
  refine ⟨by decide, ?_⟩
  rintro s _ _ _ rfl rfl rfl
  rw [exec_mmul]
  exact ⟨fun hm ha hb => kernelCommand_completes hm (by simp [ha, hb]) rfl _,
    fun hm => kernelCommand_degenerate hm _ _ _, fun hm hout => kernelCommand_range hm (by simpa using hout) _ _⟩

/-- Settles O17, by the common checks on the base and the law of R134's loop. -/
theorem mpowRule : Obligations.MpowRule := by
  refine ⟨by decide, ?_⟩
  rintro s _ _ _ rfl rfl rfl
  rw [exec_mpow]
  exact ⟨fun hm hx => kernelCommand_completes hm (by simp [hx]) rfl _,
    fun hm => kernelCommand_degenerate hm _ _ _, fun hm hout => kernelCommand_range hm (by simpa using hout) _ _⟩

/-- Settles O18: the common checks, then a = 0, then the power of R134's loop. -/
theorem minvfRule : Obligations.MinvfRule := by
  refine ⟨by decide, ?_⟩
  rintro s _ _ rfl rfl
  rw [exec_minvf]
  refine ⟨fun hm ha h0 => ?_, fun hm => kernelCommand_degenerate hm _ _ _,
    fun hm hout => kernelCommand_range hm (by simpa using hout) _ _, fun hm h0 => ?_⟩
  · exact kernelCommand_completes hm (by simp [ha]) (firstFailure_pass (by simpa using h0)) _
  · have hres : s.op[0].toNat < s.kmod.toNat := by omega
    exact kernelCommand_own_fail hm (by simp [hres]) (firstFailure_fail (by simpa using h0)) _

/-- Settles O19: the common checks, then the gcd and the inverse of R136's loop. -/
theorem minveRule : Obligations.MinveRule := by
  refine ⟨by decide, ?_⟩
  rintro s _ _ rfl rfl
  rw [exec_minve]
  refine ⟨fun hm ha hg => ?_, fun hm => kernelCommand_degenerate hm _ _ _,
    fun hm hout => kernelCommand_range hm (by simpa using hout) _ _, fun hm ha hg => ?_⟩
  · obtain ⟨hlt, hinv⟩ := invmod_spec _ _ s.op[0].isLt hm hg
    have hval : (Word.ofNat (invmod s.op[0].toNat s.kmod.toNat)).toNat = invmod s.op[0].toNat s.kmod.toNat :=
      toNat_ofNat_of_lt (hlt.trans s.kmod.isLt)
    exact ⟨_, hval.symm ▸ hlt, hval.symm ▸ hinv,
      kernelCommand_completes hm (by simp [ha]) (firstFailure_pass (by simpa using hg)) _⟩
  · exact kernelCommand_own_fail hm (by simp [ha]) (firstFailure_fail (by simpa using hg)) _

/-! ### The two inverse policies -/

/-- Modulo a prime, the residue that is an inverse of `a` is the power m - 2, by Fermat's little theorem (R136). -/
theorem inverse_eq_pow_of_prime {m a x : Nat} (hp : Nat.Prime m) (hcop : Nat.Coprime a m) (hx : x < m)
    (hinv : a * x % m = 1) : x = a ^ (m - 2) % m := by
  have hm : 2 ≤ m := hp.two_le
  have hax : a * x ≡ 1 [MOD m] := hinv.trans (Nat.mod_eq_of_lt hm).symm
  have hfermat : a * a ^ (m - 2) ≡ 1 [MOD m] := by
    have h := Nat.ModEq.pow_totient hcop
    rwa [Nat.totient_prime hp, show m - 1 = m - 2 + 1 by omega, Nat.pow_succ'] at h
  have hsame : x ≡ a ^ (m - 2) [MOD m] :=
    Nat.ModEq.cancel_left_of_coprime (Nat.gcd_comm a m ▸ hcop) (hax.trans hfermat.symm)
  exact (Nat.mod_eq_of_lt hx).symm.trans hsame

/-- Settles O20: the two rules clause by clause; a nonzero residue is coprime to a prime modulus, 0 is not. -/
theorem inversePoliciesAgreeOnPrimes : Obligations.InversePoliciesAgreeOnPrimes := by
  intro s hp
  have hm : 2 ≤ s.kmod.toNat := hp.two_le
  obtain ⟨hfInv, -, hfRange, hfZero⟩ := minvfRule.2 s _ _ rfl rfl
  obtain ⟨heInv, -, heRange, heGcd⟩ := minveRule.2 s _ _ rfl rfl
  rcases Nat.lt_or_ge s.op[0].toNat s.kmod.toNat with ha | ha
  case inr => rw [hfRange hm ha, heRange hm ha]
  rcases Nat.eq_zero_or_pos s.op[0].toNat with h0 | hpos
  case inl =>
    have hgcd : Nat.gcd s.op[0].toNat s.kmod.toNat ≠ 1 := by rw [h0, Nat.gcd_zero_left]; exact hp.ne_one
    rw [hfZero hm h0, heGcd hm ha hgcd]
  case inr =>
    have hcop : Nat.Coprime s.op[0].toNat s.kmod.toNat := (Nat.coprime_of_lt_prime hpos.ne' ha hp).symm
    obtain ⟨x, hx, hinv, hexec⟩ := heInv hm ha hcop
    have hword : Word.ofNat (s.op[0].toNat ^ (s.kmod.toNat - 2) % s.kmod.toNat) = x := by
      rw [← inverse_eq_pow_of_prime hp hcop hx hinv]
      simp
    rw [hfInv hm ha hpos.ne', hexec, hword]

end Sys2Proof.Proofs
end

section
/-! PROOFS. 41_montgomery.md: MONT_INIT (R161), the value of the reduction (R162) and of the branch-free sum and
difference (R166, R167), the commands over the context (R163 to R167), and R168's law. After MONT_INIT come the
conditional subtraction that the reduction and the sum share, the values, and how a command over the context ends. -/

namespace Sys2Proof.Proofs

open Sys2Proof.Machine Sys2Proof.Safety Sys2Proof.Laws

/-! ### MONT_INIT -/

/-- MONT_INIT's parity test, a bit of KMOD, in terms of the number (R161). -/
theorem exec_montInit (s : State) : exec .montInit s =
    conclude [⟨decide (s.kmod.toNat < 2) || !decide (s.kmod.toNat % 2 = 1), .invalidModulus⟩]
      { s with mont := some (montgomeryContext s.kmod) } { s with mont := none } := by
  have hexec : exec .montInit s = execMontInit s := rfl
  rw [hexec, execMontInit, BitVec.getLsbD, Nat.testBit_zero]

/-- Settles O21, by the legality of R160's constants. -/
theorem montInitRule : Obligations.MontInitRule := by
  refine ⟨by decide, ?_⟩
  rintro s _ rfl
  rw [exec_montInit]
  refine ⟨fun hm hodd => ⟨montgomeryContext s.kmod, rfl, montgomeryContext_legal hm hodd, ?_⟩, fun hbad => ?_⟩
  · exact conclude_passed _ _ (firstFailure_pass (by simpa [hodd] using Nat.lt_of_succ_le hm))
  · exact conclude_failed _ _ (firstFailure_fail (by simpa using hbad))

/-! ### Subtraction by mask and select -/

@[simp] theorem toNat_and_selectMask (m : Word) (b : Bool) : (m &&& selectMask b).toNat = if b then m.toNat else 0 := by
  cases b with
  | false => exact congrArg BitVec.toNat BitVec.and_zero
  | true => exact congrArg BitVec.toNat BitVec.and_allOnes

/-- The conditional subtraction that R162 and R166 end with is the reduction of a value below 2m: the 65-bit difference
does not wrap, and what is kept of it fits in a word. -/
theorem toNat_subtractBelow {t : BitVec 65} {m : Word} (ht : t.toNat < 2 * m.toNat) :
    ((t - (m &&& selectMask (decide (m.toNat ≤ t.toNat))).setWidth 65).setWidth 64).toNat = t.toNat % m.toNat := by
  have hm := m.isLt
  by_cases hle : m.toNat ≤ t.toNat
  · have hmod : t.toNat % m.toNat = t.toNat - m.toNat := by
      rw [Nat.mod_eq_sub_mod hle, Nat.mod_eq_of_lt (by omega)]
    simp only [toNat_and_selectMask, hle, decide_true, if_true, hmod, BitVec.toNat_setWidth, BitVec.toNat_sub]
    omega
  · have hmod : t.toNat % m.toNat = t.toNat := Nat.mod_eq_of_lt (by omega)
    simp only [toNat_and_selectMask, hle, decide_false, Bool.false_eq_true, if_false, hmod, BitVec.toNat_setWidth,
      BitVec.toNat_sub]
    omega

/-! ### The reduction -/

theorem eq_ofNat_of_toNat {x : Word} {n : Nat} (h : x.toNat = n) : x = Word.ofNat n := by
  rw [← h]
  simp

/-- R162's t for the product `x`: the high part of U = x + q m, as a number. `toNat_montmul_eq` ties it to the model. -/
def redc (m mp x : Nat) : Nat := (x + x * mp % 2 ^ 64 * m) / 2 ^ 64

/-- U[63:0] = 0 by the choice of MONT_MP, so that t loses nothing (R162). -/
theorem redc_mul {m mp : Nat} (hmp : (mp * m + 1) % 2 ^ 64 = 0) (x : Nat) :
    redc m mp x * 2 ^ 64 = x + x * mp % 2 ^ 64 * m := by
  refine Nat.div_mul_cancel (Nat.dvd_of_mod_eq_zero ?_)
  calc (x + x * mp % 2 ^ 64 * m) % 2 ^ 64
      = (x + x * mp * m) % 2 ^ 64 := by rw [Nat.add_mod, Nat.mod_mul_mod, ← Nat.add_mod]
    _ = x * (mp * m + 1) % 2 ^ 64 := by ring_nf
    _ = 0 := by rw [Nat.mul_mod, hmp, Nat.mul_zero, Nat.zero_mod]

/-- R162's bound on t. -/
theorem redc_lt {m x : Nat} (mp : Nat) (hm : m < 2 ^ 64) (hx : x < m * m) : redc m mp x < 2 * m := by
  have hq : x * mp % 2 ^ 64 * m ≤ 2 ^ 64 * m := Nat.mul_le_mul_right m (Nat.mod_lt _ (by decide)).le
  have hsq : m * m ≤ 2 ^ 64 * m := Nat.mul_le_mul_right m hm.le
  exact (Nat.div_lt_iff_lt_mul (by decide)).mpr (by omega)

/-- The intermediates of R162 hold their values without loss: 128 bits for the product, 129 for the multiply-add, and 65
for its high part. -/
theorem toNat_multiplyAdd_high (a b mp m : Word) :
    (((a.setWidth 128 * b.setWidth 128).setWidth 129 +
        ((a.setWidth 128 * b.setWidth 128).setWidth 64 * mp).setWidth 129 * m.setWidth 129 :
          BitVec 129).extractLsb' 64 65).toNat = redc m.toNat mp.toNat (a.toNat * b.toNat) := by
  have hab : a.toNat * b.toNat < 2 ^ 64 * 2 ^ 64 := Nat.mul_lt_mul'' a.isLt b.isLt
  have hprod : (a.setWidth 128 * b.setWidth 128 : BitVec 128).toNat = a.toNat * b.toNat := by
    rw [BitVec.toNat_mul, BitVec.toNat_setWidth_of_le (by decide), BitVec.toNat_setWidth_of_le (by decide)]
    exact Nat.mod_eq_of_lt hab
  have hq : ((a.setWidth 128 * b.setWidth 128).setWidth 64 * mp : Word).toNat =
      a.toNat * b.toNat * mp.toNat % 2 ^ 64 := by
    rw [BitVec.toNat_mul, BitVec.toNat_setWidth, hprod, Nat.mod_mul_mod]
  have hqm : a.toNat * b.toNat * mp.toNat % 2 ^ 64 * m.toNat < 2 ^ 64 * 2 ^ 64 :=
    Nat.mul_lt_mul'' (Nat.mod_lt _ (by decide)) m.isLt
  rw [BitVec.extractLsb'_toNat, BitVec.toNat_add, BitVec.toNat_mul, BitVec.toNat_setWidth_of_le (by decide),
    BitVec.toNat_setWidth_of_le (by decide), BitVec.toNat_setWidth_of_le (by decide), hprod, hq, redc,
    Nat.shiftRight_eq_div_pow]
  omega

section Reduction

variable {c : MontgomeryContext} {a b : Word}

/-- The reduction of residues is t modulo m (R162). -/
theorem toNat_montmul_eq (ha : a.toNat < c.montM.toNat) (hb : b.toNat < c.montM.toNat) :
    (montmul c a b).toNat = redc c.montM.toNat c.montMP.toNat (a.toNat * b.toNat) % c.montM.toNat := by
  rw [← toNat_multiplyAdd_high]
  refine toNat_subtractBelow ?_
  rw [toNat_multiplyAdd_high]
  exact redc_lt _ c.montM.isLt (Nat.mul_lt_mul'' ha hb)

/-- Multiplication by R R^-1 changes nothing modulo m. -/
theorem mul_R_mul_rInv (hc : MontgomeryLegal c) (x : Nat) :
    x * 2 ^ 64 * c.montRInv.toNat ≡ x [MOD c.montM.toNat] := by
  have hone : 2 ^ 64 * c.montRInv.toNat ≡ 1 [MOD c.montM.toNat] :=
    hc.rInv.trans (Nat.mod_eq_of_lt (Nat.lt_of_lt_of_le (by decide) hc.three_le)).symm
  simpa only [Nat.mul_one, ← Nat.mul_assoc] using hone.mul_left x

/-- t is x R^-1 modulo m. -/
theorem redc_modEq (hc : MontgomeryLegal c) (x : Nat) :
    redc c.montM.toNat c.montMP.toNat x ≡ x * c.montRInv.toNat [MOD c.montM.toNat] :=
  calc redc c.montM.toNat c.montMP.toNat x
      ≡ redc c.montM.toNat c.montMP.toNat x * 2 ^ 64 * c.montRInv.toNat [MOD c.montM.toNat] :=
        (mul_R_mul_rInv hc _).symm
    _ = (x + x * c.montMP.toNat % 2 ^ 64 * c.montM.toNat) * c.montRInv.toNat := by rw [redc_mul hc.mp]
    _ ≡ x * c.montRInv.toNat [MOD c.montM.toNat] := Nat.ModEq.mul_right _ (Nat.add_mul_mod_self_right _ _ _)

theorem toNat_montmul (hc : MontgomeryLegal c) (ha : a.toNat < c.montM.toNat) (hb : b.toNat < c.montM.toNat) :
    (montmul c a b).toNat = a.toNat * b.toNat * c.montRInv.toNat % c.montM.toNat :=
  (toNat_montmul_eq ha hb).trans (redc_modEq hc _)

theorem montmul_lt (hc : MontgomeryLegal c) (ha : a.toNat < c.montM.toNat) (hb : b.toNat < c.montM.toNat) :
    (montmul c a b).toNat < c.montM.toNat := by
  rw [toNat_montmul hc ha hb]
  exact Nat.mod_lt _ (Nat.zero_lt_of_lt ha)

theorem montR2_lt (hc : MontgomeryLegal c) : c.montR2.toNat < c.montM.toNat :=
  hc.r2 ▸ Nat.mod_lt _ (Nat.lt_of_lt_of_le (by decide) hc.three_le)

/-- The product with R^2 takes a residue into the Montgomery domain (R164). -/
theorem toNat_montmul_montR2 (hc : MontgomeryLegal c) (ha : a.toNat < c.montM.toNat) :
    (montmul c a c.montR2).toNat = a.toNat * 2 ^ 64 % c.montM.toNat := by
  have hr2Mod : c.montR2.toNat ≡ 2 ^ 128 [MOD c.montM.toNat] := hc.r2 ▸ Nat.mod_modEq _ _
  rw [toNat_montmul hc ha (montR2_lt hc)]
  calc a.toNat * c.montR2.toNat * c.montRInv.toNat
      ≡ a.toNat * 2 ^ 128 * c.montRInv.toNat [MOD c.montM.toNat] := (hr2Mod.mul_left _).mul_right _
    _ = a.toNat * 2 ^ 64 * 2 ^ 64 * c.montRInv.toNat := by ring
    _ ≡ a.toNat * 2 ^ 64 [MOD c.montM.toNat] := mul_R_mul_rInv hc _

/-- The product with 1 takes a residue out of the Montgomery domain (R165). -/
theorem toNat_montmul_one (hc : MontgomeryLegal c) (ha : a.toNat < c.montM.toNat) :
    (montmul c a 1).toNat = a.toNat * c.montRInv.toNat % c.montM.toNat := by
  have hone : (1 : Word).toNat < c.montM.toNat := Nat.lt_of_lt_of_le (by decide) hc.three_le
  rw [toNat_montmul hc ha hone, show (1 : Word).toNat = 1 from rfl, Nat.mul_one]

end Reduction

/-- Settles O22: t is a b R^-1 modulo m and below 2m, and the conditional subtraction reduces it. -/
theorem montgomeryReductionIsExact : Obligations.MontgomeryReductionIsExact :=
  fun _ _ _ hc ha hb => toNat_montmul hc ha hb

/-- Settles O25: the product of two representatives is the representative of the product, and going out undoes the
factor R. -/
theorem montgomeryDomainMultiplies : Obligations.MontgomeryDomainMultiplies := by
  intro c a b hc ha hb
  have haIn := montmul_lt hc ha (montR2_lt hc)
  have hbIn := montmul_lt hc hb (montR2_lt hc)
  have hproduct : (montmul c (montmul c a c.montR2) (montmul c b c.montR2)).toNat ≡
      a.toNat * b.toNat * 2 ^ 64 [MOD c.montM.toNat] := by
    rw [toNat_montmul hc haIn hbIn, toNat_montmul_montR2 hc ha, toNat_montmul_montR2 hc hb]
    calc a.toNat * 2 ^ 64 % c.montM.toNat * (b.toNat * 2 ^ 64 % c.montM.toNat) * c.montRInv.toNat % c.montM.toNat
        ≡ a.toNat * 2 ^ 64 * (b.toNat * 2 ^ 64) * c.montRInv.toNat [MOD c.montM.toNat] :=
          (Nat.mod_modEq _ _).trans (((Nat.mod_modEq _ _).mul (Nat.mod_modEq _ _)).mul_right _)
      _ = a.toNat * b.toNat * 2 ^ 64 * 2 ^ 64 * c.montRInv.toNat := by ring
      _ ≡ a.toNat * b.toNat * 2 ^ 64 [MOD c.montM.toNat] := mul_R_mul_rInv hc _
  have hout := toNat_montmul_one hc (montmul_lt hc haIn hbIn)
  exact eq_ofNat_of_toNat (hout.trans ((hproduct.mul_right _).trans (mul_R_mul_rInv hc _)))

/-! ### The branch-free sum and difference -/

section BranchFree

variable {a b m : Word}

/-- R166's 65-bit sum loses no carry. -/
theorem toNat_sum65 (a b : Word) : (a.setWidth 65 + b.setWidth 65 : BitVec 65).toNat = a.toNat + b.toNat := by
  have ha := a.isLt
  have hb := b.isLt
  simp only [BitVec.toNat_add, BitVec.toNat_setWidth]
  omega

/-- The sign of R166's 66-bit difference is the comparison of the sum with m. -/
theorem msb_difference66 (t : BitVec 65) (m : Word) :
    (!(t.setWidth 66 - m.setWidth 66 : BitVec 66).msb) = decide (m.toNat ≤ t.toNat) := by
  have ht := t.isLt
  have hm := m.isLt
  rw [BitVec.msb_eq_decide, ← decide_not, decide_eq_decide]
  simp only [BitVec.toNat_sub, BitVec.toNat_setWidth]
  omega

/-- The sign of R167's 65-bit difference is the borrow. -/
theorem msb_difference65 (a b : Word) :
    (a.setWidth 65 - b.setWidth 65 : BitVec 65).msb = decide (a.toNat < b.toNat) := by
  have ha := a.isLt
  have hb := b.isLt
  rw [BitVec.msb_eq_decide, decide_eq_decide]
  simp only [BitVec.toNat_sub, BitVec.toNat_setWidth]
  omega

/-- CT_ADD's value is the sum of the residues modulo m (R166). -/
theorem toNat_ctAddValue (ha : a.toNat < m.toNat) (hb : b.toNat < m.toNat) :
    (ctAddValue a b m).toNat = (a.toNat + b.toNat) % m.toNat := by
  have hsum : (a.setWidth 65 + b.setWidth 65 : BitVec 65).toNat < 2 * m.toNat := by
    rw [toNat_sum65]
    omega
  have hreduced := toNat_subtractBelow hsum
  rw [← msb_difference66, toNat_sum65] at hreduced
  exact hreduced

/-- CT_SUB's value is the difference of the residues modulo m (R167). -/
theorem toNat_ctSubValue (ha : a.toNat < m.toNat) (hb : b.toNat < m.toNat) :
    (ctSubValue a b m).toNat = submod a.toNat b.toNat m.toNat := by
  have hm := m.isLt
  rw [submod_eq ha hb]
  simp only [ctSubValue, msb_difference65, BitVec.toNat_setWidth, BitVec.toNat_add, BitVec.toNat_sub,
    toNat_and_selectMask]
  by_cases hlt : a.toNat < b.toNat
  · simp only [hlt, decide_true, if_true, Nat.not_le.mpr hlt, if_false]
    omega
  · simp only [hlt, decide_false, Bool.false_eq_true, if_false, Nat.not_lt.mp hlt, if_true]
    omega

end BranchFree

/-! ### How a command over the context ends -/

section MontCommand

variable {s : State} {c : MontgomeryContext} {xs : List Word}

theorem montCommand_noContext (h : s.mont = none) (xs : List Word) (result : MontgomeryContext → Word) :
    s.montCommand xs result = .next (ended s .noContext) := by
  rw [State.montCommand, h]
  rfl

theorem montCommand_some (h : s.mont = some c) (xs : List Word) (result : MontgomeryContext → Word) :
    s.montCommand xs result = conclude (xs.map (notResidue c.montM)) (s.setRs0 (result c)) s := by
  rw [State.montCommand, h]

theorem montCommand_range (h : s.mont = some c) (hxs : ∃ x ∈ xs, c.montM.toNat ≤ x.toNat)
    (result : MontgomeryContext → Word) : s.montCommand xs result = .next (ended s .operandRange) := by
  have hfail := firstFailure_notResidue_fail hxs []
  rw [List.append_nil] at hfail
  rw [montCommand_some h]
  exact conclude_failed _ _ hfail

/-- With residue operands a command stores its result in RS0 and nothing else (R23, R360). -/
theorem montCommand_completes (h : s.mont = some c) (hxs : ∀ x ∈ xs, x.toNat < c.montM.toNat)
    (result : MontgomeryContext → Word) :
    s.montCommand xs result = .next (ended { s with rs := s.rs.set 0 (result c) } .ok) := by
  have hpass := firstFailure_notResidue_pass hxs []
  rw [List.append_nil, firstFailure_nil] at hpass
  rw [montCommand_some h]
  exact conclude_passed _ _ hpass

/-- The same with the result given as a number. -/
theorem montCommand_completes_toNat (h : s.mont = some c) (hxs : ∀ x ∈ xs, x.toNat < c.montM.toNat)
    {result : MontgomeryContext → Word} {n : Nat} (hn : (result c).toNat = n) :
    s.montCommand xs result = .next (ended { s with rs := s.rs.set 0 (Word.ofNat n) } .ok) := by
  rw [montCommand_completes h hxs, eq_ofNat_of_toNat hn]

end MontCommand

/-! ### The commands -/

theorem exec_montMul (s : State) : exec .montMul s =
    s.montCommand [s.op[0], s.op[1]] fun c => montmul c s.op[0] s.op[1] := rfl

theorem exec_montTo (s : State) : exec .montTo s = s.montCommand [s.op[0]] fun c => montmul c s.op[0] c.montR2 := rfl

theorem exec_montFrom (s : State) : exec .montFrom s = s.montCommand [s.op[0]] fun c => montmul c s.op[0] 1 := rfl

theorem exec_ctAdd (s : State) : exec .ctAdd s =
    s.montCommand [s.op[0], s.op[1]] fun c => ctAddValue s.op[0] s.op[1] c.montM := rfl

theorem exec_ctSub (s : State) : exec .ctSub s =
    s.montCommand [s.op[0], s.op[1]] fun c => ctSubValue s.op[0] s.op[1] c.montM := rfl

/-- Settles O23, by the operands' checks and the three values of the reduction. -/
theorem montgomeryCommandsRule : Obligations.MontgomeryCommandsRule := by
  refine ⟨by decide, ?_⟩
  rintro s _ _ rfl rfl
  rw [exec_montMul, exec_montTo, exec_montFrom]
  refine ⟨?_, fun h => ⟨montCommand_noContext h _ _, montCommand_noContext h _ _, montCommand_noContext h _ _⟩⟩
  rintro c _ h rfl
  refine ⟨fun hc ha hb => ?mul, fun hc ha => ?into, fun hc ha => ?out, fun hout => ?mulRange, fun hout => ?range⟩
  case mul => exact montCommand_completes_toNat h (by simp [ha, hb]) (toNat_montmul hc ha hb)
  case into => exact montCommand_completes_toNat h (by simpa using ha) (toNat_montmul_montR2 hc ha)
  case out => exact montCommand_completes_toNat h (by simpa using ha) (toNat_montmul_one hc ha)
  case mulRange => exact montCommand_range h (by simpa using hout) _
  case range => exact ⟨montCommand_range h (by simpa using hout) _, montCommand_range h (by simpa using hout) _⟩

/-- Settles O24, by the operands' checks and the values of the branch-free sum and difference. -/
theorem branchFreeRule : Obligations.BranchFreeRule := by
  refine ⟨by decide, ?_⟩
  rintro s _ _ rfl rfl
  rw [exec_ctAdd, exec_ctSub]
  refine ⟨?_, fun h => ⟨montCommand_noContext h _ _, montCommand_noContext h _ _⟩⟩
  rintro c _ h rfl
  refine ⟨fun ha hb => ?add, fun ha hb => ⟨ctSubValue s.op[0] s.op[1] c.montM, ?value, ?sub⟩,
    fun hout => ?range⟩
  case add => exact montCommand_completes_toNat h (by simp [ha, hb]) (toNat_ctAddValue ha hb)
  case sub => exact montCommand_completes h (by simp [ha, hb]) _
  case value => rw [toNat_ctSubValue ha hb, submod_cast (Nat.zero_lt_of_lt ha)]
  case range => exact ⟨montCommand_range h (by simpa using hout) _, montCommand_range h (by simpa using hout) _⟩

end Sys2Proof.Proofs
end

section
/-! PROOFS. 42_transform_context.md: the validator of R192 in R193's form, by the order of the root modulo m; the rules of
ROOT_CHECK (R194) and CTX_BUILD (R191) with the checks they share; and BITREV twice (R199), by the law of one run. -/

namespace Sys2Proof.Proofs

open Sys2Proof.Machine Sys2Proof.Safety Sys2Proof.Laws

/-! ### The validator -/

theorem pow_mod_eq_one_mod_iff (m root e : Nat) : root ^ e % m = 1 % m ↔ (root : ZMod m) ^ e = 1 := by
  simpa using (ZMod.natCast_eq_natCast_iff' (root ^ e) 1 m).symm

theorem cast_pow_eq_neg_one {m root e : Nat} (hm : 1 ≤ m) (h : root ^ e % m = m - 1) : (root : ZMod m) ^ e = -1 := by
  have hcast : ((root ^ e % m : Nat) : ZMod m) = ((m - 1 : Nat) : ZMod m) := congrArg _ h
  simpa [Nat.cast_sub hm] using hcast

/-- A root whose power 2^k is -1, which is not 1 for m ≥ 3, has order 2^(k+1): the idea of R193. -/
theorem orderOf_eq_of_half {m k : Nat} {x : ZMod m} (hm : 3 ≤ m) (hhalf : x ^ 2 ^ k = -1) : orderOf x = 2 * 2 ^ k := by
  have : Fact (2 < m) := ⟨hm⟩
  have hone : ¬ x ^ 2 ^ k = 1 := hhalf ▸ ZMod.neg_one_ne_one
  have hdouble : x ^ 2 ^ (k + 1) = 1 := by rw [Nat.pow_succ, pow_mul, hhalf, neg_one_sq]
  rw [orderOf_eq_prime_pow hone hdouble, Nat.pow_succ']

/-- R193's form of the validator. For m = 2 the root's half power is 1, which the check of the smaller powers refuses. -/
theorem validRoot_two_pow_iff {m root k : Nat} (hm : 2 ≤ m) (hk : k ≤ 62) :
    validRoot m (2 ^ k) root = true ↔ 3 ≤ m ∧ root ^ 2 ^ k % m = m - 1 := by
  have hpos : 0 < 2 ^ k := Nat.two_pow_pos k
  have hle : 2 ^ k ≤ 2 ^ 62 := Nat.pow_le_pow_right (by decide) hk
  rw [validRoot_iff (by omega)]
  constructor
  · rintro ⟨hhalf, -, hleast⟩
    rcases hm.eq_or_lt with rfl | h3
    · exact absurd hhalf (hleast (2 ^ k) hpos (by omega))
    · exact ⟨h3, hhalf⟩
  · rintro ⟨h3, hhalf⟩
    have horder := orderOf_eq_of_half h3 (cast_pow_eq_neg_one (by omega) hhalf)
    refine ⟨hhalf, ?_, fun j hj hlt => ?_⟩
    · rw [pow_mod_eq_one_mod_iff, ← horder, pow_orderOf_eq_one]
    · rw [Ne, pow_mod_eq_one_mod_iff]
      exact pow_ne_one_of_lt_orderOf hj.ne' (horder ▸ hlt)

/-- Settles O26, by the order of the root. -/
theorem validatorNeedsOneCheck : Obligations.ValidatorNeedsOneCheck := by
  rintro m _ root k hm rfl hk
  exact validRoot_two_pow_iff hm hk

/-- R193's form holds for every legal size, because NMAX is at most 2^13 (R7). -/
theorem validRoot_legal_iff {p : Params} {m n root : Nat} (hp : p.wellFormed = true) (hm : 2 ≤ m)
    (hsize : legalSize p n) : validRoot m n root = true ↔ 3 ≤ m ∧ root ^ n % m = m - 1 := by
  obtain ⟨⟨k, rfl⟩, hmax⟩ := hsize
  have hk : k ≤ 13 := (Nat.pow_le_pow_iff_right (by decide)).mp (hmax.trans (wellFormed_bounds hp).2)
  exact validRoot_two_pow_iff hm (by omega)

/-! ### The checks of the modulus and the size -/

section SizeChecks

variable {p : Params} {m : Word} {n : Nat} (cs : List Check)

theorem firstFailure_degenerate (hm : m.toNat < 2) : firstFailure (degenerateModulus m :: cs) = some .invalidModulus :=
  firstFailure_fail (decide_eq_true hm)

theorem firstFailure_badSize (hm : 2 ≤ m.toNat) (hsize : ¬ legalSize p n) :
    firstFailure (degenerateModulus m :: ⟨badSize p.nMax n, .invalidSize⟩ :: cs) = some .invalidSize :=
  (firstFailure_pass (decide_eq_false (Nat.not_lt.mpr hm))).trans
    (firstFailure_fail ((badSize_eq_true_iff p n).mpr hsize))

theorem firstFailure_legalSize (hm : 2 ≤ m.toNat) (hsize : legalSize p n) :
    firstFailure (degenerateModulus m :: ⟨badSize p.nMax n, .invalidSize⟩ :: cs) = firstFailure cs :=
  (firstFailure_pass (decide_eq_false (Nat.not_lt.mpr hm))).trans
    (firstFailure_pass ((badSize_eq_false_iff p n).mpr hsize))

theorem firstFailure_root_fail {root : Word} (hroot : m.toNat ≤ root.toNat) :
    firstFailure (notResidue m root :: cs) = some .operandRange := firstFailure_fail (decide_eq_true hroot)

theorem firstFailure_root_pass {root : Word} (hroot : root.toNat < m.toNat) :
    firstFailure (notResidue m root :: cs) = firstFailure cs :=
  firstFailure_pass (decide_eq_false (Nat.not_le.mpr hroot))

end SizeChecks

/-! ### ROOT_CHECK -/

theorem exec_rootCheck (s : State) : exec .rootCheck s =
    conclude
      [degenerateModulus s.kmod, ⟨badSize s.params.nMax s.op[1].toNat, .invalidSize⟩, notResidue s.kmod s.op[0]]
      (s.setRs0 (Word.ofBool (validRoot s.kmod.toNat s.op[1].toNat s.op[0].toNat))) s := rfl

/-- Settles O27: the three checks in their order, then the validator in R193's form. -/
theorem rootCheckRule : Obligations.RootCheckRule := by
  refine ⟨by decide, ?_⟩
  rintro s _ _ _ rfl rfl rfl
  rw [exec_rootCheck]
  refine ⟨fun hp hm hsize hroot => ?value, fun hm => ?modulus, fun hm hsize => ?size, fun hm hsize hroot => ?range⟩
  case value =>
    have hword : Word.ofBool (validRoot s.kmod.toNat s.op[1].toNat s.op[0].toNat) = _ :=
      if_congr (validRoot_legal_iff hp hm hsize) rfl rfl
    rw [hword]
    exact conclude_passed _ _ ((firstFailure_legalSize _ hm hsize).trans (firstFailure_root_pass _ hroot))
  case modulus => exact conclude_failed _ _ (firstFailure_degenerate _ hm)
  case size => exact conclude_failed _ _ (firstFailure_badSize _ hm hsize)
  case range =>
    exact conclude_failed _ _ ((firstFailure_legalSize _ hm hsize).trans (firstFailure_root_fail _ hroot))

/-! ### CTX_BUILD -/

theorem exec_ctxBuild (s : State) : exec .ctxBuild s =
    conclude
      [degenerateModulus s.kmod, ⟨badSize s.params.nMax s.op[1].toNat, .invalidSize⟩,
       ⟨decide ((s.kmod.toNat - 1) % (2 * s.op[1].toNat) ≠ 0), .invalidModulus⟩, notResidue s.kmod s.op[0],
       ⟨!validRoot s.kmod.toNat s.op[1].toNat s.op[0].toNat, .invalidRoot⟩]
      { s with tc := some (transformContext s.kmod s.op[1] s.op[0]) } { s with tc := none } := rfl

/-- A modulus that passes CTX_BUILD's congruence is odd, hence at least 3 (R190). -/
theorem three_le_of_congruent {m n : Nat} (hm : 2 ≤ m) (hcong : (m - 1) % (2 * n) = 0) : 3 ≤ m := by
  have heven : 2 ∣ m - 1 := (Nat.dvd_mul_right 2 n).trans (Nat.dvd_of_mod_eq_zero hcong)
  omega

/-- Settles O28: the five checks in their order, the last in R193's form, and the legality of what is built. -/
theorem ctxBuildRule : Obligations.CtxBuildRule := by
  refine ⟨by decide, ?_⟩
  rintro s _ _ _ rfl rfl rfl hp
  rw [exec_ctxBuild]
  refine ⟨fun hm hsize hcong hroot hhalf => ?built, fun hm => ?modulus, fun hm hsize => ?size,
    fun hm hsize hcong => ?congruence, fun hm hsize hcong hroot => ?range, fun hm hsize hcong hroot hhalf => ?root⟩
  case built =>
    have hvalid := (validRoot_legal_iff hp hm hsize).mpr ⟨three_le_of_congruent hm hcong, hhalf⟩
    refine ⟨transformContext s.kmod s.op[1] s.op[0], rfl, rfl, rfl,
      transformContext_legal hp hm hsize hcong hroot hvalid, conclude_passed _ _ ?_⟩
    rw [firstFailure_legalSize _ hm hsize, firstFailure_pass (by simpa using hcong), firstFailure_root_pass _ hroot,
      firstFailure_pass (by simp [hvalid]), firstFailure_nil]
  case modulus => exact conclude_failed _ _ (firstFailure_degenerate _ hm)
  case size => exact conclude_failed _ _ (firstFailure_badSize _ hm hsize)
  case congruence =>
    refine conclude_failed _ _ ?_
    rw [firstFailure_legalSize _ hm hsize, firstFailure_fail (decide_eq_true hcong)]
  case range =>
    refine conclude_failed _ _ ?_
    rw [firstFailure_legalSize _ hm hsize, firstFailure_pass (by simpa using hcong), firstFailure_root_fail _ hroot]
  case root =>
    have hinvalid : validRoot s.kmod.toNat s.op[1].toNat s.op[0].toNat = false :=
      Bool.eq_false_iff.mpr fun hvalid => hhalf ((validRoot_legal_iff hp hm hsize).mp hvalid).2
    refine conclude_failed _ _ ?_
    rw [firstFailure_legalSize _ hm hsize, firstFailure_pass (by simpa using hcong), firstFailure_root_pass _ hroot,
      firstFailure_fail (by simp [hinvalid])]

/-! ### BITREV twice -/

/-- Equal buffer words have equal bytes (R73). -/
theorem byteAt_eq_of_bufWord_eq {s t : State} {d : Buf} {len : Nat} (h : ∀ i < len, t.bufWord d i = s.bufWord d i)
    {a : Nat} (ha : inBuf d len a) : t.byteAt a = s.byteAt a := by
  obtain ⟨hlo, hhi⟩ := ha
  obtain ⟨i, k, hk, rfl⟩ : ∃ i k, k < 8 ∧ a = bufBase d + 8 * i + k :=
    ⟨(a - bufBase d) / 8, (a - bufBase d) % 8, by omega, by omega⟩
  have hword : t.wordAt (bufBase d + 8 * i) = s.wordAt (bufBase d + 8 * i) := h i (by omega)
  rw [← wordAt_lane t _ hk, ← wordAt_lane s _ hk, hword]

/-- What one run of BITREV over a legal length does: it reverses the words' indices, keeps every other byte, and keeps the
length and the parameters, so that the next run is over the same length (R199). -/
theorem bitrev_run {s t : State} {d : Buf} {b : Nat} (hlen : (s.bufLen d).toNat = 2 ^ b) (hmax : 2 ^ b ≤ s.params.nMax)
    (h : exec (.bitrev d) s = .next t) :
    t.bufLen d = s.bufLen d ∧ t.params = s.params ∧ (∀ a, ¬ inBuf d (2 ^ b) a → t.byteAt a = s.byteAt a) ∧
      ∀ i < 2 ^ b, t.bufWord d (bitrev b i) = s.bufWord d i := by
  obtain ⟨x, hx, ⟨hstate, hbytes⟩, hwords⟩ := (bitrevRule.2.2 s d (2 ^ b) hlen).1 b rfl hmax
  obtain rfl : x = t := by simpa [hx] using h
  refine ⟨?_, ?_, hbytes, hwords⟩
  · rw [hstate]
    cases d <;> rfl
  · rw [hstate]
    cases d <;> rfl

/-- The reversal is its own inverse, so two runs give every word back (R198). -/
theorem bufWord_bitrev_twice {s t u : State} {d : Buf} {b : Nat}
    (hst : ∀ i < 2 ^ b, t.bufWord d (bitrev b i) = s.bufWord d i)
    (htu : ∀ i < 2 ^ b, u.bufWord d (bitrev b i) = t.bufWord d i) {i : Nat} (hi : i < 2 ^ b) :
    u.bufWord d i = s.bufWord d i :=
  calc u.bufWord d i = u.bufWord d (bitrev b (bitrev b i)) := by rw [bitrev_bitrev b i hi]
    _ = t.bufWord d (bitrev b i) := htu _ (bitrev_lt b i)
    _ = s.bufWord d i := hst i hi

/-- With an illegal length BITREV writes no byte, and the length stays illegal (R199, R321). -/
theorem bitrev_run_illegal {s t : State} {d : Buf} (hsize : ¬ legalSize s.params (s.bufLen d).toNat)
    (h : exec (.bitrev d) s = .next t) : t = ended s .invalidSize :=
  (Host.Outcome.next.inj ((exec_bitrev_illegal hsize).symm.trans h)).symm

/-- Settles O31: over a legal length every word comes back and no other byte is written; else no byte is. -/
theorem bitrevTwiceRestores : Obligations.BitrevTwiceRestores := by
  intro s t u d hst htu a
  by_cases hsize : legalSize s.params (s.bufLen d).toNat
  case pos =>
    obtain ⟨⟨b, hlen⟩, hmax⟩ := hsize
    rw [hlen] at hmax
    obtain ⟨htlen, htparams, htbytes, htwords⟩ := bitrev_run hlen hmax hst
    obtain ⟨-, -, hubytes, huwords⟩ := bitrev_run (htlen ▸ hlen) (htparams ▸ hmax) htu
    by_cases ha : inBuf d (2 ^ b) a
    · exact byteAt_eq_of_bufWord_eq (fun i hi => bufWord_bitrev_twice htwords huwords hi) ha
    · rw [hubytes a ha, htbytes a ha]
  case neg =>
    obtain rfl := bitrev_run_illegal hsize hst
    have hsize' : ¬ legalSize (ended s .invalidSize).params ((ended s .invalidSize).bufLen d).toNat := by
      cases d <;> exact hsize
    rw [bitrev_run_illegal hsize' htu, byteAt_ended, byteAt_ended]

end Sys2Proof.Proofs
end

section
/-! PROOFS. 43_butterfly_ntt.md: the butterflies (R230, R231, R235, R236), the checks common to the transforms (R232),
the radix-4 network as the radix-2 one (R239), and the transforms' closed form and round trip (R240, R241). Residues are
compared in ZMod m, for every m: a composite modulus makes it no field. -/

namespace Sys2Proof.Proofs

open Sys2Proof.Machine Sys2Proof.Safety Sys2Proof.Laws

/-! ### The arithmetic functions modulo m -/

@[simp] theorem cast_addmod (a b m : Nat) : (addmod a b m : ZMod m) = a + b := by
  rw [addmod, ZMod.natCast_mod, Nat.cast_add]

@[simp] theorem cast_mulmod (a b m : Nat) : (mulmod a b m : ZMod m) = a * b := by
  rw [mulmod, ZMod.natCast_mod, Nat.cast_mul]

theorem cast_submod {m : Nat} (hm : 0 < m) (a b : Nat) : (submod a b m : ZMod m) = a - b := by
  have hcast := congrArg (Int.cast : Int → ZMod m) (submod_cast hm a b)
  rwa [ZMod.intCast_mod, Int.cast_natCast, Int.cast_sub, Int.cast_natCast, Int.cast_natCast] at hcast

/-- A residue is the reduction of every number that is the same modulo m. -/
theorem eq_mod_of_cast {m x y : Nat} (hx : x < m) (h : (x : ZMod m) = y) : x = y % m := by
  rw [← Nat.mod_eq_of_lt hx]
  exact (ZMod.natCast_eq_natCast_iff' x y m).mp h

/-- A residue is the reduction of every integer that is the same modulo m. -/
theorem eq_emod_of_cast {m x : Nat} {z : Int} (hx : x < m) (h : (x : ZMod m) = z) : (x : Int) = z % m := by
  have hmod : (x : Int) % m = z % m := (ZMod.intCast_eq_intCast_iff' x z m).mp (by rwa [Int.cast_natCast])
  rwa [Int.emod_eq_of_lt (by omega) (by omega)] at hmod

/-! ### BFLY2 and BFLY4 -/

section Butterflies

variable {s : State} {xs : List Word}

/-- A butterfly whose checks pass ends in its results (R231, R236). -/
theorem residueChecks_completes (hm : 2 ≤ s.kmod.toNat) (hxs : ∀ x ∈ xs, x.toNat < s.kmod.toNat) (done : State) :
    conclude (s.residueChecks xs) done s = .next (ended done .ok) :=
  conclude_passed _ _ (List.append_nil (s.residueChecks xs) ▸ firstFailure_residueChecks_pass hm hxs [])

theorem residueChecks_degenerate (hm : s.kmod.toNat < 2) (xs : List Word) (done : State) :
    conclude (s.residueChecks xs) done s = .next (ended s .invalidModulus) :=
  conclude_failed _ _ (List.append_nil (s.residueChecks xs) ▸ firstFailure_residueChecks_degenerate hm xs [])

theorem residueChecks_range (hm : 2 ≤ s.kmod.toNat) (hxs : ∃ x ∈ xs, s.kmod.toNat ≤ x.toNat) (done : State) :
    conclude (s.residueChecks xs) done s = .next (ended s .operandRange) :=
  conclude_failed _ _ (List.append_nil (s.residueChecks xs) ▸ firstFailure_residueChecks_range hm hxs [])

end Butterflies

theorem exec_bfly2 (s : State) : exec .bfly2 s =
    let r := bf2 s.op[0].toNat s.op[1].toNat s.op[2].toNat s.kmod.toNat
    conclude (s.residueChecks [s.op[0], s.op[1], s.op[2]]) (s.setRs01 (Word.ofNat r.1) (Word.ofNat r.2)) s := rfl

theorem exec_bfly4 (s : State) : exec .bfly4 s =
    let r := bf4 s.op[0].toNat s.op[1].toNat s.op[2].toNat s.op[3].toNat s.op[4].toNat s.op[5].toNat s.op[6].toNat
      s.op[7].toNat s.kmod.toNat
    conclude (s.residueChecks s.op.toList)
      (s.setRsAll (Word.ofNat r.1) (Word.ofNat r.2.1) (Word.ofNat r.2.2.1) (Word.ofNat r.2.2.2)) s := rfl

/-- A residue of KMOD, stored as a word, is the integer that it is congruent to, reduced to [0, KMOD). -/
theorem toNat_ofNat_eq_emod {m : Word} {x : Nat} {z : Int} (hx : x < m.toNat) (h : (x : ZMod m.toNat) = z) :
    ((Word.ofNat x).toNat : Int) = z % m.toNat := by
  rw [toNat_ofNat_of_lt (hx.trans m.isLt), eq_emod_of_cast hx h]

/-- Settles O32: the common checks, then BF2 (R230) read modulo m. -/
theorem bfly2Rule : Obligations.Bfly2Rule := by
  refine ⟨by decide, ?_⟩
  rintro s _ _ _ _ rfl rfl rfl rfl
  rw [exec_bfly2]
  refine ⟨fun hm hu hv hw => ?values, fun hm => residueChecks_degenerate hm _ _,
    fun hm hout => residueChecks_range hm (by simpa using hout) _⟩
  case values =>
    have hpos : 0 < s.kmod.toNat := by omega
    refine ⟨_, _, ?sum, toNat_ofNat_eq_emod (submod_lt hpos _ _) ?difference,
      residueChecks_completes hm (by simp [hu, hv, hw]) _⟩
    case sum =>
      exact (toNat_ofNat_of_lt ((addmod_lt hpos _ _).trans s.kmod.isLt)).trans
        (eq_mod_of_cast (addmod_lt hpos _ _) (by simp))
    case difference => simp [cast_submod hpos]

/-- Settles O33: the common checks, then BF4 (R235) read modulo m. -/
theorem bfly4Rule : Obligations.Bfly4Rule := by
  refine ⟨by decide, ?_⟩
  rintro s _ _ _ _ _ _ rfl rfl rfl rfl rfl rfl
  rw [exec_bfly4]
  refine ⟨fun hm hops => ?values, fun hm => residueChecks_degenerate hm _ _,
    fun hm hout => residueChecks_range hm hout _⟩
  case values =>
    have hpos : 0 < s.kmod.toNat := by omega
    refine ⟨_, _, _, _, toNat_ofNat_eq_emod (addmod_lt hpos _ _) ?first,
      toNat_ofNat_eq_emod (addmod_lt hpos _ _) ?second, toNat_ofNat_eq_emod (submod_lt hpos _ _) ?third,
      toNat_ofNat_eq_emod (submod_lt hpos _ _) ?fourth, residueChecks_completes hm hops _⟩
    all_goals simp [cast_submod hpos]

/-! ### The checks of the transforms -/

/-- The complete step of each transform is the shared one, with its radix and the tag it needs (R232). -/
theorem exec_eq_transform {d : Buf} {i : Instr} {radix4 : Bool} {needs : Domain}
    (h : (i, radix4, needs) ∈
      [(Instr.nttFwd2 d, false, Domain.coefficient), (Instr.nttInv2 d, false, Domain.evaluation),
        (Instr.nttFwd4 d, true, Domain.coefficient), (Instr.nttInv4 d, true, Domain.evaluation)]) (s : State) :
    ∃ gives network, exec i s = s.transform d radix4 needs gives network := by
  simp only [List.mem_cons, Prod.mk.injEq, List.not_mem_nil, or_false] at h
  obtain ⟨rfl, rfl, rfl⟩ | ⟨rfl, rfl, rfl⟩ | ⟨rfl, rfl, rfl⟩ | ⟨rfl, rfl, rfl⟩ := h
  · exact ⟨_, forward2, rfl⟩
  · exact ⟨_, inverse2, rfl⟩
  · exact ⟨_, forward4, rfl⟩
  · exact ⟨_, inverse4, rfl⟩

section TransformChecks

variable {s : State} {c : TransformContext} {d : Buf} {radix4 : Bool} {needs : Domain}

theorem transform_noContext (gives : Domain) (network : TransformContext → List Nat → List Nat) (h : s.tc = none) :
    s.transform d radix4 needs gives network = .next (ended s .noContext) := by
  rw [State.transform, h]
  rfl

/-- With a context, a transform raises what its checks report, and nothing else changes (R232). -/
theorem transform_raises (gives : Domain) (network : TransformContext → List Nat → List Nat) {e : Code}
    (hc : s.tc = some c) (h : firstFailure (transformChecks s c d radix4 needs) = some e) :
    s.transform d radix4 needs gives network = .next (ended s e) := by
  rw [State.transform, hc]
  exact conclude_failed _ _ h

theorem transformChecks_radix (h : radix4 = true ∧ Nat.log2 c.tcN.toNat % 2 = 1) :
    firstFailure (transformChecks s c d radix4 needs) = some .invalidSize :=
  firstFailure_fail (by simp [h])

/-- The length check raises the code of the radix check before it, so their order does not show. -/
theorem transformChecks_length (h : s.bufLen d ≠ c.tcN) :
    firstFailure (transformChecks s c d radix4 needs) = some .invalidSize := by
  cases hr : radix4 && decide (Nat.log2 c.tcN.toNat % 2 = 1) with
  | true => exact firstFailure_fail hr
  | false => exact (firstFailure_pass hr).trans (firstFailure_fail (decide_eq_true h))

/-- With the two size checks passed, the tag and the words decide. -/
theorem transformChecks_sized (hr : ¬ (radix4 = true ∧ Nat.log2 c.tcN.toNat % 2 = 1)) (hlen : s.bufLen d = c.tcN) :
    firstFailure (transformChecks s c d radix4 needs) =
      firstFailure [⟨decide (s.bufDom d ≠ needs), .domainMismatch⟩,
        ⟨(s.bufNats d c.tcN.toNat).any fun x => decide (c.tcM.toNat ≤ x), .operandRange⟩] :=
  (firstFailure_pass (by simpa using hr)).trans (firstFailure_pass (by simp [hlen]))

end TransformChecks

/-- Settles O35: each clause is the first failing check. -/
theorem transformChecksInOrder : Obligations.TransformChecksInOrder := by
  intro s d i radix4 needs hi
  obtain ⟨gives, network, hexec⟩ := exec_eq_transform hi s
  rw [hexec]
  refine ⟨transform_noContext gives network, ?_⟩
  rintro c _ hc rfl
  refine ⟨fun hr => ?radix, fun hlen => ?length, fun hr hlen hdom => ?tag, fun hr hlen hdom hout => ?range⟩ <;>
    refine transform_raises gives network hc ?_
  case radix => exact transformChecks_radix hr
  case length => exact transformChecks_length hlen
  case tag => exact (transformChecks_sized hr hlen).trans (firstFailure_fail (decide_eq_true hdom))
  case range =>
    rw [transformChecks_sized hr hlen, firstFailure_pass (by simp [hdom]), firstFailure_fail (by simpa using hout)]

/-! ### One radix-4 stage is two radix-2 stages -/

theorem eq_of_cast {m x y : Nat} (hx : x < m) (hy : y < m) (h : (x : ZMod m) = y) : x = y :=
  (eq_mod_of_cast hx h).trans (Nat.mod_eq_of_lt hy)

/-- BF4 is a butterfly on each of (a0, a1) and (a2, a3), then one on the sums and one on the differences, whose twiddle
has the factor J (R235). -/
theorem bf4_eq_bf2 {m : Nat} (hm : 0 < m) {w1 w2 w3 j wj : Nat} (h3 : (w3 : ZMod m) = w1 * w2)
    (hj : (wj : ZMod m) = w1 * j) (a0 a1 a2 a3 : Nat) :
    bf4 a0 a1 a2 a3 w1 w2 w3 j m =
      let p := bf2 a0 a1 w2 m
      let r := bf2 a2 a3 w2 m
      ((bf2 p.1 r.1 w1 m).1, (bf2 p.2 r.2 wj m).1, (bf2 p.1 r.1 w1 m).2, (bf2 p.2 r.2 wj m).2) := by
  refine Prod.ext (eq_of_cast (addmod_lt hm _ _) (addmod_lt hm _ _) ?_)
    (Prod.ext (eq_of_cast (addmod_lt hm _ _) (addmod_lt hm _ _) ?_)
      (Prod.ext (eq_of_cast (submod_lt hm _ _) (submod_lt hm _ _) ?_)
        (eq_of_cast (submod_lt hm _ _) (submod_lt hm _ _) ?_)))
  all_goals
    simp only [bf2, bf4, cast_addmod, cast_mulmod, cast_submod hm, h3, hj]
    ring

/-- The quadruples' loop is the pairs' loop on (a0, a1) and (a2, a3), then on the sums and on the differences. The
relations between the running twiddles are kept as they advance (R197). -/
theorem radix4Quads_eq_radix2Pairs {m : Nat} (hm : 0 < m) {c1 c2 c3 j : Nat} (hc : (c3 : ZMod m) = c1 * c2)
    {w1 w2 w3 wj : Nat} (h3 : (w3 : ZMod m) = w1 * w2) (hj : (wj : ZMod m) = w1 * j) (a0 a1 a2 a3 : List Nat) :
    radix4Quads m c1 c2 c3 j w1 w2 w3 a0 a1 a2 a3 =
      let p := radix2Pairs m c2 w2 a0 a1
      let r := radix2Pairs m c2 w2 a2 a3
      let sums := radix2Pairs m c1 w1 p.1 r.1
      let diffs := radix2Pairs m c1 wj p.2 r.2
      (sums.1, diffs.1, sums.2, diffs.2) := by
  induction a0 generalizing w1 w2 w3 wj a1 a2 a3 with
  | nil => simp [radix4Quads, radix2Pairs]
  | cons x0 a0 ih =>
    cases a1 with
    | nil => simp [radix4Quads, radix2Pairs]
    | cons x1 a1 =>
      cases a2 with
      | nil => simp [radix4Quads, radix2Pairs]
      | cons x2 a2 =>
        cases a3 with
        | nil => simp [radix4Quads, radix2Pairs]
        | cons x3 a3 =>
          have hnext3 : (mulmod w3 c3 m : ZMod m) = mulmod w1 c1 m * mulmod w2 c2 m := by
            simp only [cast_mulmod, h3, hc]
            ring
          have hnextj : (mulmod wj c1 m : ZMod m) = mulmod w1 c1 m * j := by
            simp only [cast_mulmod, hj]
            ring
          simp only [radix4Quads, radix2Pairs, bf4_eq_bf2 hm h3 hj, ih hnext3 hnextj]

/-- The pairs' loop over two parts: the second part begins with the twiddle that the first has advanced (R197). -/
theorem radix2Pairs_append (m c w : Nat) {us vs : List Nat} (hlen : us.length = vs.length) (us' vs' : List Nat) :
    ∃ wj : Nat, (wj : ZMod m) = w * c ^ us.length ∧
      radix2Pairs m c w (us ++ us') (vs ++ vs') =
        ((radix2Pairs m c w us vs).1 ++ (radix2Pairs m c wj us' vs').1,
          (radix2Pairs m c w us vs).2 ++ (radix2Pairs m c wj us' vs').2) := by
  induction us generalizing w vs with
  | nil =>
    obtain rfl : vs = [] := List.eq_nil_of_length_eq_zero hlen.symm
    exact ⟨w, by simp, by simp [radix2Pairs]⟩
  | cons u us ih =>
    cases vs with
    | nil => simp at hlen
    | cons v vs =>
      obtain ⟨wj, hwj, hpairs⟩ := ih (mulmod w c m) (Nat.succ_injective hlen)
      refine ⟨wj, ?_, by simp only [List.cons_append, radix2Pairs, hpairs]⟩
      rw [hwj, cast_mulmod, List.length_cons]
      ring

theorem radix2Block_append {m h c : Nat} {us : List Nat} (hus : us.length = h) (vs : List Nat) :
    radix2Block m h c (us ++ vs) = (radix2Pairs m c 1 us vs).1 ++ (radix2Pairs m c 1 us vs).2 := by
  subst hus
  simp only [radix2Block, List.take_left', List.drop_left']

theorem mapBlocks_append {f : List Nat → List Nat} {len : Nat} {x : List Nat} (hx : x.length = len) (k : Nat)
    (rest : List Nat) : mapBlocks f len (k + 1) (x ++ rest) = f x ++ mapBlocks f len k rest := by
  subst hx
  simp only [mapBlocks, List.take_left', List.drop_left']

theorem mapBlocks_two {f : List Nat → List Nat} {len : Nat} {x y : List Nat} (hx : x.length = len)
    (hy : y.length = len) : mapBlocks f len 2 (x ++ y) = f x ++ f y := by
  rw [mapBlocks_append hx, ← List.append_nil y, mapBlocks_append hy]
  simp only [mapBlocks, List.append_nil]

theorem exists_append_of_le_length {len : Nat} {a : List Nat} (h : len ≤ a.length) :
    ∃ x rest, a = x ++ rest ∧ x.length = len ∧ rest.length = a.length - len :=
  ⟨a.take len, a.drop len, (List.take_append_drop len a).symm, List.length_take_of_le h, List.length_drop⟩

theorem radix2Pairs_lengths (m c w : Nat) {us vs : List Nat} {h : Nat} (hus : us.length = h) (hvs : vs.length = h) :
    (radix2Pairs m c w us vs).1.length = h ∧ (radix2Pairs m c w us vs).2.length = h := by
  simpa [hus, hvs] using radix2Pairs_length m c w us vs

/-- A block of a radix-4 stage as its four quarters (R237). -/
theorem radix4Block_append (m j : Nat) (w : Word × Word × Word) {q : Nat} {a0 a1 a2 : List Nat} (h0 : a0.length = q)
    (h1 : a1.length = q) (h2 : a2.length = q) (a3 : List Nat) :
    radix4Block m q j w (a0 ++ a1 ++ (a2 ++ a3)) =
      let r := radix4Quads m w.1.toNat w.2.1.toNat w.2.2.toNat j 1 1 1 a0 a1 a2 a3
      r.1 ++ r.2.1 ++ r.2.2.1 ++ r.2.2.2 := by
  have hzero : (a0 ++ a1 ++ (a2 ++ a3)).take q = a0 := by rw [List.append_assoc, List.take_left' h0]
  have hone : (a0 ++ a1 ++ (a2 ++ a3)).drop q = a1 ++ (a2 ++ a3) := by rw [List.append_assoc, List.drop_left' h0]
  have htwo : (a0 ++ a1 ++ (a2 ++ a3)).drop (2 * q) = a2 ++ a3 :=
    List.drop_left' (by rw [List.length_append]; omega)
  have hthree : (a0 ++ a1 ++ (a2 ++ a3)).drop (3 * q) = a3 := by
    rw [← List.append_assoc]
    exact List.drop_left' (by simp only [List.length_append]; omega)
  simp only [radix4Block, hzero, hone, htwo, hthree, List.take_left' h1, List.take_left' h2]

/-- A block of a radix-4 stage is two blocks of the one radix-2 stage, then one block of the next (R235). -/
theorem radix4Block_eq_radix2Block {m : Nat} (hm : 0 < m) {q j : Nat} {w : Word × Word × Word}
    (hcube : (w.2.2.toNat : ZMod m) = w.1.toNat * w.2.1.toNat) (hj : (j : ZMod m) = w.1.toNat ^ q) {a : List Nat}
    (ha : a.length = 2 * (2 * q)) :
    radix4Block m q j w a =
      radix2Block m (2 * q) w.1.toNat (mapBlocks (radix2Block m q w.2.1.toNat) (2 * q) 2 a) := by
  obtain ⟨x, y, rfl, hx, hy⟩ := exists_append_of_le_length (a := a) (len := 2 * q) (by omega)
  obtain ⟨a0, a1, rfl, h0, h1⟩ := exists_append_of_le_length (a := x) (len := q) (by omega)
  obtain ⟨a2, a3, rfl, h2, h3⟩ := exists_append_of_le_length (a := y) (len := q) (by omega)
  replace h1 : a1.length = q := by omega
  replace h3 : a3.length = q := by omega
  obtain ⟨hlow, hlow'⟩ := radix2Pairs_lengths m w.2.1.toNat 1 h0 h1
  obtain ⟨hhigh, -⟩ := radix2Pairs_lengths m w.2.1.toNat 1 h2 h3
  obtain ⟨wj, hwj, hpairs⟩ := radix2Pairs_append m w.1.toNat 1 (hlow.trans hhigh.symm)
    (radix2Pairs m w.2.1.toNat 1 a0 a1).2 (radix2Pairs m w.2.1.toNat 1 a2 a3).2
  have hrunning : (wj : ZMod m) = (1 : Nat) * j := by rw [hwj, hlow, hj]
  rw [radix4Block_append m j w h0 h1 h2 a3, radix4Quads_eq_radix2Pairs hm hcube (by simp) hrunning,
    mapBlocks_two hx (by omega), radix2Block_append h0, radix2Block_append h2,
    radix2Block_append (by rw [List.length_append]; omega), hpairs]
  simp only [List.append_assoc]

theorem mapBlocks_congr {f g : List Nat → List Nat} {len : Nat} (h : ∀ x, x.length = len → f x = g x) (k : Nat)
    {a : List Nat} (ha : k * len ≤ a.length) : mapBlocks f len k a = mapBlocks g len k a := by
  induction k generalizing a with
  | zero => rfl
  | succ k ih =>
    rw [Nat.succ_mul] at ha
    obtain ⟨x, rest, rfl, hx, hrest⟩ := exists_append_of_le_length (a := a) (len := len) (by omega)
    rw [mapBlocks_append hx, mapBlocks_append hx, h x hx, ih (by omega)]

/-- Blocks of one length, then blocks of twice that length: each block of the second pass covers two of the first. -/
theorem mapBlocks_mapBlocks {f g : List Nat → List Nat} {len : Nat} (hg : ∀ x, x.length = len → (g x).length = len)
    (k : Nat) {a : List Nat} (ha : k * (2 * len) ≤ a.length) :
    mapBlocks f (2 * len) k (mapBlocks g len (2 * k) a) =
      mapBlocks (fun x => f (mapBlocks g len 2 x)) (2 * len) k a := by
  induction k generalizing a with
  | zero => rfl
  | succ k ih =>
    rw [Nat.succ_mul] at ha
    obtain ⟨x, r, rfl, hx, hr⟩ := exists_append_of_le_length (a := a) (len := len) (by omega)
    obtain ⟨y, rest, rfl, hy, hrest⟩ := exists_append_of_le_length (a := r) (len := len) (by omega)
    rw [Nat.mul_succ, mapBlocks_append hx, mapBlocks_append hy, ← List.append_assoc, ← List.append_assoc,
      mapBlocks_append (by rw [List.length_append, hg x hx, hg y hy]; omega),
      mapBlocks_append (by rw [List.length_append, hx, hy]; omega), ih (by omega),
      mapBlocks_two hx hy]

/-- Radix-4 stage t + 1 is radix-2 stages 2t + 1 and 2t + 2, on whole blocks (R235, R239). -/
theorem radix4Stage_eq_radix2Stage {m : Nat} (hm : 0 < m) {t j : Nat} {w : Word × Word × Word}
    (h3 : (w.2.2.toNat : ZMod m) = w.1.toNat * w.2.1.toNat) (hj : (j : ZMod m) = w.1.toNat ^ 2 ^ (2 * t)) {a : List Nat}
    (ha : 2 ^ (2 * t + 2) ∣ a.length) :
    radix4Stage m j w t a =
      radix2Stage m w.1.toNat (2 * t + 1) (radix2Stage m w.2.1.toNat (2 * t) a) := by
  obtain ⟨k, hk⟩ := ha
  have hq : 4 ^ t = 2 ^ (2 * t) := by rw [Nat.pow_mul]
  have hL : 4 ^ (t + 1) = 2 * (2 * 2 ^ (2 * t)) := by rw [Nat.pow_succ, hq]; omega
  have hL1 : 2 ^ (2 * t + 1) = 2 * 2 ^ (2 * t) := Nat.pow_succ'
  have hL2 : 2 ^ (2 * t + 1 + 1) = 2 * (2 * 2 ^ (2 * t)) := by rw [Nat.pow_succ', hL1]
  have hpos : 0 < 2 ^ (2 * t) := Nat.two_pow_pos _
  have hlen : a.length = k * (2 * (2 * 2 ^ (2 * t))) := by rw [hk, hL2, Nat.mul_comm]
  have houter : a.length / (2 * (2 * 2 ^ (2 * t))) = k := by rw [hlen, Nat.mul_div_cancel _ (by omega)]
  have hinner : a.length / (2 * 2 ^ (2 * t)) = 2 * k := by
    rw [hlen, ← Nat.mul_assoc, Nat.mul_div_cancel _ (by omega), Nat.mul_comm]
  have hkeeps (x : List Nat) (hx : x.length = 2 * 2 ^ (2 * t)) :
      (radix2Block m (2 ^ (2 * t)) w.2.1.toNat x).length = 2 * 2 ^ (2 * t) := by
    rw [radix2Block_length _ _ _ _ hx, hx]
  rw [radix2Stage, radix2Stage_length, radix4Stage, radix2Stage, hq, hL, hL2, hL1, houter, hinner,
    mapBlocks_mapBlocks hkeeps k hlen.ge]
  exact mapBlocks_congr (fun x hx => radix4Block_eq_radix2Block hm h3 hj hx) k hlen.ge

/-! ### The radix-4 network is the radix-2 network -/

/-- The first k radix-2 stages (R233). -/
def radix2Stages (m : Nat) (tw : List Word) (k : Nat) (a : List Nat) : List Nat :=
  (List.range k).foldl (fun x s => radix2Stage m (tw.getD s 0).toNat s x) a

/-- The first k radix-4 stages (R237). -/
def radix4Stages (m : Nat) (tw : List (Word × Word × Word)) (j k : Nat) (a : List Nat) : List Nat :=
  (List.range k).foldl (fun x t => radix4Stage m j (tw.getD t (0, 0, 0)) t x) a

theorem radix2Network_eq (m b : Nat) (tw : List Word) (a : List Nat) :
    radix2Network m b tw a = radix2Stages m tw b (brperm b a) := rfl

theorem radix4Network_eq (m b : Nat) (tw : List (Word × Word × Word)) (j : Nat) (a : List Nat) :
    radix4Network m b tw j a = radix4Stages m tw j (b / 2) (brperm b a) := rfl

theorem radix2Stages_succ (m : Nat) (tw : List Word) (k : Nat) (a : List Nat) :
    radix2Stages m tw (k + 1) a = radix2Stage m (tw.getD k 0).toNat k (radix2Stages m tw k a) := by
  simp only [radix2Stages, List.range_succ, List.foldl_append, List.foldl_cons, List.foldl_nil]

theorem radix4Stages_succ (m : Nat) (tw : List (Word × Word × Word)) (j k : Nat) (a : List Nat) :
    radix4Stages m tw j (k + 1) a = radix4Stage m j (tw.getD k (0, 0, 0)) k (radix4Stages m tw j k a) := by
  simp only [radix4Stages, List.range_succ, List.foldl_append, List.foldl_cons, List.foldl_nil]

@[simp] theorem radix2Stages_length (m : Nat) (tw : List Word) (k : Nat) (a : List Nat) :
    (radix2Stages m tw k a).length = a.length := by
  induction k with
  | zero => rfl
  | succ k ih => rw [radix2Stages_succ, radix2Stage_length, ih]

section StageTwiddles

variable {m n b : Nat} (w : Nat) (hn : n = 2 ^ b) (hn64 : n < 2 ^ 64) (hm : 0 < m) (hm64 : m < 2 ^ 64)

include hn hn64 hm hm64

/-- The scalar of stage s + 1 is the power 2^(b - (s + 1)) of w modulo m (R196). -/
theorem cast_stageScalar {s : Nat} (hs : s < b) :
    (((stageScalars m n w).getD s 0).toNat : ZMod m) = (w : ZMod m) ^ 2 ^ (b - (s + 1)) := by
  have hget := stageScalars_getD_toNat (w := w) hn hn64 hm hm64 (Nat.le_add_left 1 s) hs
  rw [Nat.add_sub_cancel] at hget
  rw [hget, ZMod.natCast_mod, Nat.cast_pow, hn, Nat.pow_div hs (by decide)]

/-- R239 for one list of scalars and the triples made of them: by induction on the radix-4 stages. -/
theorem radix4Stages_eq_radix2Stages (heven : b % 2 = 0) {a : List Nat} (ha : a.length = 2 ^ b) {t : Nat}
    (ht : t ≤ b / 2) :
    radix4Stages m (stageTriples m n w) (rootOrZero (fourthRoot m n w)) t a =
      radix2Stages m (stageScalars m n w) (2 * t) a := by
  induction t with
  | zero => rfl
  | succ t ih =>
    have hb : 2 * t + 2 ≤ b := by omega
    have htriple := stageTriples_getD (w := w) hn hn64 hm hm64 heven (Nat.le_add_left 1 t) ht
    have hfirst : 2 * (t + 1) - 1 = 2 * t + 1 := by omega
    have hsecond : 2 * (t + 1) - 2 = 2 * t := by omega
    rw [Nat.add_sub_cancel, hfirst, hsecond] at htriple
    have hJ : rootOrZero (fourthRoot m n w) = ((stageScalars m n w).getD 1 0).toNat := by
      rw [fourthRoot_eq hn hn64 (by omega)]
      rfl
    have hscalar {s : Nat} (hs : s < b) := cast_stageScalar w hn hn64 hm hm64 hs
    have hwords : 2 * (t + 1) = 2 * t + 1 + 1 := by omega
    rw [radix4Stages_succ, ih (by omega), hwords, radix2Stages_succ, radix2Stages_succ, htriple,
      radix4Stage_eq_radix2Stage hm ?cube ?fourth ?length]
    case cube =>
      have hsquare : 2 ^ (b - (2 * t + 1)) = 2 * 2 ^ (b - (2 * t + 1 + 1)) := by rw [← Nat.pow_succ']; congr 1; omega
      dsimp only
      rw [toNat_ofNat_of_lt ((Nat.mod_lt _ hm).trans hm64), ZMod.natCast_mod, Nat.cast_pow, hscalar (by omega),
        hscalar (by omega), hsquare]
      ring
    case fourth =>
      have hpow : 2 ^ (b - (1 + 1)) = 2 ^ (b - (2 * t + 1 + 1)) * 2 ^ (2 * t) := by rw [← Nat.pow_add]; congr 1; omega
      rw [hJ, hscalar (by omega), hscalar (by omega), hpow, pow_mul]
    case length =>
      rw [radix2Stages_length, ha]
      exact pow_dvd_pow 2 hb

theorem radix4Network_eq_radix2Network (heven : b % 2 = 0) {a : List Nat} (ha : a.length = 2 ^ b) :
    radix4Network m b (stageTriples m n w) (rootOrZero (fourthRoot m n w)) a =
      radix2Network m b (stageScalars m n w) a := by
  have hb : 2 * (b / 2) = b := by omega
  rw [radix4Network_eq, radix2Network_eq, radix4Stages_eq_radix2Stages w hn hn64 hm hm64 heven (by simpa using ha)
    (Nat.le_refl _), hb]

end StageTwiddles

section LegalContext

variable {p : Params} {c : TransformContext} (hp : p.wellFormed = true) (hc : TransformLegal p c)

include hp hc

/-- What the numbers of a legal context fit in (R7, R190). -/
theorem transformLegal_bounds : 0 < c.tcM.toNat ∧ 2 * c.tcN.toNat < 2 ^ 64 := by
  have := hc.three_le
  have := hc.size.2
  have := (wellFormed_bounds hp).2
  omega

/-- R239 for the forward network. -/
theorem forward4_eq_forward2 (heven : Nat.log2 c.tcN.toNat % 2 = 0) {a : List Nat} (ha : a.length = c.tcN.toNat) :
    forward4 c a = forward2 c a := by
  obtain ⟨hm, hn64⟩ := transformLegal_bounds hp hc
  obtain ⟨b, hn⟩ := hc.size.1
  rw [hn, Nat.log2_two_pow] at heven
  rw [forward4, forward2, hc.table, hn, Nat.log2_two_pow]
  exact radix4Network_eq_radix2Network _ rfl (by omega) hm c.tcM.isLt heven (ha.trans hn)

/-- R239 for the inverse network; the scaling is the same. -/
theorem inverse4_eq_inverse2 (heven : Nat.log2 c.tcN.toNat % 2 = 0) {a : List Nat} (ha : a.length = c.tcN.toNat) :
    inverse4 c a = inverse2 c a := by
  obtain ⟨hm, hn64⟩ := transformLegal_bounds hp hc
  obtain ⟨b, hn⟩ := hc.size.1
  rw [hn, Nat.log2_two_pow] at heven
  rw [inverse4, inverse2, hc.table, hn, Nat.log2_two_pow]
  exact congrArg _ (radix4Network_eq_radix2Network _ rfl (by omega) hm c.tcM.isLt heven (ha.trans hn))

end LegalContext

/-- Where log2 n is even the radix-4 check passes, so a transform's radix shows in its network alone (R232). -/
theorem transform_radix4_eq_radix2 {s : State} {d : Buf} {network4 network2 : TransformContext → List Nat → List Nat}
    (needs gives : Domain) (heven : ∀ c, s.tc = some c → Nat.log2 c.tcN.toNat % 2 = 0)
    (hnet : ∀ c, s.tc = some c → network4 c (s.bufNats d c.tcN.toNat) = network2 c (s.bufNats d c.tcN.toNat)) :
    s.transform d true needs gives network4 = s.transform d false needs gives network2 := by
  cases hc : s.tc with
  | none => rw [transform_noContext gives network4 hc, transform_noContext gives network2 hc]
  | some c =>
    have hchecks : transformChecks s c d true needs = transformChecks s c d false needs := by
      simp [transformChecks, heven c hc]
    simp only [State.transform, hc, hchecks, hnet c hc]

/-- Settles O36: each radix-4 stage is two radix-2 stages, so the networks and hence the commands agree. -/
theorem radix4EqualsRadix2 : Obligations.Radix4EqualsRadix2 := by
  intro s d hs heven
  obtain ⟨hp, hlegal, -⟩ := hs
  exact ⟨transform_radix4_eq_radix2 _ _ heven fun c hc =>
      forward4_eq_forward2 hp (hlegal c hc) (heven c hc) (bufNats_length s d _),
    transform_radix4_eq_radix2 _ _ heven fun c hc =>
      inverse4_eq_inverse2 hp (hlegal c hc) (heven c hc) (bufNats_length s d _)⟩

/-! ### The transform of a sequence in bit-reversed order -/

theorem sum_range_two_mul {R : Type} [AddCommMonoid R] (f : Nat → R) (n : Nat) :
    ∑ j ∈ Finset.range (2 * n), f j = ∑ j ∈ Finset.range n, f (2 * j) + ∑ j ∈ Finset.range n, f (2 * j + 1) := by
  induction n with
  | zero => simp
  | succ n ih =>
    rw [Nat.mul_succ, Finset.sum_range_succ, Finset.sum_range_succ, ih, Finset.sum_range_succ, Finset.sum_range_succ]
    abel

section Dft

variable {R : Type} [CommRing R]

/-- Coefficient k of the transform of 2^s numbers that stand in bit-reversed order, with the root w: what a block holds
after s stages. -/
def bitrevDft (y : Nat → R) (w : R) (s k : Nat) : R := ∑ j ∈ Finset.range (2 ^ s), y (bitrev s j) * w ^ (j * k)

theorem bitrevDft_zero (y : Nat → R) (w : R) (k : Nat) : bitrevDft y w 0 k = y 0 := by
  simp [bitrevDft, bitrev]

/-- Decimation in time: the even indices stand in the first half and the odd ones in the second (R198). -/
theorem bitrevDft_succ (y : Nat → R) (w : R) (s k : Nat) :
    bitrevDft y w (s + 1) k =
      bitrevDft y (w ^ 2) s k + bitrevDft (fun i => y (2 ^ s + i)) (w ^ 2) s k * w ^ k := by
  have heven (j : Nat) : bitrev (s + 1) (2 * j) = bitrev s j := by simp [bitrev_succ]
  have hodd (j : Nat) : bitrev (s + 1) (2 * j + 1) = 2 ^ s + bitrev s j := by
    have hhalf : (2 * j + 1) / 2 = j := by omega
    simp [bitrev_succ, hhalf, Nat.add_mod]
  simp only [bitrevDft, Nat.pow_succ', sum_range_two_mul, heven, hodd, Finset.sum_mul]
  congr 1
  · refine Finset.sum_congr rfl fun j _ => ?_
    ring
  · refine Finset.sum_congr rfl fun j _ => ?_
    ring

/-- A root whose power 2^s is 1 gives coefficients of period 2^s. -/
theorem bitrevDft_add_two_pow {w : R} {s : Nat} (hw : w ^ 2 ^ s = 1) (y : Nat → R) (k : Nat) :
    bitrevDft y w s (k + 2 ^ s) = bitrevDft y w s k := by
  refine Finset.sum_congr rfl fun j _ => ?_
  rw [Nat.mul_add, pow_add, Nat.mul_comm j (2 ^ s), pow_mul w (2 ^ s), hw, one_pow, mul_one]

/-- The butterfly of a stage: the upper half of the coefficients has the second summand negated. -/
theorem bitrevDft_succ_add {w : R} {s : Nat} (hw : w ^ 2 ^ s = -1) (y : Nat → R) (k : Nat) :
    bitrevDft y w (s + 1) (k + 2 ^ s) =
      bitrevDft y (w ^ 2) s k - bitrevDft (fun i => y (2 ^ s + i)) (w ^ 2) s k * w ^ k := by
  have hsq : (w ^ 2) ^ 2 ^ s = 1 := by rw [pow_right_comm, hw, neg_one_sq]
  rw [bitrevDft_succ, bitrevDft_add_two_pow hsq, bitrevDft_add_two_pow hsq, pow_add, hw]
  ring

/-! ### The inverse of the transform -/

/-- The powers of omega = g^2 sum to 0 whatever their step: with an odd step the two halves of the sum cancel, with an
even one they are equal, and each is such a sum of half the size. It needs g^(2^b) = -1 alone, and no field (R241). -/
theorem sum_pow_eq_zero {b d : Nat} {g : R} (hg : g ^ 2 ^ b = -1) (h0 : 0 < d) (hd : d < 2 ^ b) :
    ∑ k ∈ Finset.range (2 ^ b), (g ^ 2) ^ (d * k) = 0 := by
  induction b generalizing g d with
  | zero => omega
  | succ b ih =>
    rw [Nat.pow_succ'] at hd
    have hsplit : ∑ k ∈ Finset.range (2 ^ (b + 1)), (g ^ 2) ^ (d * k) =
        (1 + (g ^ 2 ^ (b + 1)) ^ d) * ∑ k ∈ Finset.range (2 ^ b), (g ^ 2) ^ (d * k) := by
      rw [Nat.pow_succ', Nat.two_mul, Finset.sum_range_add, add_mul, one_mul, Finset.mul_sum]
      congr 1
      refine Finset.sum_congr rfl fun k _ => ?_
      ring
    rw [hsplit, hg]
    rcases Nat.even_or_odd' d with ⟨e, rfl | rfl⟩
    · have hg2 : (g ^ 2) ^ 2 ^ b = -1 := by rw [← pow_mul, ← Nat.pow_succ', hg]
      have hhalf : ∑ k ∈ Finset.range (2 ^ b), (g ^ 2) ^ (2 * e * k) = 0 := by
        rw [← ih hg2 (d := e) (by omega) (by omega)]
        exact Finset.sum_congr rfl fun k _ => by ring
      rw [hhalf, mul_zero]
    · rw [Odd.neg_one_pow ⟨e, rfl⟩, add_neg_cancel, zero_mul]

section Inverse

variable {b : Nat} {g h : R} (hg : g ^ 2 ^ b = -1) (hh : h ^ 2 ^ b = -1) (hgh : g * h = 1)

include hg hh hgh

/-- Powers of omega against powers of its inverse: 2^b where the indices agree, else 0. -/
theorem sum_pow_mul_pow {i j : Nat} (hi : i < 2 ^ b) (hj : j < 2 ^ b) :
    ∑ k ∈ Finset.range (2 ^ b), (g ^ 2) ^ (i * k) * (h ^ 2) ^ (k * j) = if i = j then 2 ^ b else 0 := by
  have hinv (e : Nat) : (g ^ 2) ^ e * (h ^ 2) ^ e = 1 := by rw [← mul_pow, ← mul_pow, hgh, one_pow, one_pow]
  rcases Nat.lt_trichotomy i j with hij | rfl | hij
  · rw [if_neg hij.ne, ← sum_pow_eq_zero hh (d := j - i) (by omega) (by omega)]
    refine Finset.sum_congr rfl fun k _ => ?_
    have hexp : k * j = i * k + (j - i) * k := by rw [← Nat.add_mul, Nat.add_sub_cancel' hij.le, Nat.mul_comm]
    rw [hexp, pow_add, ← mul_assoc, hinv, one_mul]
  · simp [Nat.mul_comm i, hinv]
  · rw [if_neg hij.ne', ← sum_pow_eq_zero hg (d := i - j) (by omega) (by omega)]
    refine Finset.sum_congr rfl fun k _ => ?_
    have hexp : i * k = (i - j) * k + k * j := by
      rw [Nat.mul_comm k, ← Nat.add_mul, Nat.sub_add_cancel hij.le]
    rw [hexp, pow_add, mul_assoc, hinv, mul_one]

/-- The transform with the inverse root gives back every coefficient, times 2^b. -/
theorem sum_sum_mul_pow (a : Nat → R) {j : Nat} (hj : j < 2 ^ b) :
    ∑ k ∈ Finset.range (2 ^ b), (∑ i ∈ Finset.range (2 ^ b), a i * (g ^ 2) ^ (i * k)) * (h ^ 2) ^ (k * j) =
      2 ^ b * a j := by
  calc _ = ∑ i ∈ Finset.range (2 ^ b), a i * ∑ k ∈ Finset.range (2 ^ b), (g ^ 2) ^ (i * k) * (h ^ 2) ^ (k * j) := by
        simp only [Finset.sum_mul, Finset.mul_sum, mul_assoc]
        exact Finset.sum_comm
    _ = ∑ i ∈ Finset.range (2 ^ b), a i * if i = j then 2 ^ b else 0 :=
        Finset.sum_congr rfl fun i hi => by rw [sum_pow_mul_pow hg hh hgh (Finset.mem_range.mp hi) hj]
    _ = 2 ^ b * a j := by simp [hj, mul_comm]

end Inverse

/-- A negative power of omega, written with the exponent that is left to a multiple of its order. -/
theorem inverse_pow_eq {g h : R} {n j k : Nat} (hn : g ^ (2 * n) = 1) (hgh : g * h = 1) (hk : k ≤ n) :
    (h ^ 2) ^ (k * j) = (g ^ 2) ^ (j * (n - k)) := by
  have hinv : (h ^ 2) ^ (k * j) * (g ^ 2) ^ (k * j) = 1 := by
    rw [← mul_pow, ← mul_pow, mul_comm h, hgh, one_pow, one_pow]
  have hall : (g ^ 2) ^ (k * j) * (g ^ 2) ^ (j * (n - k)) = 1 := by
    rw [← pow_add, Nat.mul_comm k, ← Nat.mul_add, Nat.add_sub_cancel' hk, Nat.mul_comm, pow_mul, ← pow_mul g, hn,
      one_pow]
  rw [← mul_one ((h ^ 2) ^ (k * j)), ← hall, ← mul_assoc, hinv, one_mul]

end Dft

/-! ### What a stage leaves in each place -/

/-- Number k of a list, modulo m. -/
def coeff (m : Nat) (a : List Nat) (k : Nat) : ZMod m := (a.getD k 0 : Nat)

theorem coeff_cons_zero (m x : Nat) (a : List Nat) : coeff m (x :: a) 0 = x := rfl

theorem coeff_cons_succ (m x : Nat) (a : List Nat) (k : Nat) : coeff m (x :: a) (k + 1) = coeff m a k := rfl

theorem coeff_append_left {m k : Nat} {x : List Nat} (hk : k < x.length) (y : List Nat) :
    coeff m (x ++ y) k = coeff m x k := by
  rw [coeff, List.getD_append _ _ _ _ hk, coeff]

theorem coeff_append_right {m : Nat} {x : List Nat} {len : Nat} (hx : x.length = len) (y : List Nat) (k : Nat) :
    coeff m (x ++ y) (len + k) = coeff m y k := by
  rw [coeff, List.getD_append_right _ _ _ _ (by omega), hx, Nat.add_sub_cancel_left, coeff]

/-- Residue lists of one length are equal when they agree modulo m in every place. -/
theorem eq_of_coeff {m : Nat} {a a' : List Nat} (ha : Residues m a) (ha' : Residues m a') (hlen : a.length = a'.length)
    (h : ∀ k < a.length, coeff m a k = coeff m a' k) : a = a' := by
  refine List.ext_getElem hlen fun k hk hk' => ?_
  have hcoeff := h k hk
  rw [coeff, coeff, List.getD_eq_getElem _ _ hk, List.getD_eq_getElem _ _ hk'] at hcoeff
  exact eq_of_cast (ha _ (List.getElem_mem hk)) (ha' _ (List.getElem_mem hk')) hcoeff

/-- Block i of the result is `f` of block i. -/
theorem coeff_mapBlocks (m : Nat) {f : List Nat → List Nat} {len : Nat} (hf : ∀ x, x.length = len → (f x).length = len)
    {count i : Nat} (hi : i < count) {a : List Nat} (ha : count * len ≤ a.length) :
    ∃ x, x.length = len ∧ ∀ r < len, coeff m x r = coeff m a (i * len + r) ∧
      coeff m (mapBlocks f len count a) (i * len + r) = coeff m (f x) r := by
  induction count generalizing a i with
  | zero => omega
  | succ count ih =>
    rw [Nat.succ_mul] at ha
    obtain ⟨x, rest, rfl, hx, hrest⟩ := exists_append_of_le_length (a := a) (len := len) (by omega)
    rw [mapBlocks_append hx]
    cases i with
    | zero =>
      refine ⟨x, hx, fun r hr => ?_⟩
      rw [Nat.zero_mul, Nat.zero_add, coeff_append_left (hx.symm ▸ hr), coeff_append_left ((hf x hx).symm ▸ hr)]
      exact ⟨rfl, rfl⟩
    | succ i =>
      obtain ⟨y, hy, hat⟩ := ih (Nat.lt_of_succ_lt_succ hi) (a := rest) (by omega)
      refine ⟨y, hy, fun r hr => ?_⟩
      have hplace : (i + 1) * len + r = len + (i * len + r) := by rw [Nat.succ_mul]; omega
      rw [hplace, coeff_append_right hx, coeff_append_right (hf x hx)]
      exact hat r hr

section Stages

variable {m : Nat} (hm : 0 < m)

include hm

/-- Pair j of the inner loop: the running twiddle has been advanced j times (R197, R233). -/
theorem coeff_radix2Pairs (c w : Nat) {us vs : List Nat} (hlen : us.length = vs.length) {j : Nat} (hj : j < us.length) :
    coeff m (radix2Pairs m c w us vs).1 j = coeff m us j + coeff m vs j * (w * (c : ZMod m) ^ j) ∧
      coeff m (radix2Pairs m c w us vs).2 j = coeff m us j - coeff m vs j * (w * (c : ZMod m) ^ j) := by
  induction us generalizing w vs j with
  | nil => simp at hj
  | cons u us ih =>
    cases vs with
    | nil => simp at hlen
    | cons v vs =>
      simp only [radix2Pairs, bf2]
      cases j with
      | zero => simp [coeff_cons_zero, cast_submod hm]
      | succ j =>
        simp only [coeff_cons_succ]
        obtain ⟨hsum, hdiff⟩ := ih (mulmod w c m) (Nat.succ_injective hlen) (Nat.lt_of_succ_lt_succ hj)
        rw [hsum, hdiff, cast_mulmod, pow_succ', mul_assoc]
        exact ⟨rfl, rfl⟩

/-- What a block of a radix-2 stage leaves in its lower and in its upper half (R233). -/
theorem coeff_radix2Block (c : Nat) {h : Nat} {a : List Nat} (ha : a.length = 2 * h) {k : Nat} (hk : k < h) :
    coeff m (radix2Block m h c a) k = coeff m a k + coeff m a (h + k) * (c : ZMod m) ^ k ∧
      coeff m (radix2Block m h c a) (h + k) = coeff m a k - coeff m a (h + k) * (c : ZMod m) ^ k := by
  obtain ⟨us, vs, rfl, hus, hvs⟩ := exists_append_of_le_length (a := a) (len := h) (by omega)
  have hvs' : vs.length = h := by omega
  obtain ⟨hl1, hl2⟩ := radix2Pairs_lengths m c 1 hus hvs'
  obtain ⟨hsum, hdiff⟩ := coeff_radix2Pairs hm c 1 (hus.trans hvs'.symm) (hus ▸ hk)
  rw [Nat.cast_one, one_mul] at hsum hdiff
  rw [radix2Block_append hus, coeff_append_left (hl1.symm ▸ hk), coeff_append_right hl1, coeff_append_right hus,
    coeff_append_left (hus.symm ▸ hk), hsum, hdiff]
  exact ⟨rfl, rfl⟩

/-- What radix-2 stage s + 1 leaves in block i (R233). -/
theorem coeff_radix2Stage (c s : Nat) {a : List Nat} {i : Nat} (hi : i < a.length / 2 ^ (s + 1)) {k : Nat}
    (hk : k < 2 ^ s) :
    coeff m (radix2Stage m c s a) (i * 2 ^ (s + 1) + k) =
        coeff m a (i * 2 ^ (s + 1) + k) + coeff m a (i * 2 ^ (s + 1) + (2 ^ s + k)) * (c : ZMod m) ^ k ∧
      coeff m (radix2Stage m c s a) (i * 2 ^ (s + 1) + (2 ^ s + k)) =
        coeff m a (i * 2 ^ (s + 1) + k) - coeff m a (i * 2 ^ (s + 1) + (2 ^ s + k)) * (c : ZMod m) ^ k := by
  have hlen : 2 ^ (s + 1) = 2 * 2 ^ s := Nat.pow_succ'
  have hkeeps (x : List Nat) (hx : x.length = 2 ^ (s + 1)) : (radix2Block m (2 ^ s) c x).length = 2 ^ (s + 1) := by
    rw [radix2Block_length _ _ _ _ (hx.trans hlen), hx]
  obtain ⟨x, hx, hat⟩ := coeff_mapBlocks m hkeeps hi (Nat.div_mul_le_self _ _)
  obtain ⟨hlow, hlow'⟩ := hat k (by omega)
  obtain ⟨hhigh, hhigh'⟩ := hat (2 ^ s + k) (by omega)
  rw [radix2Stage, hlow', hhigh', ← hlow, ← hhigh]
  exact coeff_radix2Block hm c (hx.trans hlen) hk

/-! ### The closed form of the network -/

variable {b : Nat} {tw : List Word} {g : ZMod m}

/-- After s stages block i holds the transform of its 2^s numbers, by induction on the stages. Omega is written as g^2
with g^(2^b) = -1, which holds for a network without stages too. -/
theorem coeff_radix2Stages (hg : g ^ 2 ^ b = -1)
    (htw : ∀ s < b, ((tw.getD s 0).toNat : ZMod m) = (g ^ 2) ^ 2 ^ (b - (s + 1))) {a : List Nat} (ha : a.length = 2 ^ b)
    {s : Nat} (hs : s ≤ b) {i k : Nat} (hi : i < 2 ^ (b - s)) (hk : k < 2 ^ s) :
    coeff m (radix2Stages m tw s a) (i * 2 ^ s + k) =
      bitrevDft (fun r => coeff m a (i * 2 ^ s + r)) ((g ^ 2) ^ 2 ^ (b - s)) s k := by
  induction s generalizing i k with
  | zero =>
    have hk0 : k = 0 := by omega
    rw [hk0, bitrevDft_zero]
    rfl
  | succ s ih =>
    have hlen : 2 ^ (s + 1) = 2 * 2 ^ s := Nat.pow_succ'
    have hblocks : 2 ^ (b - s) = 2 * 2 ^ (b - (s + 1)) := by rw [← Nat.pow_succ']; congr 1; omega
    have hhalf : ((g ^ 2) ^ 2 ^ (b - (s + 1))) ^ 2 ^ s = -1 := by
      have hexp : 2 * 2 ^ (b - (s + 1)) * 2 ^ s = 2 ^ b := by rw [← hblocks, ← Nat.pow_add]; congr 1; omega
      rw [← pow_mul, ← pow_mul, ← mul_assoc, hexp, hg]
    have hsquare : ((g ^ 2) ^ 2 ^ (b - (s + 1))) ^ 2 = (g ^ 2) ^ 2 ^ (b - s) := by
      rw [← pow_mul, Nat.mul_comm, ← hblocks]
    have hcount : i < (radix2Stages m tw s a).length / 2 ^ (s + 1) := by
      rwa [radix2Stages_length, ha, Nat.pow_div hs (by decide)]
    have hfirst {r : Nat} : i * 2 ^ (s + 1) + r = 2 * i * 2 ^ s + r := by rw [hlen]; ring
    have hsecond {r : Nat} : i * 2 ^ (s + 1) + (2 ^ s + r) = (2 * i + 1) * 2 ^ s + r := by rw [hlen]; ring
    -- the two blocks of length 2^s that the butterflies join
    have hlow {r : Nat} (hr : r < 2 ^ s) : coeff m (radix2Stages m tw s a) (i * 2 ^ (s + 1) + r) =
        bitrevDft (fun r => coeff m a (i * 2 ^ (s + 1) + r)) ((g ^ 2) ^ 2 ^ (b - s)) s r := by
      simpa only [hfirst] using ih (by omega) (i := 2 * i) (by omega) hr
    have hhigh {r : Nat} (hr : r < 2 ^ s) : coeff m (radix2Stages m tw s a) (i * 2 ^ (s + 1) + (2 ^ s + r)) =
        bitrevDft (fun r => coeff m a (i * 2 ^ (s + 1) + (2 ^ s + r))) ((g ^ 2) ^ 2 ^ (b - s)) s r := by
      simpa only [hsecond] using ih (by omega) (i := 2 * i + 1) (by omega) hr
    rw [radix2Stages_succ]
    rcases Nat.lt_or_ge k (2 ^ s) with hlt | hge
    · rw [(coeff_radix2Stage hm _ s hcount hlt).1, hlow hlt, hhigh hlt, htw s hs, bitrevDft_succ, hsquare]
    · obtain ⟨r, rfl⟩ := Nat.exists_eq_add_of_le hge
      have hr : r < 2 ^ s := by omega
      rw [(coeff_radix2Stage hm _ s hcount hr).2, hlow hr, hhigh hr, htw s hs, Nat.add_comm (2 ^ s) r,
        bitrevDft_succ_add hhalf, hsquare]

/-- R240 for the network: the bit reversal puts the input in the order that the stages expect. -/
theorem coeff_radix2Network (hg : g ^ 2 ^ b = -1)
    (htw : ∀ s < b, ((tw.getD s 0).toNat : ZMod m) = (g ^ 2) ^ 2 ^ (b - (s + 1))) {a : List Nat} (ha : a.length = 2 ^ b)
    {k : Nat} (hk : k < 2 ^ b) :
    coeff m (radix2Network m b tw a) k = ∑ j ∈ Finset.range (2 ^ b), coeff m a j * (g ^ 2) ^ (j * k) := by
  have hreversed (j : Nat) (hj : j < 2 ^ b) : coeff m (brperm b a) (bitrev b j) = coeff m a j := by
    rw [coeff, List.getD_eq_getElem?_getD, brperm_getElem? b a ha _ (bitrev_lt b j), bitrev_bitrev b j hj,
      ← List.getD_eq_getElem?_getD, coeff]
  have hlen : (brperm b a).length = 2 ^ b := by rw [brperm_length, ha]
  have hstages := coeff_radix2Stages hm hg htw hlen (Nat.le_refl b) (i := 0) (by simp) hk
  simp only [Nat.sub_self, Nat.pow_zero, pow_one, Nat.zero_mul, Nat.zero_add] at hstages
  rw [radix2Network_eq, hstages]
  exact Finset.sum_congr rfl fun j hj => congrArg (· * (g ^ 2) ^ (j * k)) (hreversed j (Finset.mem_range.mp hj))

end Stages

/-! ### The transforms of a legal context -/

theorem coeff_scaleBy {m k : Nat} {a : List Nat} (hk : k < a.length) (ninv : Nat) :
    coeff m (scaleBy m ninv a) k = coeff m a k * ninv := by
  have hk' : k < (scaleBy m ninv a).length := by rwa [scaleBy_length]
  rw [coeff, coeff, List.getD_eq_getElem _ _ hk, List.getD_eq_getElem _ _ hk', ← cast_mulmod]
  simp [scaleBy]

/-- The context's root modulo its modulus. -/
def ctxRoot (c : TransformContext) : ZMod c.tcM.toNat := (c.tcRoot.toNat : Nat)

/-- The root's inverse, root^(2n-1) (R195). -/
def ctxRootInv (c : TransformContext) : ZMod c.tcM.toNat := ctxRoot c ^ (2 * c.tcN.toNat - 1)

section LegalTransform

variable {p : Params} {c : TransformContext} (hp : p.wellFormed = true) (hc : TransformLegal p c)

include hc

theorem ctxRoot_pow_size : ctxRoot c ^ c.tcN.toNat = -1 :=
  cast_pow_eq_neg_one (Nat.le_of_succ_le (Nat.le_of_succ_le hc.three_le)) hc.half

theorem ctxRoot_pow_two_mul_size : ctxRoot c ^ (2 * c.tcN.toNat) = 1 := by
  rw [Nat.mul_comm, pow_mul, ctxRoot_pow_size hc, neg_one_sq]

theorem one_le_size : 1 ≤ c.tcN.toNat := by
  obtain ⟨b, hn⟩ := hc.size.1
  exact hn ▸ Nat.two_pow_pos b

theorem ctxRoot_mul_inv : ctxRoot c * ctxRootInv c = 1 := by
  have hn := one_le_size hc
  rw [ctxRootInv, ← pow_succ', Nat.sub_add_cancel (by omega), ctxRoot_pow_two_mul_size hc]

theorem ctxRootInv_pow_size : ctxRootInv c ^ c.tcN.toNat = -1 := by
  have hn := one_le_size hc
  rw [ctxRootInv, pow_right_comm, ctxRoot_pow_size hc, Odd.neg_one_pow ⟨c.tcN.toNat - 1, by omega⟩]

include hp

/-- NINV is the inverse of n: an odd modulus shares no factor with a power of two (R196). -/
theorem size_mul_ninv : (c.tcN.toNat : ZMod c.tcM.toNat) * c.twiddles.ninv.toNat = 1 := by
  obtain ⟨-, hn64⟩ := transformLegal_bounds hp hc
  obtain ⟨b, hn⟩ := hc.size.1
  have hcop : Nat.gcd c.tcN.toNat c.tcM.toNat = 1 :=
    hn ▸ Nat.Coprime.pow_left b (Nat.coprime_two_left.mpr (Nat.odd_iff.mpr hc.odd))
  obtain ⟨hlt, hinv⟩ := invmod_spec _ _ (by omega) (Nat.le_of_succ_le hc.three_le) hcop
  have hval : c.twiddles.ninv.toNat = invmod c.tcN.toNat c.tcM.toNat := by
    rw [hc.table]
    exact toNat_ofNat_of_lt (hlt.trans c.tcM.isLt)
  rw [hval, ← Nat.cast_mul, ← ZMod.natCast_mod, hinv, Nat.cast_one]

/-- R240 for the forward network. -/
theorem coeff_forward2 {a : List Nat} (ha : a.length = c.tcN.toNat) {k : Nat} (hk : k < c.tcN.toNat) :
    coeff c.tcM.toNat (forward2 c a) k =
      ∑ j ∈ Finset.range c.tcN.toNat, coeff c.tcM.toNat a j * (ctxRoot c ^ 2) ^ (j * k) := by
  obtain ⟨hm, hn64⟩ := transformLegal_bounds hp hc
  obtain ⟨b, hn⟩ := hc.size.1
  have homega : (omegaOf c.tcM.toNat c.tcRoot.toNat : ZMod c.tcM.toNat) = ctxRoot c ^ 2 := by
    rw [omegaOf_eq, ZMod.natCast_mod, Nat.cast_pow, ctxRoot]
  have hroot := ctxRoot_pow_size hc
  rw [hn] at ha hk hroot
  rw [forward2, hc.table, hn, Nat.log2_two_pow]
  refine coeff_radix2Network hm hroot (fun s hs => ?_) ha hk
  rw [← homega]
  exact cast_stageScalar _ rfl (by omega) hm c.tcM.isLt hs

/-- R240 for the inverse network. -/
theorem coeff_inverse2 {a : List Nat} (ha : a.length = c.tcN.toNat) {j : Nat} (hj : j < c.tcN.toNat) :
    coeff c.tcM.toNat (inverse2 c a) j =
      (∑ k ∈ Finset.range c.tcN.toNat, coeff c.tcM.toNat a k * (ctxRootInv c ^ 2) ^ (k * j)) *
        c.twiddles.ninv.toNat := by
  obtain ⟨hm, hn64⟩ := transformLegal_bounds hp hc
  obtain ⟨b, hn⟩ := hc.size.1
  have homega : (omegaInvOf c.tcM.toNat c.tcN.toNat c.tcRoot.toNat : ZMod c.tcM.toNat) = ctxRootInv c ^ 2 := by
    rw [omegaInvOf_eq hn64, ZMod.natCast_mod, Nat.cast_pow, pow_mul, ctxRootInv, ctxRoot]
  have hroot := ctxRootInv_pow_size hc
  rw [inverse2, coeff_scaleBy (by simpa [ha] using hj)]
  congr 1
  rw [hn] at ha hj hroot homega
  rw [hc.table, hn, Nat.log2_two_pow]
  refine coeff_radix2Network hm hroot (fun s hs => ?_) ha hj
  rw [← homega]
  exact cast_stageScalar _ rfl (by omega) hm c.tcM.isLt hs

/-- R241 for the networks: n times the input, times NINV. -/
theorem inverse2_forward2 {a : List Nat} (hres : Residues c.tcM.toNat a) (ha : a.length = c.tcN.toNat) :
    inverse2 c (forward2 c a) = a := by
  obtain ⟨hm, -⟩ := transformLegal_bounds hp hc
  have hfl : (forward2 c a).length = c.tcN.toNat := by rw [forward2_length, ha]
  have hfres := (forward2_keepsResidues c a).2 hm hres
  refine eq_of_coeff ((inverse2_keepsResidues c _).2 hm hfres) hres (by simp) fun j hj => ?_
  rw [inverse2_length, hfl] at hj
  have hsums : ∑ k ∈ Finset.range c.tcN.toNat,
      coeff c.tcM.toNat (forward2 c a) k * (ctxRootInv c ^ 2) ^ (k * j) = c.tcN.toNat * coeff c.tcM.toNat a j := by
    rw [Finset.sum_congr rfl fun k hk => by rw [coeff_forward2 hp hc ha (Finset.mem_range.mp hk)]]
    have hg := ctxRoot_pow_size hc
    have hh := ctxRootInv_pow_size hc
    obtain ⟨b, hn⟩ := hc.size.1
    rw [hn] at hg hh hj
    rw [hn, sum_sum_mul_pow hg hh (ctxRoot_mul_inv hc) _ hj, Nat.cast_pow, Nat.cast_two]
  rw [coeff_inverse2 hp hc hfl hj, hsums, mul_right_comm, size_mul_ninv hp hc, one_mul]

end LegalTransform

/-! ### A transform that ends with OK -/

/-- What is known of a transform that ended with OK: its checks passed, and it stored its network's result. -/
structure TransformRan (s t : State) (d : Buf) (c : TransformContext) (radix4 : Bool) (needs gives : Domain)
    (network : TransformContext → List Nat → List Nat) : Prop where
  even : radix4 = true → Nat.log2 c.tcN.toNat % 2 = 0
  length : s.bufLen d = c.tcN
  tag : s.bufDom d = needs
  residues : Residues c.tcM.toNat (s.bufNats d c.tcN.toNat)
  stored : storedIn s t d c.tcN.toNat gives
  words : t.bufNats d c.tcN.toNat = network c (s.bufNats d c.tcN.toNat)

/-- No check of a transform raises OK, so a transform that ends with OK passed them all (R232). -/
theorem transform_ran {s t : State} {d : Buf} {c : TransformContext} {radix4 : Bool} {needs gives : Domain}
    {network : TransformContext → List Nat → List Nat} (hnet : KeepsResidues network) (hc : s.tc = some c)
    (h : s.transform d radix4 needs gives network = .next t) (hok : t.code = .ok) :
    TransformRan s t d c radix4 needs gives network := by
  have hpass : ∀ e, firstFailure (transformChecks s c d radix4 needs) ≠ some e := by
    intro e he
    rw [transform_raises gives network hc he] at h
    obtain rfl := Host.Outcome.next.inj h
    obtain ⟨pre, x, post, hsplit, -, -, hx⟩ := firstFailure_eq_some he
    have hmem : x ∈ transformChecks s c d radix4 needs := hsplit ▸ by simp
    have hcode : x.code = .ok := hx.trans hok
    simp only [transformChecks, List.mem_cons, List.not_mem_nil, or_false] at hmem
    obtain rfl | rfl | rfl | rfl := hmem <;> cases hcode
  have hnone := Option.eq_none_iff_forall_ne_some.mpr hpass
  simp only [transformChecks, firstFailure_eq_none_iff, List.forall_mem_cons, List.any_eq_false, Bool.and_eq_false_imp,
    decide_eq_false_iff_not, decide_eq_true_eq, not_not, Nat.not_le, Nat.mod_two_not_eq_one] at hnone
  obtain ⟨heven, hlen, htag, hres, -⟩ := hnone
  obtain ⟨u, hu, hstored, hwords⟩ := transform_completes hnet gives hc rfl hlen hres htag heven
  obtain rfl : u = t := Host.Outcome.next.inj (hu.symm.trans h)
  exact ⟨heven, hlen, htag, hres, hstored, hwords⟩

theorem exec_nttFwd2 (d : Buf) (s : State) :
    exec (.nttFwd2 d) s = s.transform d false .coefficient .evaluation forward2 := rfl

theorem exec_nttFwd4 (d : Buf) (s : State) :
    exec (.nttFwd4 d) s = s.transform d true .coefficient .evaluation forward4 := rfl

theorem exec_nttInv2 (d : Buf) (s : State) :
    exec (.nttInv2 d) s = s.transform d false .evaluation .coefficient inverse2 := rfl

theorem exec_nttInv4 (d : Buf) (s : State) :
    exec (.nttInv4 d) s = s.transform d true .evaluation .coefficient inverse4 := rfl

theorem bufNats_getD (s : State) (d : Buf) {n k : Nat} (hk : k < n) :
    (s.bufNats d n).getD k 0 = (s.bufWord d k).toNat := by
  simp [State.bufNats, State.bufWords, hk]

theorem coeff_bufNats (m : Nat) (s : State) (d : Buf) {n k : Nat} (hk : k < n) :
    coeff m (s.bufNats d n) k = (s.bufWord d k).toNat := by
  rw [coeff, bufNats_getD s d hk]

/-- The words that a transform stores are residues. -/
theorem TransformRan.word_lt {s t : State} {d : Buf} {c : TransformContext} {radix4 : Bool} {needs gives : Domain}
    {network : TransformContext → List Nat → List Nat} (h : TransformRan s t d c radix4 needs gives network)
    (hnet : KeepsResidues network) {k : Nat} (hk : k < c.tcN.toNat) : (t.bufWord d k).toNat < c.tcM.toNat := by
  have hlen : k < (t.bufNats d c.tcN.toNat).length := by rwa [bufNats_length]
  have hpos : 0 < c.tcM.toNat :=
    Nat.zero_lt_of_lt (h.residues _ (List.getElem_mem (by rwa [bufNats_length] : k < (s.bufNats d c.tcN.toNat).length)))
  have hres : Residues c.tcM.toNat (t.bufNats d c.tcN.toNat) := h.words ▸ (hnet c _).2 hpos h.residues
  rw [← bufNats_getD t d hk, List.getD_eq_getElem _ _ hlen]
  exact hres _ (List.getElem_mem hlen)

/-- Settles O37: the network's closed form, read off the stored words. -/
theorem forwardTransformClosedForm : Obligations.ForwardTransformClosedForm := by
  intro s t d c hs hc hexec hok k hk
  obtain ⟨hp, hlegal, -⟩ := hs
  rw [exec_nttFwd2] at hexec
  have hran := transform_ran forward2_keepsResidues hc hexec hok
  refine eq_mod_of_cast (hran.word_lt forward2_keepsResidues hk) ?_
  rw [← coeff_bufNats _ t d hk, hran.words, coeff_forward2 hp (hlegal c hc) (bufNats_length s d _) hk]
  push_cast
  exact Finset.sum_congr rfl fun j hj => by rw [coeff_bufNats _ s d (Finset.mem_range.mp hj), ctxRoot]

/-- Settles O38: the network's closed form with NINV cancelled against n, and the inverse root's powers as powers of the
root. -/
theorem inverseTransformClosedForm : Obligations.InverseTransformClosedForm := by
  intro s t d c hs hc hexec hok j hj
  obtain ⟨hp, hlegal, -⟩ := hs
  have hlegal := hlegal c hc
  rw [exec_nttInv2] at hexec
  have hran := transform_ran inverse2_keepsResidues hc hexec hok
  refine ⟨hran.word_lt inverse2_keepsResidues hj, (ZMod.natCast_eq_natCast_iff' _ _ _).mp ?_⟩
  rw [Nat.cast_mul, ← coeff_bufNats _ t d hj, hran.words, coeff_inverse2 hp hlegal (bufNats_length s d _) hj,
    mul_left_comm, size_mul_ninv hp hlegal, mul_one]
  push_cast
  refine Finset.sum_congr rfl fun k hk => ?_
  have hk := Finset.mem_range.mp hk
  rw [coeff_bufNats _ s d hk, inverse_pow_eq (ctxRoot_pow_two_mul_size hlegal) (ctxRoot_mul_inv hlegal) hk.le, ctxRoot]

/-! ### The round trip -/

/-- What a store keeps and sets beside the memory. -/
theorem storedIn_fields {s t : State} {d : Buf} {len : Nat} {tag : Domain} (h : storedIn s t d len tag) :
    t.tc = s.tc ∧ t.bufLen d = s.bufLen d ∧ t.bufDom d = tag ∧ t.code = .ok := by
  obtain ⟨hstate, -⟩ := h
  rw [hstate]
  cases d <;> exact ⟨rfl, rfl, rfl, rfl⟩

/-- Two stores in the same words that leave the same numbers there leave every byte (R73). -/
theorem byteAt_eq_of_stored_twice {s t u : State} {d : Buf} {n : Nat} {tag tag' : Domain} (hst : storedIn s t d n tag)
    (htu : storedIn t u d n tag') (hwords : u.bufNats d n = s.bufNats d n) (a : Nat) : u.byteAt a = s.byteAt a := by
  by_cases ha : inBuf d n a
  · refine byteAt_eq_of_bufWord_eq (fun i hi => BitVec.eq_of_toNat_eq ?_) ha
    rw [← bufNats_getD u d hi, hwords, bufNats_getD s d hi]
  · rw [htu.2 a ha, hst.2 a ha]

section RoundTrip

variable {s t : State} {d : Buf} {c : TransformContext} (hp : s.params.wellFormed = true)
  (hlegal : TransformLegal s.params c)

include hp hlegal

/-- A forward transform of either radix is the radix-2 one. -/
theorem forward_ran {f : Instr} (hc : s.tc = some c) (hf : f ∈ [Instr.nttFwd2 d, Instr.nttFwd4 d])
    (hexec : exec f s = .next t) (hok : t.code = .ok) :
    TransformRan s t d c false .coefficient .evaluation forward2 := by
  simp only [List.mem_cons, List.not_mem_nil, or_false] at hf
  obtain rfl | rfl := hf
  · rw [exec_nttFwd2] at hexec
    exact transform_ran forward2_keepsResidues hc hexec hok
  · rw [exec_nttFwd4] at hexec
    have hran := transform_ran forward4_keepsResidues hc hexec hok
    have hwords := forward4_eq_forward2 hp hlegal (hran.even rfl) (bufNats_length s d _)
    exact ⟨fun h => (Bool.false_ne_true h).elim, hran.length, hran.tag, hran.residues, hran.stored,
      hran.words.trans hwords⟩

/-- An inverse transform of either radix completes and is the radix-2 one. -/
theorem inverse_completes {g : Instr} (hc : t.tc = some c)
    (hg : g = .nttInv2 d ∨ (g = .nttInv4 d ∧ Nat.log2 c.tcN.toNat % 2 = 0)) (hlen : t.bufLen d = c.tcN)
    (hres : Residues c.tcM.toNat (t.bufNats d c.tcN.toNat)) (hdom : t.bufDom d = .evaluation) :
    ∃ u, exec g t = .next u ∧ storedIn t u d c.tcN.toNat .coefficient ∧
      u.bufNats d c.tcN.toNat = inverse2 c (t.bufNats d c.tcN.toNat) := by
  obtain rfl | ⟨rfl, heven⟩ := hg
  · exact transform_completes inverse2_keepsResidues _ hc rfl hlen hres hdom (fun h => nomatch h)
  · rw [exec_nttInv4, ← inverse4_eq_inverse2 hp hlegal heven (bufNats_length t d _)]
    exact transform_completes inverse4_keepsResidues _ hc rfl hlen hres hdom (fun _ => heven)

end RoundTrip

/-- Settles O39: the inverse network undoes the forward one, in either radix, and both write the same words. -/
theorem transformRoundTrip : Obligations.TransformRoundTrip := by
  intro s t d c f g hs hc hf hexec hok hg
  obtain ⟨hp, hlegal, -⟩ := hs
  have hlegal := hlegal c hc
  have hran := forward_ran hp hlegal hc hf hexec hok
  obtain ⟨htc, htlen, httag, -⟩ := storedIn_fields hran.stored
  obtain ⟨hm, -⟩ := transformLegal_bounds hp hlegal
  have hres : Residues c.tcM.toNat (t.bufNats d c.tcN.toNat) :=
    hran.words ▸ (forward2_keepsResidues c _).2 hm hran.residues
  obtain ⟨u, hu, hstored, hwords⟩ :=
    inverse_completes hp hlegal (htc.trans hc) hg (htlen.trans hran.length) hres httag
  obtain ⟨-, -, hutag, hucode⟩ := storedIn_fields hstored
  have hback : u.bufNats d c.tcN.toNat = s.bufNats d c.tcN.toNat := by
    rw [hwords, hran.words, inverse2_forward2 hp hlegal hran.residues (bufNats_length s d _)]
  exact ⟨u, hu, hucode, byteAt_eq_of_stored_twice hran.stored hstored hback, hran.tag, hutag⟩

end Sys2Proof.Proofs
end

section
/-! PROOFS. 44_rns.md: TO_RNS (R272), FROM_RNS (R273), RADD and RMUL (R274, R275), and the laws of R276. First the check
that the three reading commands share, then each command's rule, then the Chinese remainder theorem for a legal base, from
which the laws follow by the rules alone. -/

namespace Sys2Proof.Proofs

open Sys2Proof.Machine Sys2Proof.Safety Sys2Proof.Laws

/-! ### The residue check -/

theorem badResidue_eq_true_iff (r : RnsBase) (v : Vector Word 16) :
    badResidue r v = true ↔ ∃ i < r.rnsK.toNat, (slot r.rnsMod i).toNat ≤ (slot v i).toNat := by
  simp [badResidue]

theorem badResidue_eq_false_iff (r : RnsBase) (v : Vector Word 16) :
    badResidue r v = false ↔ ∀ i < r.rnsK.toNat, (slot v i).toNat < (slot r.rnsMod i).toNat := by
  simp [badResidue]

/-! ### TO_RNS -/

theorem exec_toRns_noBase {s : State} (hr : s.rns = none) (d : Vec) :
    exec (.toRns d) s = .next (ended s .noContext) := by
  have hexec : exec (.toRns d) s = execToRns d s := rfl
  rw [hexec, execToRns, hr]
  rfl

/-- TO_RNS has no check beyond the base: every OP0 is legal (R272). -/
theorem exec_toRns {s : State} {r : RnsBase} (hr : s.rns = some r) (d : Vec) :
    exec (.toRns d) s = .next (ended (s.setRv d (fillSlots r.rnsK.toNat
      (fun i => Word.ofNat (s.op[0].toNat % (slot r.rnsMod i).toNat)) (s.rv d))) .ok) := by
  have hexec : exec (.toRns d) s = execToRns d s := rfl
  rw [hexec, execToRns, hr]
  rfl

/-- Settles O41, by what the fill leaves in each slot. -/
theorem toRnsRule : Obligations.ToRnsRule :=
  ⟨by decide, fun _ d => ⟨fun hr => exec_toRns_noBase hr d,
    fun _ hr => ⟨_, exec_toRns hr d, fun i hi => slot_fillSlots _ _ _ i hi⟩⟩⟩

/-! ### FROM_RNS -/

/-- The accumulator of R273's loop is the sum of its terms. -/
theorem crtSum_eq_sum (r : RnsBase) (v : Vector Word 16) :
    crtSum r v = ∑ i ∈ Finset.range r.rnsK.toNat, crtTerm r v i := by
  unfold crtSum
  induction r.rnsK.toNat with
  | zero => rfl
  | succ k ih => rw [List.range_succ, List.foldl_append, List.foldl_cons, List.foldl_nil, ih, Finset.sum_range_succ]

theorem exec_fromRns_noBase {s : State} (hr : s.rns = none) (d : Vec) :
    exec (.fromRns d) s = .next (ended s .noContext) := by
  have hexec : exec (.fromRns d) s = execFromRns d s := rfl
  rw [hexec, execFromRns, hr]
  rfl

theorem exec_fromRns {s : State} {r : RnsBase} (hr : s.rns = some r) (d : Vec) :
    exec (.fromRns d) s = conclude [⟨badResidue r (s.rv d), .operandRange⟩]
      (s.setRs0 (Word.ofNat ((∑ i ∈ Finset.range r.rnsK.toNat, crtTerm r (s.rv d) i) % r.rnsMProd.toNat))) s := by
  have hexec : exec (.fromRns d) s = execFromRns d s := rfl
  rw [hexec, execFromRns, hr, ← crtSum_eq_sum]

/-- With residues in RV[D], FROM_RNS leaves the sum modulo M in RS0 and nothing else (R273). -/
theorem fromRns_completes {s : State} {r : RnsBase} {d : Vec} (hr : s.rns = some r)
    (h : ∀ i < r.rnsK.toNat, (slot (s.rv d) i).toNat < (slot r.rnsMod i).toNat) :
    exec (.fromRns d) s = .next (ended (s.setRs0 (Word.ofNat
      ((∑ i ∈ Finset.range r.rnsK.toNat, crtTerm r (s.rv d) i) % r.rnsMProd.toNat))) .ok) :=
  (exec_fromRns hr d).trans (conclude_passed _ _ (firstFailure_pass ((badResidue_eq_false_iff r _).mpr h)))

theorem fromRns_range {s : State} {r : RnsBase} {d : Vec} (hr : s.rns = some r)
    (h : ∃ i < r.rnsK.toNat, (slot r.rnsMod i).toNat ≤ (slot (s.rv d) i).toNat) :
    exec (.fromRns d) s = .next (ended s .operandRange) :=
  (exec_fromRns hr d).trans (conclude_failed _ _ (firstFailure_fail ((badResidue_eq_true_iff r _).mpr h)))

/-- Settles O42, by the residue check and the sum that the loop accumulates. -/
theorem fromRnsRule : Obligations.FromRnsRule :=
  ⟨by decide, fun _ d => ⟨fun hr => exec_fromRns_noBase hr d,
    fun _ hr => ⟨fromRns_completes hr, fromRns_range hr⟩⟩⟩

/-! ### RADD and RMUL -/

section Slotwise

variable {s : State} {r : RnsBase} {d e : Vec} (f : Nat → Nat → Nat → Nat)

theorem slotwise_noBase (hr : s.rns = none) : s.slotwise f d e = .next (ended s .noContext) := by
  rw [State.slotwise, hr]
  rfl

theorem slotwise_eq_conclude (hr : s.rns = some r) :
    s.slotwise f d e = conclude [⟨badResidue r (s.rv d) || badResidue r (s.rv e), .operandRange⟩]
      (s.setRv d (fillSlots r.rnsK.toNat
        (fun i => Word.ofNat (f (slot (s.rv d) i).toNat (slot (s.rv e) i).toNat (slot r.rnsMod i).toNat))
        (s.rv d))) s := by
  rw [State.slotwise, hr]

/-- With residues in both vectors, every slot below k is written from the two old slots and its own modulus. The operands
are read before the write, so D = S needs no case of its own (R274). -/
theorem slotwise_completes (hr : s.rns = some r)
    (h : ∀ j < r.rnsK.toNat, (slot (s.rv d) j).toNat < (slot r.rnsMod j).toNat ∧
      (slot (s.rv e) j).toNat < (slot r.rnsMod j).toNat) :
    ∃ y : Vector Word 16, s.slotwise f d e = .next (ended (s.setRv d y) .ok) ∧
      ∀ j < 16, slot y j = if j < r.rnsK.toNat then
        Word.ofNat (f (slot (s.rv d) j).toNat (slot (s.rv e) j).toNat (slot r.rnsMod j).toNat)
        else slot (s.rv d) j := by
  have hd : badResidue r (s.rv d) = false := (badResidue_eq_false_iff r _).mpr fun j hj => (h j hj).1
  have he : badResidue r (s.rv e) = false := (badResidue_eq_false_iff r _).mpr fun j hj => (h j hj).2
  rw [slotwise_eq_conclude f hr]
  exact ⟨_, conclude_passed _ _ (firstFailure_pass (Bool.or_eq_false_iff.mpr ⟨hd, he⟩)),
    fun j hj => slot_fillSlots _ _ _ j hj⟩

theorem slotwise_range (hr : s.rns = some r)
    (h : ∃ j < r.rnsK.toNat, (slot r.rnsMod j).toNat ≤ (slot (s.rv d) j).toNat ∨
      (slot r.rnsMod j).toNat ≤ (slot (s.rv e) j).toNat) :
    s.slotwise f d e = .next (ended s .operandRange) := by
  have hbad : (badResidue r (s.rv d) || badResidue r (s.rv e)) = true := by
    obtain ⟨j, hj, h⟩ := h
    rw [Bool.or_eq_true, badResidue_eq_true_iff, badResidue_eq_true_iff]
    exact h.imp (⟨j, hj, ·⟩) (⟨j, hj, ·⟩)
  rw [slotwise_eq_conclude f hr]
  exact conclude_failed _ _ (firstFailure_fail hbad)

end Slotwise

theorem exec_radd (d e : Vec) (s : State) :
    exec (.radd d e) s = s.slotwise (fun a b m => (a + b) % m) d e := rfl

theorem exec_rmul (d e : Vec) (s : State) :
    exec (.rmul d e) s = s.slotwise (fun a b m => a * b % m) d e := rfl

/-- Settles O43: both commands are the slotwise one, with the sum and with the product. -/
theorem slotwiseRule : Obligations.SlotwiseRule := by
  refine ⟨by decide, fun s d e i f hf => ?_⟩
  have hexec : exec i s = s.slotwise (fun a b m => f a b % m) d e := by
    obtain ⟨rfl, rfl⟩ | ⟨rfl, rfl⟩ := hf
    · exact exec_radd d e s
    · exact exec_rmul d e s
  rw [hexec]
  exact ⟨slotwise_noBase _, fun r hr => ⟨slotwise_completes _ hr, slotwise_range _ hr⟩⟩

/-! ### The Chinese remainder theorem for a legal base -/

/-- A vector holds the residues of the number x: in every slot i < k, x mod mi (R272). -/
def HoldsResidues (r : RnsBase) (v : Vector Word 16) (x : Nat) : Prop :=
  ∀ i < r.rnsK.toNat, (slot v i).toNat = x % (slot r.rnsMod i).toNat

section LegalBase

variable {p : Params} {r : RnsBase} {v : Vector Word 16} {x : Nat}

theorem HoldsResidues.lt (hx : HoldsResidues r v x) (hb : RnsLegal p r) :
    ∀ i < r.rnsK.toNat, (slot v i).toNat < (slot r.rnsMod i).toNat :=
  fun i hi => hx i hi ▸ Nat.mod_lt x (Nat.zero_lt_of_lt (hb.two_le i hi))

theorem HoldsResidues.modEq (hx : HoldsResidues r v x) :
    ∀ i < r.rnsK.toNat, (slot v i).toNat ≡ x [MOD (slot r.rnsMod i).toNat] :=
  fun i hi => hx i hi ▸ Nat.mod_modEq x _

/-- Numbers that agree modulo every modulus of a legal base agree modulo M, because the moduli are coprime (R270). -/
theorem modEq_product_of_modEq (hb : RnsLegal p r) {a b : Nat}
    (h : ∀ i < r.rnsK.toNat, a ≡ b [MOD (slot r.rnsMod i).toNat]) : a ≡ b [MOD r.rnsMProd.toNat] := by
  have hprod : r.rnsMProd.toNat = ((List.range r.rnsK.toNat).map fun i => (slot r.rnsMod i).toNat).prod := hb.product
  have hpair : (List.range r.rnsK.toNat).Pairwise (Function.onFun Nat.Coprime fun i => (slot r.rnsMod i).toNat) :=
    List.nodup_range.pairwise_of_forall_ne fun i hi j hj hne =>
      hb.coprime i (List.mem_range.mp hi) j (List.mem_range.mp hj) hne
  rw [hprod, Nat.modEq_list_map_prod_iff hpair]
  exact fun i hi => h i (List.mem_range.mp hi)

/-- Every modulus but slot i's own divides Mi, the product of the others (R271). -/
theorem modulus_dvd_mi (hb : RnsLegal p r) {i j : Nat} (hi : i < r.rnsK.toNat) (hj : j < r.rnsK.toNat) (hne : j ≠ i) :
    (slot r.rnsMod j).toNat ∣ (slot r.rnsMi i).toNat := by
  rw [hb.mi i hi, hb.product, prod_div_eq_prod_erase hi (Nat.zero_lt_of_lt (hb.two_le i hi))]
  exact Finset.dvd_prod_of_mem _ (Finset.mem_erase.mpr ⟨hne, Finset.mem_range.mpr hj⟩)

/-- The term of another slot vanishes modulo mj. -/
theorem crtTerm_modEq_zero (hb : RnsLegal p r) {i j : Nat} (hi : i < r.rnsK.toNat) (hj : j < r.rnsK.toNat)
    (hne : j ≠ i) : crtTerm r v i ≡ 0 [MOD (slot r.rnsMod j).toNat] :=
  Nat.modEq_zero_iff_dvd.mpr ((modulus_dvd_mi hb hi hj hne).mul_right _)

/-- The slot's own term is its residue modulo mj: Mj and its inverse cancel (R273). -/
theorem crtTerm_modEq_residue (hb : RnsLegal p r) {j : Nat} (hj : j < r.rnsK.toNat) :
    crtTerm r v j ≡ (slot v j).toNat [MOD (slot r.rnsMod j).toNat] := by
  have hinv : (slot r.rnsMi j).toNat * (slot r.rnsMiInv j).toNat ≡ 1 [MOD (slot r.rnsMod j).toNat] :=
    (hb.miInv j hj).trans (Nat.mod_eq_of_lt (hb.two_le j hj)).symm
  calc crtTerm r v j
      ≡ (slot r.rnsMi j).toNat * ((slot v j).toNat * (slot r.rnsMiInv j).toNat) [MOD (slot r.rnsMod j).toNat] :=
        (Nat.mod_modEq _ _).mul_left _
    _ = (slot r.rnsMi j).toNat * (slot r.rnsMiInv j).toNat * (slot v j).toNat := by ring
    _ ≡ 1 * (slot v j).toNat [MOD (slot r.rnsMod j).toNat] := hinv.mul_right _
    _ = (slot v j).toNat := Nat.one_mul _

/-- R273's sum over the residues of x is x modulo M. -/
theorem sum_crtTerm_modEq (hb : RnsLegal p r) (hx : HoldsResidues r v x) :
    ∑ i ∈ Finset.range r.rnsK.toNat, crtTerm r v i ≡ x [MOD r.rnsMProd.toNat] := by
  refine modEq_product_of_modEq hb fun j hj => ?_
  have hothers : ∑ i ∈ (Finset.range r.rnsK.toNat).erase j, crtTerm r v i ≡ 0 [MOD (slot r.rnsMod j).toNat] := by
    refine Nat.modEq_zero_iff_dvd.mpr (Finset.dvd_sum fun i hi => ?_)
    obtain ⟨hne, hi⟩ := Finset.mem_erase.mp hi
    exact Nat.modEq_zero_iff_dvd.mp (crtTerm_modEq_zero hb (Finset.mem_range.mp hi) hj hne.symm)
  have hown : crtTerm r v j ≡ x [MOD (slot r.rnsMod j).toNat] :=
    (crtTerm_modEq_residue hb hj).trans (hx.modEq j hj)
  rw [← Finset.add_sum_erase _ _ (Finset.mem_range.mpr hj)]
  exact hown.add hothers

/-- FROM_RNS of the residues of x ends with OK and leaves x mod M in RS0 (R276). -/
theorem fromRns_of_holdsResidues {t u : State} {d : Vec} (hb : RnsLegal p r) (hr : t.rns = some r)
    (hx : HoldsResidues r (t.rv d) x) (hu : exec (.fromRns d) t = .next u) :
    u.code = .ok ∧ u.rs[0].toNat = x % r.rnsMProd.toNat := by
  have hpos : 0 < r.rnsMProd.toNat :=
    hb.product ▸ Finset.prod_pos fun i hi => Nat.zero_lt_of_lt (hb.two_le i (Finset.mem_range.mp hi))
  have hsum : (∑ i ∈ Finset.range r.rnsK.toNat, crtTerm r (t.rv d) i) % r.rnsMProd.toNat = x % r.rnsMProd.toNat :=
    sum_crtTerm_modEq hb hx
  rw [fromRns_completes hr (hx.lt hb), hsum] at hu
  cases hu
  have hrs0 : (t.setRs0 (Word.ofNat (x % r.rnsMProd.toNat))).rs[0] = Word.ofNat (x % r.rnsMProd.toNat) := by simp
  exact ⟨rfl, (congrArg BitVec.toNat hrs0).trans (toNat_ofNat_of_lt ((Nat.mod_lt x hpos).trans r.rnsMProd.isLt))⟩

end LegalBase

/-! ### The laws -/

theorem rnsLegal_of_contextsLegal {s : State} {r : RnsBase} (hs : contextsLegal s) (hr : s.rns = some r) :
    RnsLegal s.params r ∧ r.rnsK.toNat ≤ 16 := by
  obtain ⟨hp, -, -, hlegal⟩ := hs
  exact ⟨hlegal r hr, (hlegal r hr).le_kMax.trans (wellFormed_bounds hp).1⟩

section Laws

variable {s t u : State} {i : Instr} {d e : Vec} {r : RnsBase} {x y : Nat}

/-- A command that leaves in the slots of RV[D] numbers that agree with x, each reduced modulo its own modulus, prepares
FROM_RNS to answer x mod M. -/
theorem fromRns_after_write {v old : Vector Word 16} {g : Nat → Nat} (hs : contextsLegal s) (hr : s.rns = some r)
    (hu : exec (.fromRns d) t = .next u) (ht : exec i s = .next t)
    (hexec : exec i s = .next (ended (s.setRv d v) .ok))
    (hv : ∀ j < 16, slot v j = if j < r.rnsK.toNat then Word.ofNat (g j % (slot r.rnsMod j).toNat) else slot old j)
    (hg : ∀ j < r.rnsK.toNat, g j ≡ x [MOD (slot r.rnsMod j).toNat]) :
    u.code = .ok ∧ u.rs[0].toNat = x % r.rnsMProd.toNat := by
  obtain ⟨hb, h16⟩ := rnsLegal_of_contextsLegal hs hr
  have hholds : HoldsResidues r v x := fun j hj => by
    have hlt := Nat.mod_lt (g j) (Nat.zero_lt_of_lt (hb.two_le j hj))
    rw [hv j (by omega), if_pos hj, toNat_ofNat_of_lt (hlt.trans (slot r.rnsMod j).isLt)]
    exact hg j hj
  rw [ht] at hexec
  cases hexec
  have hrv : (ended (s.setRv d v) .ok).rv d = v := rv_setRv s d v
  exact fromRns_of_holdsResidues hb ((setRv_rns s d v).trans hr) (hrv.symm ▸ hholds) hu

/-- A slotwise command by an operation that respects congruence, on the residues of x and y, prepares FROM_RNS to answer
the operation's value on x and y, mod M (R276). -/
theorem fromRns_after_slotwise {f : Nat → Nat → Nat} (hs : contextsLegal s) (hr : s.rns = some r)
    (hu : exec (.fromRns d) t = .next u) (ht : exec i s = .next t)
    (hexec : exec i s = s.slotwise (fun a b m => f a b % m) d e)
    (hf : ∀ {m a b}, a ≡ x [MOD m] → b ≡ y [MOD m] → f a b ≡ f x y [MOD m])
    (hx : HoldsResidues r (s.rv d) x) (hy : HoldsResidues r (s.rv e) y) :
    u.code = .ok ∧ u.rs[0].toNat = f x y % r.rnsMProd.toNat := by
  obtain ⟨hb, -⟩ := rnsLegal_of_contextsLegal hs hr
  obtain ⟨v, hdone, hv⟩ := slotwise_completes (fun a b m => f a b % m) hr fun j hj => ⟨hx.lt hb j hj, hy.lt hb j hj⟩
  exact fromRns_after_write hs hr hu ht (hexec.trans hdone) hv fun j hj => hf (hx.modEq j hj) (hy.modEq j hj)

end Laws

/-- Settles O44, by what each command writes and the Chinese remainder theorem for the base that is held. -/
theorem rnsLaws : Obligations.RnsLaws := by
  intro s t u d e r x y hs hr hu
  refine ⟨fun ht => ?_, fun hxy => ?_⟩
  · exact fromRns_after_write hs hr hu ht (exec_toRns hr d) (fun j hj => slot_fillSlots _ _ _ j hj) fun _ _ => rfl
  · have hx : HoldsResidues r (s.rv d) x := fun j hj => (hxy j hj).1
    have hy : HoldsResidues r (s.rv e) y := fun j hj => (hxy j hj).2
    exact ⟨fun ht => fromRns_after_slotwise hs hr hu ht (exec_radd d e s) Nat.ModEq.add hx hy,
      fun ht => fromRns_after_slotwise hs hr hu ht (exec_rmul d e s) Nat.ModEq.mul hx hy⟩

end Sys2Proof.Proofs
end

section
/-! PROOFS. 45_pointwise_control.md: the checks common to PADD, PSUB and PMUL (R300), what the three commands store (R301
to R303), and NOP (R304). The three are one command over the reduced operation, so its checks and its store are settled
once. -/

namespace Sys2Proof.Proofs

open Sys2Proof.Machine Sys2Proof.Safety Sys2Proof.Laws

/-! ### The common checks -/

theorem badWords_eq_true_iff (s : State) (d : Buf) (len m : Nat) :
    s.badWords d len m = true ↔ ∃ j < len, m ≤ (s.bufWord d j).toNat := by
  simp [State.badWords, State.bufWords]

theorem badWords_eq_false_iff (s : State) (d : Buf) (len m : Nat) :
    s.badWords d len m = false ↔ ∀ j < len, (s.bufWord d j).toNat < m := by
  simp [State.badWords, State.bufWords]

section PointwiseChecks

variable {s : State} {d src : Buf}

/-- With a modulus of at least 2, the sizes, the tags and the words decide (R300). -/
theorem pointwiseChecks_modulus (hm : 2 ≤ s.kmod.toNat) :
    firstFailure (s.pointwiseChecks d src) = firstFailure (s.pointwiseChecks d src).tail :=
  firstFailure_pass (decide_eq_false (Nat.not_lt.mpr hm))

theorem pointwiseChecks_size (hm : 2 ≤ s.kmod.toNat)
    (h : s.params.nMax < (s.bufLen d).toNat ∨ s.params.nMax < (s.bufLen src).toNat) :
    firstFailure (s.pointwiseChecks d src) = some .invalidSize :=
  (pointwiseChecks_modulus hm).trans (firstFailure_fail (by simpa using h))

theorem pointwiseChecks_mismatch (hm : 2 ≤ s.kmod.toNat) (hd : (s.bufLen d).toNat ≤ s.params.nMax)
    (hsrc : (s.bufLen src).toNat ≤ s.params.nMax) (h : s.bufLen d ≠ s.bufLen src) :
    firstFailure (s.pointwiseChecks d src) = some .sizeMismatch :=
  (pointwiseChecks_modulus hm).trans
    ((firstFailure_pass (by simp [hd, hsrc])).trans (firstFailure_fail (decide_eq_true h)))

/-- With a modulus of at least 2 and one legal length, the tags and the words decide (R300). -/
theorem pointwiseChecks_sized (hm : 2 ≤ s.kmod.toNat) (hmax : (s.bufLen d).toNat ≤ s.params.nMax)
    (hlen : s.bufLen d = s.bufLen src) :
    firstFailure (s.pointwiseChecks d src) =
      firstFailure [⟨decide (s.bufDom d ≠ s.bufDom src), .domainMismatch⟩,
        ⟨s.badWords d (s.bufLen d).toNat s.kmod.toNat || s.badWords src (s.bufLen d).toNat s.kmod.toNat,
          .operandRange⟩] :=
  (pointwiseChecks_modulus hm).trans
    ((firstFailure_pass (by simp [← hlen, hmax])).trans (firstFailure_pass (by simp [hlen])))

/-- With the two lengths and the two tags agreeing, only the words are left to decide (R300). -/
theorem pointwiseChecks_tagged (hm : 2 ≤ s.kmod.toNat) (hmax : (s.bufLen d).toNat ≤ s.params.nMax)
    (hlen : s.bufLen d = s.bufLen src) (hdom : s.bufDom d = s.bufDom src) :
    firstFailure (s.pointwiseChecks d src) =
      firstFailure [⟨s.badWords d (s.bufLen d).toNat s.kmod.toNat || s.badWords src (s.bufLen d).toNat s.kmod.toNat,
        .operandRange⟩] :=
  (pointwiseChecks_sized hm hmax hlen).trans (firstFailure_pass (by simp [hdom]))

/-! ### The shared command -/

variable (f : Nat → Nat → Nat → Nat)

/-- A pointwise command raises what its checks report, and nothing else changes (R300, R321). -/
theorem pointwise_raises {c : Code} (h : firstFailure (s.pointwiseChecks d src) = some c) :
    s.pointwise f d src = .next (ended s c) :=
  conclude_failed _ _ h

/-- With every check passed, the words below the length are written from the two old words, and nothing else but CODE and
BUSY changes. All words are read before the first is written, so D = S needs no case of its own (R300). -/
theorem pointwise_completes (hm : 2 ≤ s.kmod.toNat) (hmax : (s.bufLen d).toNat ≤ s.params.nMax)
    (hlen : s.bufLen d = s.bufLen src) (hdom : s.bufDom d = s.bufDom src)
    (hres : ∀ j < (s.bufLen d).toNat, (s.bufWord d j).toNat < s.kmod.toNat ∧ (s.bufWord src j).toNat < s.kmod.toNat) :
    ∃ t, s.pointwise f d src = .next t ∧ storedIn s t d (s.bufLen d).toNat (s.bufDom d) ∧
      ∀ j < (s.bufLen d).toNat,
        t.bufWord d j = Word.ofNat (f (s.bufWord d j).toNat (s.bufWord src j).toNat s.kmod.toNat) := by
  have hd : s.badWords d (s.bufLen d).toNat s.kmod.toNat = false :=
    (badWords_eq_false_iff s _ _ _).mpr fun j hj => (hres j hj).1
  have hsrc : s.badWords src (s.bufLen d).toNat s.kmod.toNat = false :=
    (badWords_eq_false_iff s _ _ _).mpr fun j hj => (hres j hj).2
  have hpass : firstFailure (s.pointwiseChecks d src) = none :=
    (pointwiseChecks_tagged hm hmax hlen hdom).trans (firstFailure_pass (Bool.or_eq_false_iff.mpr ⟨hd, hsrc⟩))
  have hstored := storedIn_writeBuf s d
    (List.zipWith (fun x y => Word.ofNat (f x.toNat y.toNat s.kmod.toNat))
      (s.bufWords d (s.bufLen d).toNat) (s.bufWords src (s.bufLen d).toNat))
  rw [List.length_zipWith, bufWords_length, bufWords_length, Nat.min_self] at hstored
  exact ⟨_, conclude_passed _ _ hpass, hstored, fun j hj =>
    (bufWord_writeBuf s d _ j (by simpa using hj)).trans (by simp)⟩

end PointwiseChecks

/-! ### PADD, PSUB and PMUL -/

theorem exec_padd (d src : Buf) (s : State) : exec (.padd d src) s = s.pointwise addmod d src := rfl

theorem exec_psub (d src : Buf) (s : State) : exec (.psub d src) s = s.pointwise submod d src := rfl

theorem exec_pmul (d src : Buf) (s : State) : exec (.pmul d src) s = s.pointwise mulmod d src := rfl

/-- Settles O45: each command is the shared one, over an operation that reduces the integer sum, difference or product to
[0, KMOD), where every value fits a word. -/
theorem pointwiseRule : Obligations.PointwiseRule := by
  refine ⟨by decide, ?_⟩
  rintro s d src _ _ i f hi rfl rfl hm hmax hlen hdom hres
  have hpos : 0 < s.kmod.toNat := by omega
  have hexec : ∃ g, exec i s = s.pointwise g d src ∧
      ∀ a b : Nat, g a b s.kmod.toNat < s.kmod.toNat ∧ (g a b s.kmod.toNat : Int) = f a b % s.kmod.toNat := by
    obtain ⟨rfl, rfl⟩ | ⟨rfl, rfl⟩ | ⟨rfl, rfl⟩ := hi
    · exact ⟨addmod, exec_padd d src s, fun a b => ⟨addmod_lt hpos a b, by simp [addmod]⟩⟩
    · exact ⟨submod, exec_psub d src s, fun a b => ⟨submod_lt hpos a b, submod_cast hpos a b⟩⟩
    · exact ⟨mulmod, exec_pmul d src s, fun a b => ⟨mulmod_lt hpos a b, by simp [mulmod]⟩⟩
  obtain ⟨g, hexec, hg⟩ := hexec
  obtain ⟨t, hrun, hstored, hword⟩ := pointwise_completes g hm hmax hlen.symm hdom.symm hres
  refine ⟨t, hexec.trans hrun, hstored, fun j hj => ?_⟩
  obtain ⟨hlt, hvalue⟩ := hg (s.bufWord d j).toNat (s.bufWord src j).toNat
  rw [hword j hj, toNat_ofNat_of_lt (hlt.trans s.kmod.isLt), hvalue]

/-- Settles O46: each clause is the first failing check. -/
theorem pointwiseChecksInOrder : Obligations.PointwiseChecksInOrder := by
  rintro s d src _ i hi rfl
  have hexec : ∃ g, exec i s = s.pointwise g d src := by
    simp only [List.mem_cons, List.not_mem_nil, or_false] at hi
    obtain rfl | rfl | rfl := hi
    · exact ⟨addmod, exec_padd d src s⟩
    · exact ⟨submod, exec_psub d src s⟩
    · exact ⟨mulmod, exec_pmul d src s⟩
  obtain ⟨g, hexec⟩ := hexec
  rw [hexec]
  refine ⟨fun hm => ?modulus, fun hm hsize => ?size, fun hm hd hsrc hne => ?mismatch, fun hm hmax hlen hne => ?tag,
    fun hm hmax hlen hdom hout => ?range⟩ <;> refine pointwise_raises g ?_
  case modulus => exact firstFailure_degenerate _ hm
  case size => exact pointwiseChecks_size hm hsize
  case mismatch => exact pointwiseChecks_mismatch hm hd hsrc hne
  case tag => exact (pointwiseChecks_sized hm hmax hlen).trans (firstFailure_fail (decide_eq_true hne))
  case range =>
    refine (pointwiseChecks_tagged hm hmax hlen hdom).trans (firstFailure_fail ?_)
    obtain ⟨j, hj, hout⟩ := hout
    rw [Bool.or_eq_true, badWords_eq_true_iff, badWords_eq_true_iff]
    exact hout.imp (⟨j, hj, ·⟩) (⟨j, hj, ·⟩)

/-! ### NOP -/

theorem exec_nop (s : State) : exec .nop s = s.complete := rfl

/-- Settles O13: NOP is the bare completion of a command. -/
theorem nopRule : Obligations.NopRule := ⟨by decide, exec_nop⟩

end Sys2Proof.Proofs
end

section
/-! PROOFS. 60_exceptions.md: a command always answers and ends BUSY (R321, R324), from the effects that a command can have;
and a command that fails changes nothing but CODE, BUSY and the context it was to build (R12, R321), from the state that each
command's end raises in. -/

namespace Sys2Proof.Proofs

open Sys2Proof.Machine Sys2Proof.Safety Sys2Proof.Laws

/-! ### Every command goes on -/

/-- No effect of a command reaches the parameters, OVR or the model's own fields. -/
theorem effect_keeps_ownFields {s u : State} {i : Instr} (h : Effect s i u) :
    u.params = s.params ∧ u.ovr = s.ovr ∧ u.ramDraw = s.ramDraw ∧ u.draws = s.draws ∧ u.readData = s.readData ∧
      u.agenda = s.agenda := by
  cases h with
  | stored => simp
  | residues => simp
  | _ => simp only [and_self]

/-- Settles O8: a command's answer is one of its effects, ended. -/
theorem everyCommandGoesOn : Obligations.EveryCommandGoesOn := by
  intro i s
  obtain ⟨u, c, hu, hexec⟩ := exec_endsIn i s
  have hown := effect_keeps_ownFields hu
  exact ⟨ended u c, hexec, rfl, hown⟩

/-! ### How a command fails -/

/-- The answer `r` is a failure only as `u` with a code raised in it. -/
def FailsIn (u : State) (r : Result) : Prop := ∀ t, r = .next t → t.code ≠ .ok → t = ended u t.code

theorem complete_failsIn (done u : State) : FailsIn u done.complete := by
  rintro t h hcode
  obtain rfl := Host.Outcome.next.inj h
  exact absurd rfl hcode

theorem raise_failsIn (u : State) (e : Code) : FailsIn u (u.raise e) := by
  rintro t h -
  obtain rfl := Host.Outcome.next.inj h
  rfl

/-- A command that ends by its checks fails in the state given for it: passed checks leave OK (R322). -/
theorem conclude_failsIn (cs : List Check) (done failed : State) : FailsIn failed (conclude cs done failed) := by
  intro t h hcode
  obtain ⟨-, rfl⟩ | ⟨e, -, rfl⟩ := conclude_cases h
  · exact absurd rfl hcode
  · rfl

theorem montCommand_failsIn (s : State) (xs : List Word) (result : MontgomeryContext → Word) :
    FailsIn s (s.montCommand xs result) := by
  unfold State.montCommand
  split
  · exact raise_failsIn s .noContext
  · exact conclude_failsIn _ _ s

theorem transform_failsIn (s : State) (d : Buf) (radix4 : Bool) (needs gives : Domain)
    (network : TransformContext → List Nat → List Nat) : FailsIn s (s.transform d radix4 needs gives network) := by
  unfold State.transform
  split
  · exact raise_failsIn s .noContext
  · exact conclude_failsIn _ _ s

theorem toRns_failsIn (s : State) (d : Vec) : FailsIn s (execToRns d s) := by
  unfold execToRns
  split
  · exact raise_failsIn s .noContext
  · exact complete_failsIn _ s

theorem fromRns_failsIn (s : State) (d : Vec) : FailsIn s (execFromRns d s) := by
  unfold execFromRns
  split
  · exact raise_failsIn s .noContext
  · exact conclude_failsIn _ _ s

theorem slotwise_failsIn (s : State) (f : Nat → Nat → Nat → Nat) (d src : Vec) : FailsIn s (s.slotwise f d src) := by
  unfold State.slotwise
  split
  · exact raise_failsIn s .noContext
  · exact conclude_failsIn _ _ s

/-- Settles O9: each command ends in `conclude`, the bare completion or a NoContext, and only the three builds hand
`conclude` a failing state other than the one at issue. -/
theorem failedCommandChangesOnlyCode : Obligations.FailedCommandChangesOnlyCode := by
  intro i s
  cases i with
  | nop => exact complete_failsIn s s
  | madd | msub | mmul | mpow | minvf | minve => exact conclude_failsIn _ _ s
  | montInit => exact conclude_failsIn _ _ { s with mont := none }
  | montMul | montTo | montFrom | ctAdd | ctSub => exact montCommand_failsIn s _ _
  | ctxBuild => exact conclude_failsIn _ _ { s with tc := none }
  | rootCheck | bfly2 | bfly4 => exact conclude_failsIn _ _ s
  | bitrev d => exact conclude_failsIn _ _ s
  | nttFwd2 d | nttInv2 d | nttFwd4 d | nttInv4 d => exact transform_failsIn s d _ _ _ _
  | rnsInit => exact conclude_failsIn _ _ { s with rns := none }
  | toRns d => exact toRns_failsIn s d
  | fromRns d => exact fromRns_failsIn s d
  | radd d src | rmul d src => exact slotwise_failsIn s _ d src
  | padd d src | psub d src | pmul d src => exact conclude_failsIn _ _ s

end Sys2Proof.Proofs
end

section
/-! PROOFS. 70_reset_and_hazards.md: the unit's turn on a legal command (R360), that a run ends with no command in
progress (R361), the BUSY lockout (R362), and the soft reset (R351). First what an admitted access is, busy or idle. -/

namespace Sys2Proof.Proofs

open Sys2Proof.Machine Sys2Proof.Laws

/-! ### Admitted accesses -/

/-- The read of an aligned offset is the read of the slot that stands there (R70, R71). -/
theorem hostAccess_read_offset (s : State) {off : Nat} (hoff : off < 0x30000) (h8 : off % 8 = 0) :
    hostAccess (.read (s.params.unitBase + off) 8) s = .next (s.hostRead (slotAt s.params off)) :=
  (hostAccess_admitted _ s (wellFormed_of_offset rfl rfl hoff h8)).trans
    (congrArg (fun o => Host.Outcome.next (s.hostRead (slotAt s.params o))) (Nat.add_sub_cancel_left _ off))

/-- The write of an aligned offset is the write of the slot that stands there (R70, R71). -/
theorem hostAccess_write_offset (s : State) {off : Nat} (hoff : off < 0x30000) (h8 : off % 8 = 0) (v : Word) :
    hostAccess (.write (s.params.unitBase + off) 8 v) s = .next (s.hostWrite (slotAt s.params off) v) :=
  (hostAccess_admitted _ s (wellFormed_of_offset rfl rfl hoff h8)).trans
    (congrArg (fun o => Host.Outcome.next (s.hostWrite (slotAt s.params o) v)) (Nat.add_sub_cancel_left _ off))

/-- A write to CTRL acts the same at any time (R28, R351). -/
theorem hostWrite_ctrl (s : State) (v : Word) : s.hostWrite .ctrl v = s.writeCtrl v := by
  unfold State.hostWrite
  split <;> rfl

theorem hostAccess_write_ctrl (s : State) (v : Word) :
    hostAccess (.write (s.params.unitBase + 0x008) 8 v) s = .next (s.writeCtrl v) := by
  rw [hostAccess_write_offset s (by decide) (by decide)]
  exact congrArg Host.Outcome.next (hostWrite_ctrl s v)

/-! ### The unit's turn on a legal command -/

/-- The unit's turn with a legal command in the latch runs it (R360). -/
theorem unitTurn_legal {v : Word} {i : Instr} {s : State} (hi : decode v = .ok i) (hl : s.latch = some v) :
    unitTurn s = exec i s := by
  simp only [unitTurn, hl, runCommand, hi]

/-- A table word stands for the command that its value on the bus decodes to. -/
theorem decode_of_decodeTableWord {nbits w : Nat} {i : Instr} (h : decodeTableWord nbits w = some i) :
    decode (tableWordValue nbits w) = .ok i := by
  unfold decodeTableWord at h
  split at h
  · rename_i j hj
    rwa [← Option.some.inj h]
  · cases h

/-- A placed table word gives the unit the next turn, with the word's value in the latch (A2). -/
theorem step_withFetchWord (s : State) (nbits w : Nat) :
    step (s.withFetchWord nbits w) = unitTurn { s with latch := some (tableWordValue nbits w) } := rfl

/-- Settles O5: whichever way the unit's turn comes, it is `exec` of the latched command. -/
theorem stepRunsTheLatchedCommand : Obligations.StepRunsTheLatchedCommand := by
  intro s i
  refine ⟨fun v hl hi => ⟨fun h => ?_, fun rest h => ?_⟩, fun w h => ?_⟩
  · exact (step_agenda_nil h).trans (unitTurn_legal hi hl)
  · exact (step_agenda_cons h).trans (unitTurn_legal hi hl)
  · exact (step_withFetchWord s 32 w).trans (unitTurn_legal (decode_of_decodeTableWord h) rfl)

/-! ### A run ends with no command in progress -/

/-- The unit's turn always goes on and leaves no command in progress (R321, R360): the unit waits, refuses an illegal
value, or runs a command. -/
theorem unitTurn_goesOn (s : State) :
    ∃ t, unitTurn s = .next t ∧ t.latch = none ∧ t.params = s.params ∧ t.agenda = s.agenda := by
  cases hl : s.latch with
  | none => exact ⟨s, unitTurn_idle hl, hl, rfl, rfl⟩
  | some v =>
    cases hd : decode v with
    | error e => exact ⟨_, unitTurn_illegal hd hl, rfl, rfl, rfl⟩
    | ok i =>
      obtain ⟨t, hexec, hlatch, hparams, -, -, -, -, hagenda⟩ := everyCommandGoesOn i s
      exact ⟨t, (unitTurn_legal hd hl).trans hexec, hlatch, hparams, hagenda⟩

/-- No host access reaches the parameters or the turns still to come (R7, A1). -/
theorem hostEffect_params_agenda {s t : State} {a : Access} (h : HostEffect s a t) :
    t.params = s.params ∧ t.agenda = s.agenda := by
  cases h with
  | bufLen d v => exact ⟨setBufLen_params s d v, setBufLen_agenda s d v⟩
  | bufDom d tag => exact ⟨setBufDom_params s d tag, setBufDom_agenda s d tag⟩
  | rv d i hi v => exact ⟨setRv_params s d _, setRv_agenda s d _⟩
  | _ => exact ⟨rfl, rfl⟩

/-- Every turn goes on, a host access if it is admitted, and keeps the parameters and the turns still to come. -/
theorem takeTurn_goesOn (x : Turn) (s : State) (hx : ∀ a, x = .host a → a.wellFormed s.params = true) :
    ∃ t, takeTurn x s = .next t ∧ t.params = s.params ∧ t.agenda = s.agenda := by
  cases x with
  | host a =>
    have hgo := hostAccess_admitted a s (hx a rfl)
    exact ⟨_, hgo, hostEffect_params_agenda (hostAccess_effect hgo)⟩
  | unit =>
    obtain ⟨t, hgo, -, hkept⟩ := unitTurn_goesOn s
    exact ⟨t, hgo, hkept⟩
  | powerOn => exact ⟨_, rfl, rfl, rfl⟩

/-- A run whose first step goes on is that step and the rest of the run. -/
theorem run_succ_of_step {M : Host.Core} {s t : M.State} (h : M.step s = .next t) (k : Nat) :
    M.run (k + 1) s = M.run k t := by
  rw [Host.Core.run, h]

/-- A run takes the turns of its agenda one by one, and then the unit's turn, which leaves no command in progress. -/
theorem run_agenda {turns : List Turn} {s : State} (hs : s.agenda = turns)
    (hadmitted : ∀ a, Turn.host a ∈ turns → a.wellFormed s.params = true) :
    ∃ t : State, Sys2Proof.core.run (turns.length + 1) s = .next t ∧ t.latch = none ∧ t.agenda = [] := by
  induction turns generalizing s with
  | nil =>
    obtain ⟨t, hgo, hlatch, -, hagenda⟩ := unitTurn_goesOn s
    exact ⟨t, run_succ_of_step (M := Sys2Proof.core) ((step_agenda_nil hs).trans hgo) 0, hlatch, hagenda.trans hs⟩
  | cons x rest ih =>
    obtain ⟨t, hgo, hparams, hagenda⟩ := takeTurn_goesOn x { s with agenda := rest } fun a ha =>
      hadmitted a (ha ▸ List.mem_cons_self)
    have hrest : ∀ a, Turn.host a ∈ rest → a.wellFormed t.params = true := fun a ha => by
      rw [hparams]
      exact hadmitted a (List.mem_cons_of_mem x ha)
    obtain ⟨u, hrun, hend⟩ := ih hagenda hrest
    exact ⟨u, (run_succ_of_step (M := Sys2Proof.core) ((step_agenda_cons hs).trans hgo) _).trans hrun, hend⟩

/-- Settles O7, by induction on the agenda. -/
theorem runEndsWithNoCommandInProgress : Obligations.RunEndsWithNoCommandInProgress :=
  fun _ => run_agenda rfl

/-! ### The BUSY lockout -/

/-- A slot that stands at offset `o` stands at no other aligned offset (R46). -/
theorem slotAt_ne_of_offset_ne {p : Params} {off o : Nat} {x : Slot} (h8 : off % 8 = 0) (hx : slotOffset x = some o)
    (hne : off ≠ o) : slotAt p off ≠ x :=
  fun h => hne ((slotAt_spec p off h8).2 o (h ▸ hx))

theorem busy_of_latch {s : State} (h : s.latch ≠ none) : s.busy = true := Option.isSome_iff_ne_none.mpr h

/-- STATUS and CAPS read as ever, whether a command is in progress or not (R362). -/
theorem hostRead_unlocked (s : State) {x : Slot} (hx : x = .status ∨ x = .caps) :
    s.hostRead x = { s with readData := s.readSlot x } := by
  unfold State.hostRead
  rw [if_neg]
  rcases hx with rfl | rfl <;> simp

/-- While a command is in progress every other slot reads as a free draw (R362). -/
theorem hostRead_locked {s : State} (hl : s.latch ≠ none) {x : Slot} (hstatus : x ≠ .status) (hcaps : x ≠ .caps) :
    s.hostRead x = { s with readData := Config.freeWord s.draws, draws := s.draws + 1 } := by
  simp [State.hostRead, busy_of_latch hl, hstatus, hcaps]

/-- While a command is in progress a write to a slot other than STATUS and CTRL only sets OVR (R362). -/
theorem hostWrite_locked {s : State} (hl : s.latch ≠ none) {x : Slot} (hstatus : x ≠ .status) (hctrl : x ≠ .ctrl)
    (v : Word) : s.hostWrite x v = { s with ovr := true } := by
  rw [State.hostWrite, if_pos (busy_of_latch hl)]
  cases x with
  | status => exact (hstatus rfl).elim
  | ctrl => exact (hctrl rfl).elim
  | _ => rfl

/-- A write to STATUS acts the same at any time (R26, R362). -/
theorem hostWrite_status (s : State) (v : Word) : s.hostWrite .status v = s.writeStatus v := by
  unfold State.hostWrite
  split <;> rfl

/-- Settles O53: the rows of R362, each the rule of the slot that stands at its offset. -/
theorem busyLockout : Obligations.BusyLockout := by
  intro s off v hl hoff h8
  rw [hostAccess_read_offset s hoff h8, hostAccess_write_offset s hoff h8]
  refine ⟨?readStatus, ?readCaps, fun hstatus hcaps => ?readOther, ?writeStatus, ?writeCtrl,
    fun hstatus hctrl => ?writeOther⟩
  case readStatus =>
    rintro rfl
    exact congrArg Host.Outcome.next (hostRead_unlocked s (.inl rfl))
  case readCaps =>
    rintro rfl
    exact congrArg Host.Outcome.next (hostRead_unlocked s (.inr rfl))
  case readOther =>
    rw [hostRead_locked hl (slotAt_ne_of_offset_ne h8 rfl hstatus) (slotAt_ne_of_offset_ne h8 rfl hcaps)]
  case writeStatus =>
    rintro rfl
    exact congrArg Host.Outcome.next (hostWrite_status s v)
  case writeCtrl =>
    rintro rfl
    exact congrArg Host.Outcome.next (hostWrite_ctrl s v)
  case writeOther =>
    rw [hostWrite_locked hl (slotAt_ne_of_offset_ne h8 rfl hstatus) (slotAt_ne_of_offset_ne h8 rfl hctrl)]

/-! ### The soft reset -/

/-- A soft reset shows the registers of power-on (R46, R351). -/
theorem readSlot_softReset (s : State) {x : Slot} (hbuf : ∀ d i, x ≠ .bufWord d i) :
    s.softReset.readSlot x = (State.powerOn s.params).readSlot x := by
  cases x with
  | bufWord d i => exact (hbuf d i rfl).elim
  | bufLen d => cases d <;> rfl
  | bufDom d => cases d <;> rfl
  | rv d i => cases d <;> rfl
  | _ => rfl

/-- The buffers after a soft reset are those that abandoning the command leaves (R351). -/
theorem bufWord_softReset (s : State) (d : Buf) (i : Nat) : s.softReset.bufWord d i = s.abandon.bufWord d i :=
  wordAt_congr fun k _ => by
    simp only [State.byteAt, softReset_mem, softReset_ramDraw, abandon_ramDraw]

/-- The buffer that the command in progress writes is that of the command whose encoding is in the latch (R351). -/
theorem pendingBuf_eq_some_iff {s : State} {d : Buf} :
    s.pendingBuf = some d ↔ ∃ c, s.latch = some (commandValue c) ∧ destBuf c = some d := by
  unfold State.pendingBuf
  constructor
  · intro h
    split at h
    · cases h
    · rename_i v hl
      split at h
      · rename_i c hc
        exact ⟨c, hl.trans (congrArg some (eq_commandValue_of_decode hc)), h⟩
      · cases h
  · rintro ⟨c, hl, hd⟩
    simp only [hl, decode_commandValue, hd]

/-- A store in one buffer leaves the words of the other (R72). -/
theorem bufWord_writeBuf_ne (s : State) {d e : Buf} (hne : d ≠ e) {ws : List Word} {i : Nat}
    (hp : s.params.wellFormed = true) (hlen : ws.length ≤ s.params.nMax) (hi : i < s.params.nMax) :
    (s.writeBuf e ws).bufWord d i = s.bufWord d i := by
  have hmax := (wellFormed_bounds hp).2
  refine wordAt_congr fun k hk => byteAt_writeBuf_outside s e ws _ ?_
  cases d <;> cases e <;> simp only [bufBase, ne_eq, not_true_eq_false] at hne ⊢ <;> omega

/-- The words an abandoned command may have written are free draws (R351). -/
theorem bufWord_abandon_draw {s : State} {d : Buf} (hd : s.pendingBuf = some d) {i : Nat} (hi : i < s.abandonedLen d) :
    s.abandon.bufWord d i = Config.freeWord (s.draws + i) := by
  have hstored := bufWord_writeBuf s d ((List.range (s.abandonedLen d)).map fun i => Config.freeWord (s.draws + i)) i
    (by simpa using hi)
  rw [List.getElem_map, List.getElem_range] at hstored
  rw [State.abandon, hd]
  exact hstored

/-- Every other word of the buffers keeps its value when a command is abandoned (R351). -/
theorem bufWord_abandon_kept {s : State} (hp : s.params.wellFormed = true) {d : Buf} {i : Nat} (hi : i < s.params.nMax)
    (hkept : s.pendingBuf = some d → s.abandonedLen d ≤ i) : s.abandon.bufWord d i = s.bufWord d i := by
  rcases abandon_cases s with h | ⟨e, ws, he, hlen, h⟩ <;> rw [h]
  show (s.writeBuf e ws).bufWord d i = s.bufWord d i
  by_cases hde : d = e
  · subst hde
    exact bufWord_writeBuf_above s d ws i (hlen ▸ hkept he)
  · exact bufWord_writeBuf_ne s hde hp (hlen ▸ Nat.min_le_right _ _) hi

/-- Settles O54: the reset shows power-on's registers, and its buffers are those of the abandoned command. -/
theorem softResetRule : Obligations.SoftResetRule := by
  refine ⟨fun s v hp hv => ⟨s.softReset, ?resets, rfl, rfl, fun off hcaps hbuf => ?register,
    fun d i hi => ⟨?draw, ?kept⟩⟩, fun s v hv => ?nothing⟩
  case resets => rw [hostAccess_write_ctrl, State.writeCtrl, if_pos hv]
  case register => exact (readSlot_softReset s hbuf).trans (readSlot_powerOn _ hcaps hbuf)
  case draw =>
    rintro ⟨hd, hlen⟩
    rw [bufWord_softReset]
    exact bufWord_abandon_draw (pendingBuf_eq_some_iff.mpr hd) (Nat.lt_min.mpr ⟨hlen, hi⟩)
  case kept =>
    intro hnot
    rw [bufWord_softReset]
    refine bufWord_abandon_kept hp hi fun hd => Nat.le_of_not_lt fun hlt => hnot ?_
    exact ⟨pendingBuf_eq_some_iff.mp hd, (Nat.lt_min.mp hlt).1⟩
  case nothing => rw [hostAccess_write_ctrl, State.writeCtrl, hv, if_neg Bool.false_ne_true]

end Sys2Proof.Proofs
end
